-- ==== Sys2Proof/Word.lean ====
section
/-! DEFINITION. The word types of the block (00_scope.md R9, R10): a register is one byte, a command and a response
are made of 32-bit words, an operand or result value has 16 bits. -/

namespace Sys2Proof

/-- A byte-wide register, one byte of a frame (00_scope.md R10). -/
abbrev Byte := BitVec 8

/-- The `val` field of a command word and the `value` field of a response (30_encoding.md R87, R92). -/
abbrev Half := BitVec 16

/-- One word of a command or a response (30_encoding.md R80); a duration or an interval in ticks (R88). -/
abbrev Word := BitVec 32

end Sys2Proof
end

