-- ==== Sys2Proof/Config.lean ====
section
/-! DEFINITION. What an instance fixes and what the spec leaves open: ports and register kinds, the configuration
record CFG and its table (10_state.md R27, R28), the OPEN parameters (00_scope.md R8), the draws of the environment,
and the free values (opaque constants, nothing is known of them). -/

namespace Sys2Proof

/-- The two ports (00_scope.md R9). -/
inductive Port
  | A
  | B
deriving DecidableEq, Repr, Inhabited

/-- The four register kinds of a port: direction, pull-up, output value, input value (10_state.md R29). -/
inductive RegKind
  | dir
  | pu
  | out
  | inp
deriving DecidableEq, Repr, Inhabited

/-- One byte for each port. -/
structure PerPort where
  a : Byte
  b : Byte
deriving DecidableEq, Repr, Inhabited

/-- One entry of the mapping table as it is supplied: a coordinate, and a port and a pin in the widths of the
command's fields, so that an entry outside A, B x 0..7 can be written and be rejected by reset (10_state.md R28,
70_reset_and_hazards.md R242). DESIGN CHOICE, log 28, safe. -/
structure MapEntry where
  row : Nat
  col : Nat
  port : BitVec 4
  pin : BitVec 4
deriving DecidableEq, Repr, Inhabited

/-- The configuration record CFG (10_state.md R27). -/
structure Cfg where
  busIndex : Nat
  devIndex : Nat
  clockHz : Nat
  hwAddr : BitVec 3
  numRows : Nat
  numCols : Nat
  map : List MapEntry
deriving DecidableEq, Repr, Inhabited

/-- One register write issued by reset, an element of `INIT_FRAMES` (00_scope.md R8). -/
structure InitFrame where
  kind : RegKind
  port : Port
  value : Byte
deriving DecidableEq, Repr, Inhabited

/-- The parameters the source leaves open (00_scope.md R8, 20_memory.md R54). `TICK_S` is the fraction
`tickNum / tickDen` of a second. -/
structure Params where
  addrDir : PerPort
  addrPu : PerPort
  addrOut : PerPort
  addrIn : PerPort
  dirOutBit : Bool
  initFrames : List InitFrame
  readFill : Byte
  tickNum : Nat
  tickDen : Nat
  allowAbort : Bool
deriving DecidableEq, Repr, Inhabited

/-- Three bytes of one transfer, outgoing or incoming (20_memory.md R51). -/
structure Frame where
  b0 : Byte
  b1 : Byte
  b2 : Byte
deriving DecidableEq, Repr, Inhabited

/-- The environment's answer to one transfer (40_bus_transaction.md R110). `ok`: completed, and a write was taken by
the chip (R112). `silent`: completed although the chip did not take the write (R115; DEDUCED, log 17, safe). `fail`:
failed, `landed` says whether the chip took the write all the same (10_state.md R31). -/
inductive BusAnswer
  | ok (rx : Frame)
  | silent (rx : Frame)
  | fail (landed : Bool)
deriving DecidableEq, Repr, Inhabited

/-- A draw for one transfer: its duration and its answer (40_bus_transaction.md R110). -/
structure BusReply where
  time : Nat
  answer : BusAnswer
deriving DecidableEq, Repr, Inhabited

/-- A draw for one wait (60_exceptions.md R220, R212): how late it ends, whether ABORT arrives, and how long the wait
had lasted when ABORT cut it short. -/
structure WaitReply where
  slack : Nat
  abort : Bool
  cut : Nat
deriving DecidableEq, Repr, Inhabited

/-- What the chip and the outside world may do to the state outside the block (60_exceptions.md R225): set the input
pins of a port, change a chip register, reset the chip (its registers then hold `Config.chipPowerOn`). -/
inductive WorldAct
  | pins (p : Port) (v : Byte)
  | chipChange (reg v : Byte)
  | chipReset
deriving DecidableEq, Repr, Inhabited

/-- A draw for the outside world's move before one micro-step: the time that passes and what changes (00_scope.md R18). -/
structure WorldMove where
  elapse : Nat
  acts : List WorldAct
deriving DecidableEq, Repr, Inhabited

/-- A draw for one handle operation of the platform (60_exceptions.md R224): whether opening succeeds (closing cannot
fail), and how long it takes. -/
structure HandleReply where
  ok : Bool
  time : Nat
deriving DecidableEq, Repr, Inhabited

/-- The contents of the four cache registers, unspecified after a failed reset (10_state.md R34). -/
structure CacheBytes where
  out : PerPort
  dir : PerPort
deriving DecidableEq, Repr, Inhabited

namespace Config

/-- `OUT_INIT` (00_scope.md R8; 92_eei_decisions.md D8). -/
def outInit : Byte := 0x00#8

/-- FREE VALUE, log 3: the n-th answer of the bus environment. Nothing is known of it. -/
opaque freeBus : Nat → BusReply

/-- FREE VALUE, log 3: the n-th end of a wait. Nothing is known of it. -/
opaque freeWait : Nat → WaitReply

/-- FREE VALUE, log 3: the n-th move of the outside world. Nothing is known of it. -/
opaque freeWorld : Nat → WorldMove

/-- FREE VALUE, log 3: the n-th answer of the platform to opening or closing the handle. Nothing is known of it. -/
opaque freeHandle : Nat → HandleReply

/-- FREE VALUE, log 3, log 12: the cache registers after the n-th failed reset. Nothing is known of it. -/
opaque freeCaches : Nat → CacheBytes

/-- The default parameter set P0 (20_memory.md R55) with the defaults of 00_scope.md R8. PRESUMED, log 5, unsafe where
a claim rests on these numbers: they are the spec's general knowledge of the chip family. `TICK_S` = 1 ms as in
95_test_vectors.md (DESIGN CHOICE, log 29, unsafe in the same way). -/
def paramsP0 : Params where
  addrDir := ⟨0x00#8, 0x01#8⟩
  addrPu := ⟨0x0C#8, 0x0D#8⟩
  addrOut := ⟨0x14#8, 0x15#8⟩
  addrIn := ⟨0x12#8, 0x13#8⟩
  dirOutBit := false
  initFrames := []
  readFill := 0x00#8
  tickNum := 1
  tickDen := 1000
  allowAbort := true

/-- What a register of the chip holds at power-on and after an external reset of the chip, by address. The spec calls
CHIP unspecified (10_state.md R34). PRESUMED, log 6, unsafe: the MCP23S17 family's values in the addressing mode of P0,
the two direction registers 0xFF (70_reset_and_hazards.md R245), every other register 0x00. -/
def chipPowerOn (a : Nat) : Byte := if a < 2 then 0xFF#8 else 0x00#8

/-- The table T of 2 rows and 3 columns (43_matrix_map.md R173). -/
def tableT : List MapEntry :=
  [⟨0, 0, 0#4, 0#4⟩, ⟨0, 1, 0#4, 1#4⟩, ⟨0, 2, 0#4, 2#4⟩,
   ⟨1, 0, 1#4, 4#4⟩, ⟨1, 1, 1#4, 5#4⟩, ⟨1, 2, 1#4, 6#4⟩]

/-- The configuration of the spec's test programs: table T, hardware address 0 (95_test_vectors.md part 3).
DESIGN CHOICE, log 4, unsafe where a claim rests on it. -/
def cfgT : Cfg where
  busIndex := 0
  devIndex := 0
  clockHz := 100000
  hwAddr := 0#3
  numRows := 2
  numCols := 3
  map := tableT

end Config
end Sys2Proof
end

