-- ==== Sys2Proof/Syntax.lean ====
section
/-! DEFINITION. The instructions: the two bus frames, the eleven commands and the five reserved codes, one constructor
for each row of spec/opcode_table.json (30_encoding.md R81, R86, R93). Operands have the widths of their encoding
fields (R87, R88), wider than their legal ranges (R91). -/

namespace Sys2Proof

/-- A matrix coordinate as a command carries it (30_encoding.md R87, R88). -/
structure Coord where
  row : BitVec 8
  col : BitVec 8
deriving DecidableEq, Repr

/-- The instructions (00_scope.md R6). Levels and flags: `true` is 1, high, output (30_encoding.md R87). -/
inductive Instr
  /-- `REG_WRITE`, 40_bus_transaction.md R112; the fields of the frame, 30_encoding.md R81. -/
  | regWrite (hwAddr : BitVec 3) (reg data : Byte)
  /-- `REG_READ`, 40_bus_transaction.md R113; `data` is the placeholder byte. -/
  | regRead (hwAddr : BitVec 3) (reg data : Byte)
  /-- `SET_PIN`, 41_pin_ops.md R131. -/
  | setPin (port pin : BitVec 4) (level : Bool)
  /-- `TOGGLE_PIN`, 41_pin_ops.md R132. -/
  | togglePin (port pin : BitVec 4)
  /-- `SET_PORT`, 41_pin_ops.md R133. -/
  | setPort (port : BitVec 4) (value : Half)
  /-- `GET_PORT_STATE`, 41_pin_ops.md R134. -/
  | getPortState (port : BitVec 4)
  /-- `CONFIGURE_PIN_MODE`, 41_pin_ops.md R135. -/
  | configurePinMode (port pin : BitVec 4) (isOutput : Bool)
  /-- `READ_PORT_INPUT`, 41_pin_ops.md R136. -/
  | readPortInput (port : BitVec 4)
  /-- `PULSE_PIN`, 42_pulse_engine.md R160. -/
  | pulsePin (port pin : BitVec 4) (active : Bool) (duration : Word)
  /-- `RESOLVE`, 43_matrix_map.md R170. -/
  | resolve (row col : BitVec 8)
  /-- `PRESS`, 44_matrix_session.md R180. -/
  | press (row col : BitVec 8) (duration : Word)
  /-- `PRESS_SEQ`, 44_matrix_session.md R182. -/
  | pressSeq (coords : List Coord) (duration interval : Word)
  /-- `CLEANUP`, 44_matrix_session.md R186. -/
  | cleanup
  /-- `RESERVED_0`, 30_encoding.md R93. -/
  | reserved0
  /-- `RESERVED_C`, 30_encoding.md R93. -/
  | reservedC
  /-- `RESERVED_D`, 30_encoding.md R93. -/
  | reservedD
  /-- `RESERVED_E`, 30_encoding.md R93. -/
  | reservedE
  /-- `RESERVED_F`, 30_encoding.md R93. -/
  | reservedF
deriving DecidableEq, Repr

/-- The encoded form of an instruction: a 24-bit frame or the words of a command (30_encoding.md R80). -/
inductive Code
  | frame (f : BitVec 24)
  | words (ws : List Word)
deriving DecidableEq, Repr

/-- `clear_pin(port, pin)` is `set_pin(port, pin, low)` (30_encoding.md R96). -/
def Instr.clearPin (port pin : BitVec 4) : Instr := .setPin port pin false

/-- `pulse_pin(port, pin, duration)` with the default active level, high (30_encoding.md R95). -/
def Instr.pulsePinHigh (port pin : BitVec 4) (duration : Word) : Instr := .pulsePin port pin true duration

/-- The "all pins low" recovery step: `set_port(A, 0)`, then `set_port(B, 0)` (30_encoding.md R96). -/
def Instr.allPinsLow : List Instr := [.setPort 0#4 0#16, .setPort 1#4 0#16]

/-- The host's recovery after an error or the signal: all pins low, then cleanup (70_reset_and_hazards.md R246). -/
def Instr.recovery : List Instr := Instr.allPinsLow ++ [.cleanup]

end Sys2Proof
end

