-- ==== Sys2Proof/WellFormed.lean ====
section
/-! DEFINITION. Which instructions have an encoding, and what a model may assume of the OPEN parameters. -/

namespace Sys2Proof

/-- An instruction has an encoding: the number of coordinates of a press sequence fits the 16 bits of `val`
(30_encoding.md R87, R89). Every other operand fits its field by its type. -/
def Instr.wf : Instr → Bool
  | .pressSeq coords _ _ => decide (coords.length < 65536)
  | _ => true

/-- The constraints on the register addresses that 20_memory.md R54 allows a model to assume: the six addresses of
DIR, PU and OUT are pairwise distinct, and the two IN addresses differ. `TICK_S` is positive (00_scope.md R8). -/
def Params.wf (p : Params) : Bool :=
  decide ([p.addrDir.a, p.addrDir.b, p.addrPu.a, p.addrPu.b, p.addrOut.a, p.addrOut.b].Nodup)
    && decide (p.addrIn.a ≠ p.addrIn.b) && decide (0 < p.tickNum) && decide (0 < p.tickDen)

end Sys2Proof
end

