-- ==== Sys2Proof/Decode.lean ====
section
/-! DEFINITION. The decoder, total on every frame and every list of words, and the encoder, both written from
30_encoding.md R81, R86 to R90 and R93. Operand legality is not tested here (R91). -/

namespace Sys2Proof

/-- Why a request does not decode. -/
inductive DecodeError
  /-- Bits 23:20 of a frame are not 0100 (30_encoding.md R81, R94). -/
  | notAFrame
  /-- There is no word 0. -/
  | noWord
  /-- Word 0 names a longer command than there are words (30_encoding.md R89). -/
  | missingWords
deriving DecidableEq, Repr

/-- The fields of a frame (30_encoding.md R81): bit 16 is R. -/
def decodeFrame (f : BitVec 24) : Except DecodeError Instr :=
  if f.extractLsb' 20 4 = 0b0100#4 then
    if f.getLsbD 16 then
      .ok (.regRead (f.extractLsb' 17 3) (f.extractLsb' 8 8) (f.extractLsb' 0 8))
    else
      .ok (.regWrite (f.extractLsb' 17 3) (f.extractLsb' 8 8) (f.extractLsb' 0 8))
  else .error .notAFrame

/-- The fields of word 0 (30_encoding.md R87). -/
def opField (w : Word) : BitVec 4 := w.extractLsb' 28 4
/-- Bits 27:24 of word 0, 30_encoding.md R87. -/
def portField (w : Word) : BitVec 4 := w.extractLsb' 24 4
/-- Bits 23:20 of word 0, 30_encoding.md R87. -/
def pinField (w : Word) : BitVec 4 := w.extractLsb' 20 4
/-- Bit 19 of word 0, 30_encoding.md R87. -/
def lvlField (w : Word) : Bool := w.getLsbD 19
/-- Bits 15:0 of word 0, 30_encoding.md R87. -/
def valField (w : Word) : Half := w.extractLsb' 0 16

/-- A coordinate in bits 15:0 of a word: row above col; bits 31:16 are ignored (30_encoding.md R87, R88). -/
def coordOf (w : Word) : Coord := ⟨w.extractLsb' 8 8, w.extractLsb' 0 8⟩

/-- The length of a command in words, from word 0 alone (30_encoding.md R89). -/
def cmdLength (w : Word) : Nat :=
  match (opField w).toNat with
  | 7 => 2
  | 9 => 2
  | 10 => 3 + (valField w).toNat
  | _ => 1

/-- The command of word 0 and its extension words `ext`, all of them present (30_encoding.md R86 to R88, R93). -/
def decodeOperands (w : Word) (ext : List Word) : Instr :=
  match (opField w).toNat with
  | 0 => .reserved0
  | 1 => .setPin (portField w) (pinField w) (lvlField w)
  | 2 => .togglePin (portField w) (pinField w)
  | 3 => .setPort (portField w) (valField w)
  | 4 => .getPortState (portField w)
  | 5 => .configurePinMode (portField w) (pinField w) (lvlField w)
  | 6 => .readPortInput (portField w)
  | 7 => .pulsePin (portField w) (pinField w) (lvlField w) (ext.getD 0 0#32)
  | 8 => .resolve (coordOf w).row (coordOf w).col
  | 9 => .press (coordOf w).row (coordOf w).col (ext.getD 0 0#32)
  | 10 => .pressSeq ((ext.drop 2).map coordOf) (ext.getD 0 0#32) (ext.getD 1 0#32)
  | 11 => .cleanup
  | 12 => .reservedC
  | 13 => .reservedD
  | 14 => .reservedE
  | _ => .reservedF

/-- Read word 0, compute the length, take the remaining words (30_encoding.md R89); the words after the command are
handed back. -/
def decodeWords : List Word → Except DecodeError (Instr × List Word)
  | [] => .error .noWord
  | w :: rest =>
    if rest.length < cmdLength w - 1 then .error .missingWords
    else .ok (decodeOperands w (rest.take (cmdLength w - 1)), rest.drop (cmdLength w - 1))

/-- Decode one encoded instruction. -/
def decode : Code → Except DecodeError (Instr × List Word)
  | .frame f => (decodeFrame f).map fun i => (i, [])
  | .words ws => decodeWords ws

/-- A frame of the fields of 30_encoding.md R81. -/
def frameBits (hwAddr : BitVec 3) (r : Bool) (reg data : Byte) : BitVec 24 :=
  ((0b0100#4 ++ hwAddr) ++ BitVec.ofBool r) ++ (reg ++ data)

/-- Word 0 from its fields; the reserved bits 18:16 are written as zero (30_encoding.md R87). -/
def word0 (op port pin : BitVec 4) (lvl : Bool) (val : Half) : Word :=
  ((op ++ port) ++ (pin ++ BitVec.ofBool lvl)) ++ (0#3 ++ val)

/-- A coordinate in the low half of a word (30_encoding.md R87, R88). -/
def coordBits (c : Coord) : Half := c.row ++ c.col

/-- One coordinate word of a press sequence; the ignored bits 31:16 are written as zero (30_encoding.md R88). -/
def coordWord (c : Coord) : Word := 0#16 ++ coordBits c

/-- The encoding of an instruction (30_encoding.md R81, R86 to R88); fields a command does not use are written as
zero (R90). -/
def encode : Instr → Code
  | .regWrite a reg data => .frame (frameBits a false reg data)
  | .regRead a reg data => .frame (frameBits a true reg data)
  | .setPin port pin lvl => .words [word0 1#4 port pin lvl 0#16]
  | .togglePin port pin => .words [word0 2#4 port pin false 0#16]
  | .setPort port value => .words [word0 3#4 port 0#4 false value]
  | .getPortState port => .words [word0 4#4 port 0#4 false 0#16]
  | .configurePinMode port pin out => .words [word0 5#4 port pin out 0#16]
  | .readPortInput port => .words [word0 6#4 port 0#4 false 0#16]
  | .pulsePin port pin lvl d => .words [word0 7#4 port pin lvl 0#16, d]
  | .resolve row col => .words [word0 8#4 0#4 0#4 false (coordBits ⟨row, col⟩)]
  | .press row col d => .words [word0 9#4 0#4 0#4 false (coordBits ⟨row, col⟩), d]
  | .pressSeq coords d ivl =>
    .words (word0 10#4 0#4 0#4 false (BitVec.ofNat 16 coords.length) :: d :: ivl :: coords.map coordWord)
  | .cleanup => .words [word0 11#4 0#4 0#4 false 0#16]
  | .reserved0 => .words [word0 0#4 0#4 0#4 false 0#16]
  | .reservedC => .words [word0 12#4 0#4 0#4 false 0#16]
  | .reservedD => .words [word0 13#4 0#4 0#4 false 0#16]
  | .reservedE => .words [word0 14#4 0#4 0#4 false 0#16]
  | .reservedF => .words [word0 15#4 0#4 0#4 false 0#16]

/-- An encoded instruction followed by other words of the port. -/
def Code.followedBy : Code → List Word → Code
  | .frame f, _ => .frame f
  | .words ws, more => .words (ws ++ more)

/-- The words of the command whose bits are `w`, bit 0 the least significant bit of word 0; every bit from `nbits` on
is 0, up to the command's own length. -/
def tableWords (nbits w : Nat) : List Word :=
  (List.range (cmdLength (BitVec.ofNat 32 (w % 2 ^ nbits)))).map
    fun k => BitVec.ofNat 32 ((w % 2 ^ nbits) >>> (32 * k))

/-- The encoded instruction whose bits are `w`, numbered as spec/opcode_table.json numbers them: a row of 24 bits is a
frame, every other row is a command. -/
def tableCode (nbits w : Nat) : Code :=
  if nbits = 24 then .frame (BitVec.ofNat 24 w) else .words (tableWords nbits w)

/-- The instruction the decoder reads from an instruction whose bits are `w`; none where it refuses. -/
def decodeTableWord (nbits w : Nat) : Option Instr :=
  match decode (tableCode nbits w) with
  | .ok (i, _) => some i
  | .error _ => none

end Sys2Proof
end

