-- ==== Sys2Proof/Machine/State.lean ====
section
/-! DEFINITION. The state of the block and of what its rules mention outside it (10_state.md R20), as plain data; the
reasons a step can stop; the state after reset (10_state.md R34). -/

namespace Sys2Proof.Machine

/-- `LIFE` (10_state.md R24): `opened` is OPEN, the bus handle is held; `closed` is CLOSED. -/
inductive Life
  | opened
  | closed
deriving DecidableEq, Repr

/-- `PHASE` (10_state.md R25): which step of a pulse or sequence is next. -/
inductive Phase
  | idle
  | assert
  | hold
  | release
  | gap
deriving DecidableEq, Repr

/-- The status of a response (30_encoding.md R92, 60_exceptions.md R201). -/
inductive Status
  | ok
  | validationError
  | busError
  | sessionClosedError
  | fatalError
  | aborted
deriving DecidableEq, Repr

/-- `RESP`, the result of the last finished command (10_state.md R26). -/
structure Resp where
  status : Status
  value : Half
deriving DecidableEq, Repr

/-- The bus handle as the platform opened it (10_state.md R32, 60_exceptions.md R224). -/
structure Handle where
  busIndex : Nat
  devIndex : Nat
  clockHz : Nat
deriving DecidableEq, Repr

/-- The events of the trace, each with the value of `NOW` at its start and at its end (00_scope.md R14). -/
inductive Event
  | opened (bus dev clk : Nat) (start finish : Nat)
  | closed (start finish : Nat)
  | xfer (tx : Frame) (rx : Option Frame) (start finish : Nat)
  | wait (d : Word) (start finish : Nat)
  | resp (status : Status) (value : Half) (start finish : Nat)
deriving DecidableEq, Repr

/-- What the host asks for, in order: a word at the command port (30_encoding.md R85), a frame handed to the
transaction engine (log 7), a reset with a configuration (70_reset_and_hazards.md R240). DESIGN CHOICE, log 1, safe. -/
inductive HostItem
  | word (w : Word)
  | frame (f : BitVec 24)
  | reset (cfg : Cfg)
deriving DecidableEq, Repr

/-- Who answers the transfers: draws of the environment (40_bus_transaction.md R110), or the reference responder
IdealChip (20_memory.md R66). DESIGN CHOICE, log 23. -/
inductive Responder
  | free
  | ideal
deriving DecidableEq, Repr

/-- A source of draws as plain data: answers fixed beforehand, and how many have been taken. Past the end of the list
the answer is a free value of Config (log 3). -/
structure Script (α : Type) where
  answers : List α
  used : Nat
deriving DecidableEq, Repr

/-- The chip's registers that hold another value than at power-on, in address order (10_state.md R31; log 6). -/
abbrev Memory := List Host.Cell

/-- The complete state (10_state.md R20). -/
structure State where
  /-- `OUT_CACHE` (10_state.md R21, R22). -/
  out : PerPort
  /-- `DIR_CACHE` (10_state.md R21, R23). -/
  dir : PerPort
  /-- `LIFE` (10_state.md R24). -/
  life : Life
  /-- `PHASE` (10_state.md R25). -/
  phase : Phase
  /-- `IDX` (10_state.md R25). -/
  idx : Nat
  /-- `CMD` (10_state.md R25). -/
  cmd : Option Instr
  /-- `RESP` (10_state.md R26). -/
  resp : Resp
  /-- `CFG` with `MAP` (10_state.md R27, R28). -/
  cfg : Cfg
  /-- The OPEN parameters (00_scope.md R8); no step writes them. -/
  params : Params
  /-- The bus handle held (10_state.md R32). -/
  handle : Option Handle
  /-- `CHIP` (10_state.md R31); an address that is not listed holds `Config.chipPowerOn`. -/
  chip : Memory
  /-- The chip's input pins (10_state.md R20, 20_memory.md R66). -/
  pins : PerPort
  /-- `NOW` in ticks (10_state.md R33). -/
  now : Nat
  /-- The trace, oldest event first (00_scope.md R14). -/
  trace : List Event
  /-- The MODEL's own: the host's requests, the next one first (log 1). -/
  host : List HostItem
  /-- The MODEL's own: who answers transfers (log 23). -/
  responder : Responder
  /-- The MODEL's own: draws for transfers (log 3). -/
  busScript : Script BusReply
  /-- The MODEL's own: draws for waits (log 3). -/
  waitScript : Script WaitReply
  /-- The MODEL's own: draws for the outside world's moves (log 3). -/
  worldScript : Script WorldMove
  /-- The MODEL's own: draws for handle operations (log 3). -/
  handleScript : Script HandleReply
  /-- The MODEL's own: draws for the caches after a failed reset (log 3, log 12). -/
  junkScript : Script CacheBytes
deriving DecidableEq, Repr

/-- Why the machine stops with a fault. Both are raised only in states that no run reaches (log 21); safe. -/
inductive Fault
  /-- Raised by the step where PHASE is not IDLE and no command is latched (10_state.md R25 rules it out). Safe. -/
  | noCommandInProgress
  /-- Raised by PULSE_PIN, PRESS and PRESS_SEQ at a position they never pass: GAP in a single pulse, an index past
  the last coordinate (42_pulse_engine.md R161, 44_matrix_session.md R183 rule it out). Safe. -/
  | noSuchPosition
deriving DecidableEq, Repr

/-- Why a step has no meaning. -/
inductive Refusal
  /-- Raised by an arm of exec whose instruction has no meaning yet. Safe. -/
  | notModelled (mnemonic : String)
  /-- Raised by the step when a frame request's bits 23:20 are not 0100: it is no frame of this block
  (30_encoding.md R94; log 20). Safe. -/
  | notAFrame
  /-- Raised by the step when another request stands where the remaining words of a command should be
  (70_reset_and_hazards.md R241, 93_implementation_defined.md U22; log 20). Safe. -/
  | requestInsideCommand
deriving DecidableEq, Repr

/-- The state right after a successful reset (10_state.md R34, 70_reset_and_hazards.md R243) with the configuration
`Config.cfgT` (log 4) and the parameters `Config.paramsP0` (log 5). NOW, PINS: logs 13, 14. -/
def State.reset : State where
  out := ⟨Config.outInit, Config.outInit⟩
  dir := ⟨0x00#8, 0x00#8⟩
  life := .opened
  phase := .idle
  idx := 0
  cmd := none
  resp := ⟨.ok, 0#16⟩
  cfg := Config.cfgT
  params := Config.paramsP0
  handle := some ⟨0, 0, 100000⟩
  chip := []
  pins := ⟨0x00#8, 0x00#8⟩
  now := 0
  trace := [.opened 0 0 100000 0 0]
  host := []
  responder := .free
  busScript := ⟨[], 0⟩
  waitScript := ⟨[], 0⟩
  worldScript := ⟨[], 0⟩
  handleScript := ⟨[], 0⟩
  junkScript := ⟨[], 0⟩

/-- The state before any reset (10_state.md R24, R34; 92_eei_decisions.md D16): LIFE is CLOSED, no handle is held, PHASE
is IDLE and no command is latched. What the spec leaves unspecified there, the caches, RESP and CFG, is an argument
(log 31). -/
def State.beforeReset (caches : CacheBytes) (resp : Resp) (cfg : Cfg) : State :=
  { State.reset with
    out := caches.out
    dir := caches.dir
    life := .closed
    resp := resp
    cfg := cfg
    handle := none
    trace := [] }

end Sys2Proof.Machine
end

