-- ==== Sys2Proof/Machine/Operands.lean ====
section
/-! DEFINITION. Operand forms: ports, pins and their masks, register addresses, the frame of a register access, the
mapping table with its check and its lookup, ticks. -/

namespace Sys2Proof.Machine

/-- The byte of a port. -/
def perPort (x : PerPort) : Port → Byte
  | .A => x.a
  | .B => x.b

/-- Replace the byte of a port. -/
def withPort (x : PerPort) (p : Port) (v : Byte) : PerPort :=
  match p with
  | .A => { x with a := v }
  | .B => { x with b := v }

/-- The port a field names: 0 = A, 1 = B, 2 to 15 are not ports (30_encoding.md R87). -/
def portOf (field : BitVec 4) : Option Port :=
  if field = 0#4 then some .A else if field = 1#4 then some .B else none

/-- The mask of a pin, `1 << i` (30_encoding.md R84). -/
def pinMask (pin : BitVec 4) : Byte := 1#8 <<< pin.toNat

/-- A byte with one pin's bit set or cleared: `old | m`, `old & ~m` (41_pin_ops.md R131, R137). -/
def withPin (old : Byte) (pin : BitVec 4) (bit : Bool) : Byte :=
  if bit then old ||| pinMask pin else old &&& ~~~(pinMask pin)

/-- The bit of a pin (30_encoding.md R84). -/
def pinBit (v : Byte) (pin : BitVec 4) : Bool := v.getLsbD pin.toNat

/-- The direction bit of a pin: `DIR_OUT_BIT` for output, its complement for input (41_pin_ops.md R135, 10_state.md
R23). -/
def directionBit (params : Params) (isOutput : Bool) : Bool :=
  if isOutput then params.dirOutBit else !params.dirOutBit

/-- All eight bits equal to `DIR_OUT_BIT` (10_state.md R34). -/
def allOutputs (params : Params) : Byte := if params.dirOutBit then 0xFF#8 else 0x00#8

/-- `ADDR(kind, port)`, the RegisterMap (20_memory.md R54). -/
def regAddr (params : Params) : RegKind → Port → Byte
  | .dir, p => perPort params.addrDir p
  | .pu, p => perPort params.addrPu p
  | .out, p => perPort params.addrOut p
  | .inp, p => perPort params.addrIn p

/-- The eight register addresses of the RegisterMap (20_memory.md R54). -/
def regAddrs (params : Params) : List Byte :=
  [regAddr params .dir .A, regAddr params .dir .B, regAddr params .pu .A, regAddr params .pu .B,
   regAddr params .out .A, regAddr params .out .B, regAddr params .inp .A, regAddr params .inp .B]

/-- `opcode = 0x40 | (HW_ADDR << 1) | R` (30_encoding.md R82). -/
def opcode (hwAddr : BitVec 3) (r : Bool) : Byte :=
  0x40#8 ||| (hwAddr.setWidth 8 <<< 1) ||| (BitVec.ofBool r).setWidth 8

/-- `Frame(rw, reg, data)` (40_bus_transaction.md R111); `r` is true for a read. -/
def busFrame (cfg : Cfg) (r : Bool) (reg data : Byte) : Frame := ⟨opcode cfg.hwAddr r, reg, data⟩

/-- The target of a coordinate in the table, where the table has one (10_state.md R28). -/
def mapEntry (cfg : Cfg) (row col : Nat) : Option (BitVec 4 × BitVec 4) :=
  (cfg.map.find? fun e => decide (e.row = row) && decide (e.col = col)).map fun e => (e.port, e.pin)

/-- `resolve(row, col)`: the bounds test, then the lookup (43_matrix_map.md R170). A coordinate in range without an
entry cannot occur in a table that reset accepted; it is a malformed table, a ValidationError (60_exceptions.md R200;
DESIGN CHOICE, log 11, safe). -/
def resolveCoord (cfg : Cfg) (row col : BitVec 8) : Except Status (BitVec 4 × BitVec 4) :=
  if cfg.numRows ≤ row.toNat ∨ cfg.numCols ≤ col.toNat then .error .validationError
  else match mapEntry cfg row.toNat col.toNat with
    | some target => .ok target
    | none => .error .validationError

/-- The result value of RESOLVE, `(port << 8) | pin` (43_matrix_map.md R170). -/
def targetValue (port pin : BitVec 4) : Half := (port.setWidth 16 <<< 8) ||| pin.setWidth 16

/-- Totality: exactly one entry for every coordinate within the dimensions, and no entry outside them
(70_reset_and_hazards.md R242 (a)). -/
def tableTotal (cfg : Cfg) : Bool :=
  ((List.range cfg.numRows).all fun r => (List.range cfg.numCols).all fun c =>
      (cfg.map.countP fun e => decide (e.row = r) && decide (e.col = c)) == 1)
    && cfg.map.all fun e => decide (e.row < cfg.numRows) && decide (e.col < cfg.numCols)

/-- Validity: every entry's port is A or B and its pin is 0 to 7 (70_reset_and_hazards.md R242 (b)). -/
def tableValid (cfg : Cfg) : Bool :=
  cfg.map.all fun e => (portOf e.port).isSome && decide (e.pin.toNat ≤ 7)

/-- Injectivity: no two entries have the same port and pin (70_reset_and_hazards.md R242 (c)). -/
def tableInjective (cfg : Cfg) : Bool := decide ((cfg.map.map fun e => (e.port, e.pin)).Nodup)

/-- The table check of reset (70_reset_and_hazards.md R242). -/
def tableOk (cfg : Cfg) : Bool := tableTotal cfg && tableValid cfg && tableInjective cfg

/-- The host's conversion of `num / den` seconds to ticks, rounded up (30_encoding.md R88). -/
def ticksOfSeconds (params : Params) (num den : Nat) : Nat :=
  (num * params.tickDen + den * params.tickNum - 1) / (den * params.tickNum)

end Sys2Proof.Machine
end

