-- ==== Sys2Proof/Machine/Flags.lean ====
section
/-! DEFINITION. The tests a command makes before it acts (the closed flag LIFE, the operand ranges), and the response
word with its status numbers. The block has no other flag (10_state.md R24). -/

namespace Sys2Proof.Machine

/-- `pin > 7`, where the command has a pin (41_pin_ops.md R130). -/
def pinOutOfRange : Option (BitVec 4) → Bool
  | some pin => decide (7 < pin.toNat)
  | none => false

/-- `value > 255`, where the command has a value (41_pin_ops.md R130). -/
def valueOutOfRange : Option Half → Bool
  | some v => decide (255 < v.toNat)
  | none => false

/-- `Guard(port, pin?, value?)` (41_pin_ops.md R130): the closed test first, then the operand tests; answers the port
the command acts on. -/
def cmdGuard (s : State) (port : BitVec 4) (pin : Option (BitVec 4)) (value : Option Half) : Except Status Port :=
  if s.life = .closed then .error .sessionClosedError
  else match portOf port with
    | none => .error .validationError
    | some p => if pinOutOfRange pin || valueOutOfRange value then .error .validationError else .ok p

/-- The status numbers (30_encoding.md R92). -/
def statusCode : Status → BitVec 4
  | .ok => 0#4
  | .validationError => 1#4
  | .busError => 2#4
  | .sessionClosedError => 3#4
  | .fatalError => 4#4
  | .aborted => 5#4

/-- The `RESP` word: status in bits 31:28, zero, value in bits 15:0 (30_encoding.md R92). -/
def respWord (r : Resp) : Word := (statusCode r.status ++ 0#12) ++ r.value

/-- A count of completed presses as a response value (30_encoding.md R92). -/
def countValue (k : Nat) : Half := BitVec.ofNat 16 k

end Sys2Proof.Machine
end

