-- ==== Sys2Proof/Machine/Ops.lean ====
section
/-! DEFINITION. The operations every meaning is built from: the chip's registers, draws, the bus primitive and the two
register accesses, the wait, ending a command and raising an error, the handle, reset, and the outside world. -/

namespace Sys2Proof.Machine

/-! ## The chip's registers (10_state.md R31) -/

/-- What a register holds; an address that is not listed holds its value at power-on (log 6). -/
def Memory.read (m : Memory) (a : Nat) : Byte :=
  match m with
  | [] => Config.chipPowerOn a
  | (b, v) :: rest => if a = b then v else Memory.read rest a

/-- An entry for a register, in address order. -/
def Memory.put (m : Memory) (a : Nat) (v : Byte) : Memory :=
  match m with
  | [] => [(a, v)]
  | (b, w) :: rest =>
    if a < b then (a, v) :: (b, w) :: rest
    else if a = b then (a, v) :: rest
    else (b, w) :: Memory.put rest a v

/-- No entry for a register. -/
def Memory.unlist (m : Memory) (a : Nat) : Memory := m.filter fun c => decide (c.1 ≠ a)

/-- A register takes a value; its value at power-on is held by listing nothing. -/
def Memory.write (m : Memory) (a : Nat) (v : Byte) : Memory :=
  if v = Config.chipPowerOn a then m.unlist a else m.put a v

/-- The canonical form: addresses strictly rising, all of them one byte wide, no entry equal to what an unlisted
address reads as. -/
def Memory.wf (m : Memory) : Bool :=
  decide (m.Pairwise fun c d => c.1 < d.1) && m.all fun c => decide (c.1 < 256) && decide (c.2 ≠ Config.chipPowerOn c.1)

/-! ## Draws (log 3) -/

/-- The next draw: the next fixed answer, past their end a free value. -/
def Script.head {α : Type} (free : Nat → α) (sc : Script α) : α :=
  match sc.answers with
  | a :: _ => a
  | [] => free sc.used

/-- The draw is taken. -/
def Script.rest {α : Type} (sc : Script α) : Script α := ⟨sc.answers.tail, sc.used + 1⟩

/-! ## The end of a command and errors -/

/-- The end of a command: `RESP` is written, the position goes to IDLE, no command is latched (10_state.md R25, R26;
30_encoding.md R85); one RESP event (00_scope.md R14). -/
def endCommand (status : Status) (value : Half) (s : State) : State :=
  { s with
    phase := .idle
    cmd := none
    resp := ⟨status, value⟩
    trace := s.trace ++ [.resp status value s.now s.now] }

/-- Taking an error: `raise E` (60_exceptions.md R205). The command ends with kind `e`; `value` is 0 but for a press
sequence, where it is the number of completed presses. Nothing is saved, restored or undone; there is no return
(R207). -/
def raiseError (e : Status) (value : Half) (s : State) : State := endCommand e value s

/-- The result of an operation that may raise an error: a result with the state it leaves, or the error kind with the
state it leaves (60_exceptions.md R210). -/
inductive Done (α : Type)
  | ok (a : α) (s : State)
  | err (e : Status) (s : State)

/-- The command ends with the operation's result, or with its error. -/
def conclude : Done Half → State
  | .ok v s => endCommand .ok v s
  | .err e s => raiseError e 0#16 s

/-- The command goes on after a step, or ends with the step's error and the value `k`. -/
def orRaise (k : Half) (go : State → State) {α : Type} : Done α → State
  | .ok _ s => go s
  | .err e s => raiseError e k s

/-! ## The bus primitive (40_bus_transaction.md R110) -/

/-- The three response bytes, or none on a failure; the block cannot tell a silent failure from success (R115). -/
def answerBytes : BusAnswer → Option Frame
  | .ok rx => some rx
  | .silent rx => some rx
  | .fail _ => none

/-- Whether the chip took a write: it did on success, it did not on a silent failure (R115), and on a failure it is
the draw of 10_state.md R31. -/
def answerTaken : BusAnswer → Bool
  | .ok _ => true
  | .silent _ => false
  | .fail landed => landed

/-- A frame of this chip: bits 7:4 of the opcode are 0100 and bits 3:1 are its hardware address (20_memory.md R66,
R69). -/
def addressed (cfg : Cfg) (tx : Frame) : Bool :=
  decide (tx.b0.extractLsb' 4 4 = 0b0100#4) && decide (tx.b0.extractLsb' 1 3 = cfg.hwAddr)

/-- The chip's registers after a transfer: a write of this chip that was taken changes the one register it names
(10_state.md R31, 20_memory.md R58). -/
def chipAfter (cfg : Cfg) (tx : Frame) (answer : BusAnswer) (chip : Memory) : Memory :=
  if addressed cfg tx && !tx.b0.getLsbD 0 && answerTaken answer then chip.write tx.b1.toNat tx.b2 else chip

/-- The byte IdealChip reads at a register: the pins of the port whose IN register it is, else the register
(20_memory.md R66). -/
def idealRead (s : State) (reg : Byte) : Byte :=
  if reg = regAddr s.params .inp .A then s.pins.a
  else if reg = regAddr s.params .inp .B then s.pins.b
  else s.chip.read reg.toNat

/-- The answer of IdealChip to a frame of this chip; it never fails (20_memory.md R66). -/
def idealAnswer (s : State) (tx : Frame) : BusAnswer :=
  if tx.b0.getLsbD 0 then .ok ⟨0x00#8, 0x00#8, idealRead s tx.b1⟩
  else .ok ⟨0x00#8, 0x00#8, 0x00#8⟩

/-- The answer to a transfer: a draw of the environment (R110), or IdealChip's where it is the responder (log 23). -/
def busAnswer (s : State) (tx : Frame) : BusAnswer :=
  match s.responder with
  | .free => (s.busScript.head Config.freeBus).answer
  | .ideal =>
    if addressed s.cfg tx then idealAnswer s tx
    else (s.busScript.head Config.freeBus).answer

/-- The time of a transfer, a draw (R110). -/
def busTime (s : State) : Nat := (s.busScript.head Config.freeBus).time

/-- The state after a transfer, whatever its outcome: one XFER event (R110), the time that passed, the chip. -/
def afterXfer (s : State) (tx : Frame) : State :=
  { s with
    chip := chipAfter s.cfg tx (busAnswer s tx) s.chip
    now := s.now + busTime s
    trace := s.trace ++ [.xfer tx (answerBytes (busAnswer s tx)) s.now (s.now + busTime s)]
    busScript := s.busScript.rest }

/-- `BusXfer(tx)` with its failure raised as BusError (R110, R112, R113); the result is response byte 2. -/
def busXfer (tx : Frame) (s : State) : Done Byte :=
  match answerBytes (busAnswer s tx) with
  | some rx => .ok rx.b2 (afterXfer s tx)
  | none => .err .busError (afterXfer s tx)

/-- REG_WRITE of a register address (40_bus_transaction.md R112): one frame; the response bytes are ignored. -/
def writeReg (reg v : Byte) (s : State) : Done Half :=
  match busXfer (busFrame s.cfg false reg v) s with
  | .ok _ s' => .ok 0#16 s'
  | .err e s' => .err e s'

/-- REG_READ of a register address (40_bus_transaction.md R113): one frame with the fill byte; the result is the third
response byte. -/
def readReg (reg : Byte) (s : State) : Done Half :=
  match busXfer (busFrame s.cfg true reg s.params.readFill) s with
  | .ok v s' => .ok (v.setWidth 16) s'
  | .err e s' => .err e s'

/-- `MemWrite(ADDR(OUT, port), 1, v)`, then the output cache, on success only (41_pin_ops.md R131, R133, R138). -/
def writeOut (p : Port) (v : Byte) (s : State) : Done Half :=
  match writeReg (regAddr s.params .out p) v s with
  | .ok r s' => .ok r { s' with out := withPort s'.out p v }
  | .err e s' => .err e s'

/-- `MemWrite(ADDR(DIR, port), 1, v)`, then the direction cache, on success only (41_pin_ops.md R135, R138). -/
def writeDir (p : Port) (v : Byte) (s : State) : Done Half :=
  match writeReg (regAddr s.params .dir p) v s with
  | .ok r s' => .ok r { s' with dir := withPort s'.dir p v }
  | .err e s' => .err e s'

/-- The operation of `set_pin(port, pin, level)` with its guard (41_pin_ops.md R131); every pin change of the block
is this one. -/
def setPinOp (port pin : BitVec 4) (level : Bool) (s : State) : Done Half :=
  match cmdGuard s port (some pin) none with
  | .error e => .err e s
  | .ok p => writeOut p (withPin (perPort s.out p) pin level) s

/-! ## Multi-step commands -/

/-- A command that takes more than one step is accepted (30_encoding.md R85): it is latched and its ASSERT step is
next (10_state.md R25; DEDUCED, log 2, safe). -/
def beginCommand (i : Instr) (s : State) : State := { s with cmd := some i, phase := .assert }

/-- `Wait(d)` (60_exceptions.md R220), or its end by ABORT (R212). The wait ends at `NOW + d` plus a draw and the
command goes on with `go`; if ABORT arrives and may be delivered, the wait is cut short after a drawn time and the
command ends with `Aborted` and the value `k` (log 15). -/
def waitThen (d : Word) (k : Half) (go : State → State) (s : State) : State :=
  if s.params.allowAbort && (s.waitScript.head Config.freeWait).abort then
    raiseError .aborted k
      { s with
        now := s.now + (s.waitScript.head Config.freeWait).cut
        waitScript := s.waitScript.rest }
  else
    go
      { s with
        now := s.now + d.toNat + (s.waitScript.head Config.freeWait).slack
        trace := s.trace ++ [.wait d s.now (s.now + d.toNat + (s.waitScript.head Config.freeWait).slack)]
        waitScript := s.waitScript.rest }

/-- The ASSERT step of a pulse (42_pulse_engine.md R160, R161): set the pin to the active level; HOLD is next. -/
def pulseAssert (port pin : BitVec 4) (active : Bool) (k : Half) (s : State) : State :=
  orRaise k (fun s' => { s' with phase := .hold }) (setPinOp port pin active s)

/-- The HOLD step of a pulse (R160, R161): wait for the duration; RELEASE is next. -/
def pulseHold (duration : Word) (k : Half) (s : State) : State :=
  waitThen duration k (fun s' => { s' with phase := .release }) s

/-- The RELEASE step of a pulse (R160, R161): set the pin to the inactive level; then what the command does next. -/
def pulseRelease (port pin : BitVec 4) (active : Bool) (k : Half) (go : State → State) (s : State) : State :=
  orRaise k go (setPinOp port pin (!active) s)

/-- The ASSERT step of a press (44_matrix_session.md R180): the closed test, the lookup, the pulse's ASSERT step with
the level high. -/
def pressAssert (row col : BitVec 8) (k : Half) (s : State) : State :=
  if s.life = .closed then raiseError .sessionClosedError k s
  else match resolveCoord s.cfg row col with
    | .error e => raiseError e k s
    | .ok (port, pin) => pulseAssert port pin true k s

/-- The RELEASE step of a press (R180): the pulse's RELEASE step on the pin the coordinate names. MAP is constant
during the command, so the lookup gives the pin that was asserted (10_state.md R27; DEDUCED, log 25, safe). -/
def pressRelease (row col : BitVec 8) (k : Half) (go : State → State) (s : State) : State :=
  match resolveCoord s.cfg row col with
  | .error e => raiseError e k s
  | .ok (port, pin) => pulseRelease port pin true k go s

/-! ## The outside world (60_exceptions.md R225) -/

/-- What a list of changes from outside leaves of the chip's registers; an external reset of the chip brings them to
their values at power-on (log 6). -/
def chipAfterActs (acts : List WorldAct) (chip : Memory) : Memory :=
  match acts with
  | [] => chip
  | .pins _ _ :: rest => chipAfterActs rest chip
  | .chipChange reg v :: rest => chipAfterActs rest (chip.write reg.toNat v)
  | .chipReset :: rest => chipAfterActs rest []

/-- What a list of changes leaves of the input pins. -/
def pinsAfterActs (acts : List WorldAct) (pins : PerPort) : PerPort :=
  match acts with
  | [] => pins
  | .pins p v :: rest => pinsAfterActs rest (withPort pins p v)
  | .chipChange _ _ :: rest => pinsAfterActs rest pins
  | .chipReset :: rest => pinsAfterActs rest pins

/-- The outside world's move before a micro-step (00_scope.md R18; log 24): time passes, pins and chip registers may
change; nothing of the block does. -/
def worldMove (s : State) : State :=
  { s with
    now := s.now + (s.worldScript.head Config.freeWorld).elapse
    chip := chipAfterActs (s.worldScript.head Config.freeWorld).acts s.chip
    pins := pinsAfterActs (s.worldScript.head Config.freeWorld).acts s.pins
    worldScript := s.worldScript.rest }

/-! ## The handle and reset -/

/-- `CloseHandle()` (60_exceptions.md R224; 44_matrix_session.md R186): the handle is released, one CLOSE event, LIFE
is CLOSED; it cannot fail. -/
def closeHandle (s : State) : State :=
  { s with
    life := .closed
    handle := none
    now := s.now + (s.handleScript.head Config.freeHandle).time
    trace := s.trace ++ [.closed s.now (s.now + (s.handleScript.head Config.freeHandle).time)]
    handleScript := s.handleScript.rest }

/-- Close the handle if it is held: the operation of CLEANUP (44_matrix_session.md R186) and the first thing a reset
does (70_reset_and_hazards.md R241). -/
def closeIfOpen (s : State) : State :=
  match s.life with
  | .opened => closeHandle s
  | .closed => s

/-- A reset ends with an error (70_reset_and_hazards.md R240, R243; 10_state.md R34): LIFE is CLOSED, the position is
IDLE, RESP holds the error, the caches are unspecified, a free value (log 12). -/
def failReset (e : Status) (s : State) : State :=
  { s with
    life := .closed
    phase := .idle
    cmd := none
    resp := ⟨e, 0#16⟩
    out := (s.junkScript.head Config.freeCaches).out
    dir := (s.junkScript.head Config.freeCaches).dir
    junkScript := s.junkScript.rest }

/-- Step 2 of reset when the handle opens: one OPEN event (70_reset_and_hazards.md R240, R243). -/
def openHandle (cfg : Cfg) (s : State) : State :=
  { s with
    cfg := cfg
    handle := some ⟨cfg.busIndex, cfg.devIndex, cfg.clockHz⟩
    now := s.now + (s.handleScript.head Config.freeHandle).time
    trace := s.trace ++ [.opened cfg.busIndex cfg.devIndex cfg.clockHz s.now
      (s.now + (s.handleScript.head Config.freeHandle).time)]
    handleScript := s.handleScript.rest }

/-- Step 2 of reset when opening fails: no event (60_exceptions.md R224). -/
def openFailed (cfg : Cfg) (s : State) : State :=
  { s with
    cfg := cfg
    now := s.now + (s.handleScript.head Config.freeHandle).time
    handleScript := s.handleScript.rest }

/-- Step 3 of reset (70_reset_and_hazards.md R240). -/
def initState (s : State) : State :=
  { s with
    out := ⟨Config.outInit, Config.outInit⟩
    dir := ⟨allOutputs s.params, allOutputs s.params⟩
    life := .opened
    phase := .idle
    idx := 0
    cmd := none }

/-- Step 4 of reset: the register writes of `INIT_FRAMES` in order, up to the first failure (70_reset_and_hazards.md
R240). The outside world moves before each of them (60_exceptions.md R225; DESIGN CHOICE, log 30, safe). -/
def sendInitFrames : List InitFrame → State → Done Half
  | [], s => .ok 0#16 s
  | f :: rest, s =>
    match writeReg (regAddr s.params f.kind f.port) f.value (worldMove s) with
    | .ok _ s' => sendInitFrames rest s'
    | .err e s' => .err e s'

/-- Steps 4 and 5 of reset: on a failed write the handle is closed again, after a move of the outside world
(70_reset_and_hazards.md R240; log 30). -/
def finishReset (s : State) : State :=
  match sendInitFrames s.params.initFrames s with
  | .ok _ s' => { s' with resp := ⟨.ok, 0#16⟩ }
  | .err e s' => failReset e (closeHandle (worldMove s'))

/-- Steps 1 to 5 of reset, no handle being held (70_reset_and_hazards.md R240). A table that is refused leaves CFG as
it was (DESIGN CHOICE, log 12, unsafe). The outside world moves before the handle is opened (log 30). -/
def construct (cfg : Cfg) (s : State) : State :=
  if tableOk cfg then
    if (s.handleScript.head Config.freeHandle).ok then finishReset (initState (openHandle cfg (worldMove s)))
    else failReset .busError (openFailed cfg (worldMove s))
  else failReset .validationError s

/-- Reset with a configuration (70_reset_and_hazards.md R240, R241). The spec does not divide a reset into micro-steps:
the model performs all of it in one, and the outside world moves before each of its handle operations and transfers
but the first, before which the step's own move stands (DESIGN CHOICE, log 30, safe). -/
def performReset (cfg : Cfg) (s : State) : State := construct cfg (closeIfOpen s)

end Sys2Proof.Machine
end

