-- ==== Sys2Proof/Machine/BusTransaction.lean ====
section
/-! DEFINITION. The two bus frames as instructions of their own (00_scope.md R6, 40_bus_transaction.md R112, R113).
The outcome is reported in RESP like that of a command (DESIGN CHOICE, log 7, safe). -/

namespace Sys2Proof.Machine

/-- A register access requested as a frame: the closed test (60_exceptions.md R200; DEDUCED, log 10, safe), then the
RegisterMap (an address outside it is the FatalError of 20_memory.md R56; DEDUCED, log 9, safe), then the access. -/
def frameOp (reg : Byte) (access : State → Done Half) (s : State) : Done Half :=
  if s.life = .closed then .err .sessionClosedError s
  else if reg ∈ regAddrs s.params then access s
  else .err .fatalError s

/-- `REG_WRITE` (40_bus_transaction.md R112). The hardware address of the frame sent is CFG's, in every frame (R111),
so the requested one is no operand (DEDUCED, log 8, safe). -/
def execRegWrite (_hwAddr : BitVec 3) (reg data : Byte) (s : State) : Host.Outcome State Fault Refusal :=
  .next (conclude (frameOp reg (writeReg reg data) s))

/-- `REG_READ` (40_bus_transaction.md R113). The hardware address is CFG's (R111) and byte 2 sent is READ_FILL, so the
requested ones are no operands (DEDUCED, log 8, safe). -/
def execRegRead (_hwAddr : BitVec 3) (reg _data : Byte) (s : State) : Host.Outcome State Fault Refusal :=
  .next (conclude (frameOp reg (readReg reg) s))

end Sys2Proof.Machine
end

