-- ==== Sys2Proof/Machine/MatrixMap.lean ====
section
/-! DEFINITION. The row-column to port-pin decoder (43_matrix_map.md); the table's check and lookup are in
Operands.lean. -/

namespace Sys2Proof.Machine

/-- The operation of `resolve` (43_matrix_map.md R170): no frame, no test of LIFE. -/
def resolveOp (row col : BitVec 8) (s : State) : Done Half :=
  match resolveCoord s.cfg row col with
  | .error e => .err e s
  | .ok (port, pin) => .ok (targetValue port pin) s

/-- `RESOLVE` (R170). -/
def execResolve (row col : BitVec 8) (s : State) : Host.Outcome State Fault Refusal :=
  .next (conclude (resolveOp row col s))

end Sys2Proof.Machine
end

