-- ==== Sys2Proof/Machine/MatrixSession.lean ====
section
/-! DEFINITION. Presses, press sequences and cleanup (44_matrix_session.md). -/

namespace Sys2Proof.Machine

/-- `PRESS` (44_matrix_session.md R180): the pulse of the coordinate's pin, level high. -/
def execPress (row col : BitVec 8) (duration : Word) (s : State) : Host.Outcome State Fault Refusal :=
  match s.phase with
  | .idle => .next (beginCommand (.press row col duration) s)
  | .assert => .next (pressAssert row col 0#16 s)
  | .hold => .next (pulseHold duration 0#16 s)
  | .release => .next (pressRelease row col 0#16 (endCommand .ok 0#16) s)
  | .gap => .fault .noSuchPosition

/-- What a sequence of `n` coordinates does after a successful press (R182, R183): the interval wait before the next
coordinate, or the end with the count of presses. -/
def afterPress (n : Nat) (s : State) : State :=
  if s.idx + 1 < n then { s with phase := .gap } else endCommand .ok (countValue (s.idx + 1)) s

/-- The ASSERT step of the next coordinate (R183). -/
def nextCoord (s : State) : State := { s with idx := s.idx + 1, phase := .assert }

/-- `PRESS_SEQ` (R182 to R184). At position `(IDX, ASSERT)`, `(IDX, HOLD)` and `(IDX, RELEASE)` IDX presses are
complete, at `(IDX, GAP)` one more. An empty sequence ends at once and tests nothing. -/
def execPressSeq (coords : List Coord) (duration interval : Word) (s : State) : Host.Outcome State Fault Refusal :=
  match s.phase with
  | .idle =>
    if coords.isEmpty then .next (endCommand .ok (countValue 0) { s with idx := 0 })
    else .next (beginCommand (.pressSeq coords duration interval) { s with idx := 0 })
  | .assert =>
    match coords[s.idx]? with
    | some c => .next (pressAssert c.row c.col (countValue s.idx) s)
    | none => .fault .noSuchPosition
  | .hold => .next (pulseHold duration (countValue s.idx) s)
  | .release =>
    match coords[s.idx]? with
    | some c => .next (pressRelease c.row c.col (countValue s.idx) (afterPress coords.length) s)
    | none => .fault .noSuchPosition
  | .gap => .next (waitThen interval (countValue (s.idx + 1)) nextCoord s)

/-- `CLEANUP` (R186): idempotent, no frame, no error. -/
def execCleanup (s : State) : Host.Outcome State Fault Refusal :=
  .next (endCommand .ok 0#16 (closeIfOpen s))

end Sys2Proof.Machine
end

