-- ==== Sys2Proof/Machine/PinOps.lean ====
section
/-! DEFINITION. The port cache and bit-mutation unit (41_pin_ops.md). -/

namespace Sys2Proof.Machine

/-- `SET_PIN` (41_pin_ops.md R131). -/
def execSetPin (port pin : BitVec 4) (level : Bool) (s : State) : Host.Outcome State Fault Refusal :=
  .next (conclude (setPinOp port pin level s))

/-- The operation of `toggle_pin` (R132): the level is the complement of the cached bit, and is the result. -/
def togglePinOp (port pin : BitVec 4) (s : State) : Done Half :=
  match cmdGuard s port (some pin) none with
  | .error e => .err e s
  | .ok p =>
    match setPinOp port pin (!pinBit (perPort s.out p) pin) s with
    | .ok _ s' => .ok ((BitVec.ofBool (!pinBit (perPort s.out p) pin)).setWidth 16) s'
    | .err e s' => .err e s'

/-- `TOGGLE_PIN` (R132). -/
def execTogglePin (port pin : BitVec 4) (s : State) : Host.Outcome State Fault Refusal :=
  .next (conclude (togglePinOp port pin s))

/-- The operation of `set_port` (R133): the old cache value is not read. -/
def setPortOp (port : BitVec 4) (value : Half) (s : State) : Done Half :=
  match cmdGuard s port none (some value) with
  | .error e => .err e s
  | .ok p => writeOut p (value.setWidth 8) s

/-- `SET_PORT` (R133). -/
def execSetPort (port : BitVec 4) (value : Half) (s : State) : Host.Outcome State Fault Refusal :=
  .next (conclude (setPortOp port value s))

/-- The operation of `get_port_state` (R134): the cached byte, no frame. -/
def getPortStateOp (port : BitVec 4) (s : State) : Done Half :=
  match cmdGuard s port none none with
  | .error e => .err e s
  | .ok p => .ok ((perPort s.out p).setWidth 16) s

/-- `GET_PORT_STATE` (R134). -/
def execGetPortState (port : BitVec 4) (s : State) : Host.Outcome State Fault Refusal :=
  .next (conclude (getPortStateOp port s))

/-- The operation of `configure_pin_mode` (R135): read-modify-write of the direction cache. -/
def configurePinModeOp (port pin : BitVec 4) (isOutput : Bool) (s : State) : Done Half :=
  match cmdGuard s port (some pin) none with
  | .error e => .err e s
  | .ok p => writeDir p (withPin (perPort s.dir p) pin (directionBit s.params isOutput)) s

/-- `CONFIGURE_PIN_MODE` (R135). -/
def execConfigurePinMode (port pin : BitVec 4) (isOutput : Bool) (s : State) : Host.Outcome State Fault Refusal :=
  .next (conclude (configurePinModeOp port pin isOutput s))

/-- The operation of `read_port_input` (R136): one read of the IN register; neither cache is touched. -/
def readPortInputOp (port : BitVec 4) (s : State) : Done Half :=
  match cmdGuard s port none none with
  | .error e => .err e s
  | .ok p => readReg (regAddr s.params .inp p) s

/-- `READ_PORT_INPUT` (R136). -/
def execReadPortInput (port : BitVec 4) (s : State) : Host.Outcome State Fault Refusal :=
  .next (conclude (readPortInputOp port s))

end Sys2Proof.Machine
end

