-- ==== Sys2Proof/Machine/PulseEngine.lean ====
section
/-! DEFINITION. The timed single-pin pulse generator (42_pulse_engine.md). A meaning of a command that takes several
steps is the micro-step at the command's position (10_state.md R25). -/

namespace Sys2Proof.Machine

/-- `PULSE_PIN` (42_pulse_engine.md R160 to R162): accepted, ASSERT, HOLD, RELEASE, done. GAP is no position of a
single pulse (log 21). -/
def execPulsePin (port pin : BitVec 4) (active : Bool) (duration : Word) (s : State) :
    Host.Outcome State Fault Refusal :=
  match s.phase with
  | .idle => .next (beginCommand (.pulsePin port pin active duration) s)
  | .assert => .next (pulseAssert port pin active 0#16 s)
  | .hold => .next (pulseHold duration 0#16 s)
  | .release => .next (pulseRelease port pin active 0#16 (endCommand .ok 0#16) s)
  | .gap => .fault .noSuchPosition

end Sys2Proof.Machine
end

