-- ==== Sys2Proof/Machine/Reserved.lean ====
section
/-! DEFINITION. The reserved command codes (30_encoding.md R93, 60_exceptions.md R204): the command ends at once with
FatalError, no frame, no other change, LIFE not tested. The spec allows a refusal instead; the model runs them (log
18). -/

namespace Sys2Proof.Machine

/-- The command of a reserved code (R93). -/
def reservedCode (s : State) : State := raiseError .fatalError 0#16 s

/-- `RESERVED_0` (R93). -/
def execReserved0 (s : State) : Host.Outcome State Fault Refusal := .next (reservedCode s)

/-- `RESERVED_C` (R93). -/
def execReservedC (s : State) : Host.Outcome State Fault Refusal := .next (reservedCode s)

/-- `RESERVED_D` (R93). -/
def execReservedD (s : State) : Host.Outcome State Fault Refusal := .next (reservedCode s)

/-- `RESERVED_E` (R93). -/
def execReservedE (s : State) : Host.Outcome State Fault Refusal := .next (reservedCode s)

/-- `RESERVED_F` (R93). -/
def execReservedF (s : State) : Host.Outcome State Fault Refusal := .next (reservedCode s)

end Sys2Proof.Machine
end

