-- ==== Sys2Proof/Machine/Dispatch.lean ====
section
/-! DEFINITION. One arm for each instruction: its micro-step at the sequencer's position. -/

namespace Sys2Proof.Machine

/-- The meaning of an instruction in a state (00_scope.md R6, R18). -/
def exec (i : Instr) (s : State) : Host.Outcome State Fault Refusal :=
  match i with
  | .regWrite hwAddr reg data => Sys2Proof.Machine.execRegWrite hwAddr reg data s
  | .regRead hwAddr reg data => Sys2Proof.Machine.execRegRead hwAddr reg data s
  | .setPin port pin level => Sys2Proof.Machine.execSetPin port pin level s
  | .togglePin port pin => Sys2Proof.Machine.execTogglePin port pin s
  | .setPort port value => Sys2Proof.Machine.execSetPort port value s
  | .getPortState port => Sys2Proof.Machine.execGetPortState port s
  | .configurePinMode port pin isOutput => Sys2Proof.Machine.execConfigurePinMode port pin isOutput s
  | .readPortInput port => Sys2Proof.Machine.execReadPortInput port s
  | .pulsePin port pin active duration => Sys2Proof.Machine.execPulsePin port pin active duration s
  | .resolve row col => Sys2Proof.Machine.execResolve row col s
  | .press row col duration => Sys2Proof.Machine.execPress row col duration s
  | .pressSeq coords duration interval => Sys2Proof.Machine.execPressSeq coords duration interval s
  | .cleanup => Sys2Proof.Machine.execCleanup s
  | .reserved0 => Sys2Proof.Machine.execReserved0 s
  | .reservedC => Sys2Proof.Machine.execReservedC s
  | .reservedD => Sys2Proof.Machine.execReservedD s
  | .reservedE => Sys2Proof.Machine.execReservedE s
  | .reservedF => Sys2Proof.Machine.execReservedF s

end Sys2Proof.Machine
end

