-- ==== Sys2Proof/Machine/Fetch.lean ====
section
/-! DEFINITION. How the next request of the host is taken (30_encoding.md R85, R89; 70_reset_and_hazards.md R241). -/

namespace Sys2Proof.Machine

/-- What stands next at the idle block: nothing, the first words of a command whose other words are not there yet, a
reset, an instruction, or something the block has no meaning for; with the requests after it. -/
inductive Fetched
  | nothing
  | incomplete
  | reset (cfg : Cfg) (rest : List HostItem)
  | instr (i : Instr) (rest : List HostItem)
  | bad (r : Refusal)
deriving DecidableEq, Repr

/-- The command words at the front of the host's requests. -/
def leadingWords : List HostItem → List Word
  | .word w :: rest => w :: leadingWords rest
  | _ => []

/-- The next request. A command is taken with all its words (30_encoding.md R89); while some are missing the port
waits for them, and another request in their place has no meaning (log 20). -/
def fetch (host : List HostItem) : Fetched :=
  match host with
  | [] => .nothing
  | .reset cfg :: rest => .reset cfg rest
  | .frame f :: rest =>
    match decodeFrame f with
    | .ok i => .instr i rest
    | .error _ => .bad .notAFrame
  | .word w :: _ =>
    match decodeWords (leadingWords host) with
    | .ok (i, _) => .instr i (host.drop (cmdLength w))
    | .error _ => if (leadingWords host).length = host.length then .incomplete else .bad .requestInsideCommand

/-- The host's requests for an instruction. -/
def codeItems : Code → List HostItem
  | .frame f => [.frame f]
  | .words ws => ws.map .word

end Sys2Proof.Machine
end

