-- ==== Sys2Proof/Machine/Engine.lean ====
section
/-! DEFINITION. The engine's micro-step (00_scope.md R18): at IDLE it takes the host's next request (30_encoding.md
R85), else it goes on with the latched command (10_state.md R25). -/

namespace Sys2Proof.Machine

/-- The idle block takes the next request; with none to take it stays idle. -/
def stepIdle (s : State) : Host.Outcome State Fault Refusal :=
  match fetch s.host with
  | .nothing => .next s
  | .incomplete => .next s
  | .reset cfg rest => .next (performReset cfg { s with host := rest })
  | .instr i rest => exec i { s with host := rest }
  | .bad r => .refused r

/-- A command in progress goes on; where no command is latched there is none (log 21). -/
def stepCommand (s : State) : Host.Outcome State Fault Refusal :=
  match s.cmd with
  | some i => exec i s
  | none => .fault .noCommandInProgress

/-- The engine's micro-step. -/
def stepEngine (s : State) : Host.Outcome State Fault Refusal :=
  match s.phase with
  | .idle => stepIdle s
  | .assert => stepCommand s
  | .hold => stepCommand s
  | .release => stepCommand s
  | .gap => stepCommand s

/-- The state with an encoded instruction standing as the host's next request, at the idle position. -/
def placeCode (c : Code) (s : State) : State :=
  { s with
    phase := .idle
    cmd := none
    host := codeItems c ++ s.host }

end Sys2Proof.Machine
end

