-- ==== Sys2Proof/Safety.lean ====
section
/-! DEFINITION. What holds of every state a run from reset reaches, and what a safe run is, in the terms the claims
use. -/

namespace Sys2Proof

open Machine

/-- The command is one that is latched between two micro-steps: a pulse, a press, a sequence (10_state.md R25). -/
def multiStep : Instr → Bool
  | .pulsePin _ _ _ _ => true
  | .press _ _ _ => true
  | .pressSeq _ _ _ => true
  | _ => false

/-- PHASE and IDX are a position of the command (42_pulse_engine.md R161, 44_matrix_session.md R183). -/
def positionOk : Instr → Phase → Nat → Bool
  | .pulsePin _ _ _ _, phase, _ => phase != .idle && phase != .gap
  | .press _ _ _, phase, _ => phase != .idle && phase != .gap
  | .pressSeq coords _ _, phase, idx =>
    phase != .idle && decide (idx < coords.length) && (phase != .gap || decide (idx + 1 < coords.length))
  | _, _, _ => false

/-- The pin and the level a command in progress asserts, with the port and pin fields as the table or the command
gives them. -/
def pulseTarget (s : State) : Instr → Option (BitVec 4 × BitVec 4 × Bool)
  | .pulsePin port pin active _ => some (port, pin, active)
  | .press row col _ =>
    match resolveCoord s.cfg row col with
    | .ok (port, pin) => some (port, pin, true)
    | .error _ => none
  | .pressSeq coords _ _ =>
    match coords[s.idx]? with
    | some c =>
      match resolveCoord s.cfg c.row c.col with
      | .ok (port, pin) => some (port, pin, true)
      | .error _ => none
    | none => none
  | _ => none

/-- The command in progress has asserted its pin: its guard holds and the cached bit is the active level
(42_pulse_engine.md R161, R162). -/
def pinAsserted (s : State) (i : Instr) : Prop :=
  ∃ port pin active p, pulseTarget s i = some (port, pin, active) ∧ portOf port = some p ∧ pin.toNat ≤ 7 ∧
    pinBit (perPort s.out p) pin = active

/-- What every reachable state satisfies. -/
structure BlockInv (s : State) : Prop where
  /-- PHASE = IDLE exactly when no command is in progress (10_state.md R25). -/
  idle_iff : s.phase = .idle ↔ s.cmd = none
  /-- A command in progress is well formed and at one of its positions (R161, R183). -/
  position : ∀ i, s.cmd = some i → i.wf = true ∧ positionOk i s.phase s.idx = true
  /-- LIFE = OPEN if and only if the handle is held, and it is the one CFG names (10_state.md R32). -/
  handle : s.handle =
    match s.life with
    | .opened => some ⟨s.cfg.busIndex, s.cfg.devIndex, s.cfg.clockHz⟩
    | .closed => none
  /-- The table passed reset's check (43_matrix_map.md R171). -/
  table : tableOk s.cfg = true
  /-- The chip's registers are held in canonical form. -/
  chip : s.chip.wf = true
  /-- While a pulse holds or is about to release, the session is open and the pin is asserted in the cache
  (42_pulse_engine.md R161, R162). -/
  asserted : ∀ i, s.cmd = some i → s.phase = .hold ∨ s.phase = .release → s.life = .opened ∧ pinAsserted s i
  /-- Between two presses the session is open: nothing but CLEANUP and reset closes it (10_state.md R24). -/
  gapOpen : s.phase = .gap → s.life = .opened

/-- A safe run: `k` steps that all answer a next state. -/
def runsFor (k : Nat) (s : State) : Prop := ∃ t, core.run k s = .next t

/-! ## The terms the claims use, written out from the rules -/

/-- The outcome of a step of this machine. -/
abbrev Result := Host.Outcome State Fault Refusal

/-- The port identifiers: A = 0, B = 1 (30_encoding.md R87). -/
def portCode : Port → BitVec 4
  | .A => 0#4
  | .B => 1#4

/-- A command ended with a status and a value: the position is IDLE, no command is latched, RESP is written, one RESP
event ends the command (10_state.md R25, R26; 60_exceptions.md R205; 00_scope.md R14). Nothing else differs from `s`. -/
def ended (e : Status) (v : Half) (s : State) : State :=
  { s with phase := .idle, cmd := none, resp := ⟨e, v⟩, trace := s.trace ++ [.resp e v s.now s.now] }

/-- `u` is `s` after the one transfer `tx`, whatever its outcome (40_bus_transaction.md R110, R112, R113; 10_state.md
R31): one XFER event; time does not go back; no register but the one named changes, and a read changes none; a
successful write leaves the byte in the register, a failed one leaves the old or the new byte. Of the rest of the
state only the model's counter of draws moves. -/
structure transferred (tx : Frame) (s u : State) : Prop where
  rest : u = { s with
    chip := u.chip, now := u.now, busScript := u.busScript
    trace := s.trace ++ [.xfer tx (answerBytes (busAnswer s tx)) s.now u.now] }
  time : s.now ≤ u.now
  others : ∀ a, a ≠ tx.b1.toNat → u.chip.read a = s.chip.read a
  readsOnly : tx.b0.getLsbD 0 = true → u.chip = s.chip
  written : ∀ rx, tx.b0.getLsbD 0 = false → busAnswer s tx = .ok rx → u.chip.read tx.b1.toNat = tx.b2
  failed : tx.b0.getLsbD 0 = false → answerBytes (busAnswer s tx) = none →
    u.chip.read tx.b1.toNat = s.chip.read tx.b1.toNat ∨ u.chip.read tx.b1.toNat = tx.b2

/-- `o` is the outcome of one REG_WRITE of `v` to register `reg` (40_bus_transaction.md R112): the transfer, then
`good` where it succeeded, BusError with the value `k` where it failed. -/
def registerWrite (reg v : Byte) (k : Half) (good : State → State) (s : State) (o : Result) : Prop :=
  ∃ u, transferred ⟨opcode s.cfg.hwAddr false, reg, v⟩ s u ∧
    (∀ rx, answerBytes (busAnswer s ⟨opcode s.cfg.hwAddr false, reg, v⟩) = some rx → o = .next (good u)) ∧
    (answerBytes (busAnswer s ⟨opcode s.cfg.hwAddr false, reg, v⟩) = none → o = .next (ended .busError k u))

/-- `o` is the outcome of one REG_READ of register `reg` (40_bus_transaction.md R113): the result is the third
response byte. -/
def registerRead (reg : Byte) (s : State) (o : Result) : Prop :=
  ∃ u, transferred ⟨opcode s.cfg.hwAddr true, reg, s.params.readFill⟩ s u ∧
    (∀ rx, answerBytes (busAnswer s ⟨opcode s.cfg.hwAddr true, reg, s.params.readFill⟩) = some rx →
      o = .next (ended .ok (BitVec.ofNat 16 rx.b2.toNat) u)) ∧
    (answerBytes (busAnswer s ⟨opcode s.cfg.hwAddr true, reg, s.params.readFill⟩) = none →
      o = .next (ended .busError 0#16 u))

/-- A one-word command: the word with these fields, and zero in the bits no field names, decodes to `i` and leaves
the words behind it (30_encoding.md R86, R87, R97). -/
def encodedAs (op port pin lvl val : Nat) (i : Instr) : Prop :=
  ∀ (w : Word) (more : List Word),
    w.toNat = op * 2 ^ 28 + port * 2 ^ 24 + pin * 2 ^ 20 + lvl * 2 ^ 19 + val → decodeWords (w :: more) = .ok (i, more)

/-- A byte with the bit of a pin made `bit`: `old | m` or `old & ~m`, m = `1 << pin` (41_pin_ops.md R131). -/
def bitChanged (old : Byte) (pin : BitVec 4) (bit : Bool) : Byte :=
  if bit then old ||| (1#8 <<< pin.toNat) else old &&& ~~~(1#8 <<< pin.toNat)

/-- `o` is the outcome of the common guard of 41_pin_ops.md R130 on a port field and a pin field, errors carrying the
value `k`, followed by `act` on the port. -/
def guarded (port : BitVec 4) (pinBad : Prop) (k : Half) (s : State) (o : Result) (act : Port → Prop) : Prop :=
  (s.life = .closed → o = .next (ended .sessionClosedError k s)) ∧
  (s.life = .opened → 2 ≤ port.toNat ∨ pinBad → o = .next (ended .validationError k s)) ∧
  (∀ p, s.life = .opened → port = portCode p → ¬pinBad → act p)

/-- `o` is the outcome of performing `set_pin(port, pin, level)` (41_pin_ops.md R131) and going on with `good` on
success; an error carries the value `k`. -/
def pinWrite (port pin : BitVec 4) (level : Bool) (k : Half) (good : State → State) (s : State) (o : Result) : Prop :=
  guarded port (7 < pin.toNat) k s o fun p =>
    registerWrite (regAddr s.params .out p) (bitChanged (perPort s.out p) pin level) k
      (fun u => good { u with out := withPort s.out p (bitChanged (perPort s.out p) pin level) }) s o

/-- ABORT arrives in the wait that starts in `s`, and may be delivered (60_exceptions.md R212). -/
def abortArrives (s : State) : Bool := s.params.allowAbort && (s.waitScript.head Config.freeWait).abort

/-- `o` is the outcome of `Wait(d)` (60_exceptions.md R220, R212): without ABORT it ends not earlier than asked, one
WAIT event, and the command goes on with `good`; with ABORT the command ends with `Aborted` and the value `k`. Nothing
else changes, but the model's counter of draws. -/
def waits (d : Word) (k : Half) (good : State → State) (s : State) (o : Result) : Prop :=
  (abortArrives s = false → ∃ n, d.toNat ≤ n ∧ o = .next (good
    { s with now := s.now + n, waitScript := s.waitScript.rest, trace := s.trace ++ [.wait d s.now (s.now + n)] })) ∧
  (abortArrives s = true → ∃ n, o = .next (ended .aborted k
    { s with now := s.now + n, waitScript := s.waitScript.rest }))

/-- `u` is `s` with the handle released, if it was held (44_matrix_session.md R186, 60_exceptions.md R224). -/
def released (s u : State) : Prop :=
  (s.life = .closed → u = s) ∧
  (s.life = .opened → ∃ n, s.now ≤ n ∧ u =
    { s with
      life := .closed, handle := none, now := n, handleScript := s.handleScript.rest
      trace := s.trace ++ [.closed s.now n] })

/-- The table names the target of an in-range coordinate (10_state.md R28). -/
def mapsTo (cfg : Cfg) (row col : BitVec 8) (port pin : BitVec 4) : Prop :=
  ∃ e ∈ cfg.map, e.row = row.toNat ∧ e.col = col.toNat ∧ e.port = port ∧ e.pin = pin

/-- A coordinate outside the declared dimensions (43_matrix_map.md R170). -/
def outsideMatrix (cfg : Cfg) (row col : BitVec 8) : Prop := cfg.numRows ≤ row.toNat ∨ cfg.numCols ≤ col.toNat

/-- The event is a transfer. -/
def isXfer : Event → Bool
  | .xfer _ _ _ _ => true
  | _ => false

/-- The event is a completed wait. -/
def isWait : Event → Bool
  | .wait _ _ _ => true
  | _ => false

/-- `NOW` at the start of an event (00_scope.md R14). -/
def eventStart : Event → Nat
  | .opened _ _ _ a _ => a
  | .closed a _ => a
  | .xfer _ _ a _ => a
  | .wait _ a _ => a
  | .resp _ _ a _ => a

/-- `NOW` at the end of an event (00_scope.md R14). -/
def eventFinish : Event → Nat
  | .opened _ _ _ _ b => b
  | .closed _ b => b
  | .xfer _ _ _ b => b
  | .wait _ _ b => b
  | .resp _ _ _ b => b

/-- How many micro-steps the command in progress still takes at most (42_pulse_engine.md R161, 44_matrix_session.md
R183). -/
def stepsLeft (s : State) : Nat :=
  let within :=
    match s.phase with
    | .idle => 0
    | .assert => 3
    | .hold => 2
    | .release => 1
    | .gap => 0
  match s.cmd with
  | some (.pressSeq coords _ _) => 4 * (coords.length - 1 - s.idx) + within
  | _ => within

/-- Two outcomes that differ at most in what is hidden from the block: the chip's registers and the pins (10_state.md
R31). -/
def sameForTheBlock : Result → Result → Prop
  | .next t, .next u => u = { t with chip := u.chip, pins := u.pins }
  | .fault f, .fault g => f = g
  | .refused r, .refused q => r = q
  | _, _ => False

end Sys2Proof
end

