-- ==== Sys2Proof/Certificates/Slice0/Obligations.lean ====
section
/-! DEFINITION. The statements for the provers, from the numbered rules of spec/. -/

open Sys2Proof Sys2Proof.Machine

/-! ## Encoding -/

/-- 30_encoding.md R97: the encoding examples of the spec decode to the calls they stand for. -/
def Obligations.SpecExampleWordsDecodeToTheirCalls : Prop :=
  decode (.words [0x10080000#32]) = .ok (.setPin 0#4 0#4 true, []) ∧
  decode (.words [0x11600000#32]) = .ok (.setPin 1#4 6#4 false, []) ∧
  decode (.words [0x20300000#32]) = .ok (.togglePin 0#4 3#4, []) ∧
  decode (.words [0x310000A5#32]) = .ok (.setPort 1#4 0xA5#16, []) ∧
  decode (.words [0x30000100#32]) = .ok (.setPort 0#4 256#16, []) ∧
  decode (.words [0x41000000#32]) = .ok (.getPortState 1#4, []) ∧
  decode (.words [0x50700000#32]) = .ok (.configurePinMode 0#4 7#4 false, []) ∧
  decode (.words [0x50780000#32]) = .ok (.configurePinMode 0#4 7#4 true, []) ∧
  decode (.words [0x60000000#32]) = .ok (.readPortInput 0#4, []) ∧
  decode (.words [0x70080000#32, 0x64#32]) = .ok (.pulsePin 0#4 0#4 true 100#32, []) ∧
  decode (.words [0x71200000#32, 0#32]) = .ok (.pulsePin 1#4 2#4 false 0#32, []) ∧
  decode (.words [0x80000102#32]) = .ok (.resolve 1#8 2#8, []) ∧
  decode (.words [0x90000102#32, 0x32#32]) = .ok (.press 1#8 2#8 50#32, []) ∧
  decode (.words [0xA0000002#32, 0x64#32, 0x12C#32, 0#32, 1#32]) =
    .ok (.pressSeq [⟨0#8, 0#8⟩, ⟨0#8, 1#8⟩] 100#32 300#32, []) ∧
  decode (.words [0xB0000000#32]) = .ok (.cleanup, [])

/-- 30_encoding.md R81, R86 to R90: decoding the encoding of any well-formed instruction gives it back, with every
operand at every value, and the words behind it are left for the next command. -/
def Obligations.DecodeOfEncodeIsTheInstruction : Prop :=
  ∀ (i : Instr) (more : List Word), i.wf = true →
    decode ((encode i).followedBy more) =
      .ok (i, match encode i with | .frame _ => [] | .words _ => more)

/-- 30_encoding.md R86 to R91, R93: a command of any word 0 decodes once all the words it names are there, its operands
are the bit ranges of R87 and R88, whatever the unused bits are, and it is refused while words are missing. -/
def Obligations.EveryCommandWordDecodesByItsBitFields : Prop :=
  ∀ (w : Word) (ext more : List Word),
    let op := w.toNat / 2 ^ 28
    let port := BitVec.ofNat 4 (w.toNat / 2 ^ 24)
    let pin := BitVec.ofNat 4 (w.toNat / 2 ^ 20)
    let lvl := decide (w.toNat / 2 ^ 19 % 2 = 1)
    let val := BitVec.ofNat 16 w.toNat
    let row (x : Word) := BitVec.ofNat 8 (x.toNat / 256)
    let col (x : Word) := BitVec.ofNat 8 x.toNat
    let len := if op = 7 ∨ op = 9 then 2 else if op = 10 then 3 + w.toNat % 65536 else 1
    (ext.length + 1 < len → decodeWords (w :: ext) = .error .missingWords) ∧
    (ext.length + 1 = len →
      (op = 0 → decodeWords (w :: (ext ++ more)) = .ok (.reserved0, more)) ∧
      (op = 1 → decodeWords (w :: (ext ++ more)) = .ok (.setPin port pin lvl, more)) ∧
      (op = 2 → decodeWords (w :: (ext ++ more)) = .ok (.togglePin port pin, more)) ∧
      (op = 3 → decodeWords (w :: (ext ++ more)) = .ok (.setPort port val, more)) ∧
      (op = 4 → decodeWords (w :: (ext ++ more)) = .ok (.getPortState port, more)) ∧
      (op = 5 → decodeWords (w :: (ext ++ more)) = .ok (.configurePinMode port pin lvl, more)) ∧
      (op = 6 → decodeWords (w :: (ext ++ more)) = .ok (.readPortInput port, more)) ∧
      (op = 7 → ∃ d, ext = [d] ∧ decodeWords (w :: (ext ++ more)) = .ok (.pulsePin port pin lvl d, more)) ∧
      (op = 8 → decodeWords (w :: (ext ++ more)) = .ok (.resolve (row w) (col w), more)) ∧
      (op = 9 → ∃ d, ext = [d] ∧ decodeWords (w :: (ext ++ more)) = .ok (.press (row w) (col w) d, more)) ∧
      (op = 10 → ∃ d ivl cs, ext = d :: ivl :: cs ∧ decodeWords (w :: (ext ++ more)) =
        .ok (.pressSeq (cs.map fun x => ⟨row x, col x⟩) d ivl, more)) ∧
      (op = 11 → decodeWords (w :: (ext ++ more)) = .ok (.cleanup, more)) ∧
      (op = 12 → decodeWords (w :: (ext ++ more)) = .ok (.reservedC, more)) ∧
      (op = 13 → decodeWords (w :: (ext ++ more)) = .ok (.reservedD, more)) ∧
      (op = 14 → decodeWords (w :: (ext ++ more)) = .ok (.reservedE, more)) ∧
      (op = 15 → decodeWords (w :: (ext ++ more)) = .ok (.reservedF, more)))

/-- 30_encoding.md R81, R94: a 24-bit number decodes exactly when its bits 23:20 are 0100, and then it is the encoding
of what it decodes to: no bit is dropped. -/
def Obligations.FramesDecodeExactlyWithPrefix0100 : Prop :=
  ∀ f : BitVec 24,
    (f.toNat / 2 ^ 20 = 4 → ∃ i, decodeFrame f = .ok i ∧ encode i = .frame f) ∧
    (f.toNat / 2 ^ 20 ≠ 4 → decodeFrame f = .error .notAFrame)

/-- 30_encoding.md R82: the opcode is 0x40, the hardware address in bits 3:1 and the read flag in bit 0. -/
def Obligations.OpcodeIsPrefixAddressAndReadFlag : Prop :=
  ∀ (hwAddr : BitVec 3) (r : Bool), (opcode hwAddr r).toNat = 0x40 + 2 * hwAddr.toNat + r.toNat

/-- 30_encoding.md R81, 40_bus_transaction.md R111: the three bytes the block sends for a register access are the
encoded frame of CFG's hardware address, byte 0 in bits 23:16. -/
def Obligations.SentBytesAreTheEncodedFrame : Prop :=
  ∀ (cfg : Cfg) (reg data : Byte),
    encode (.regWrite cfg.hwAddr reg data) =
      .frame ((busFrame cfg false reg data).b0 ++ ((busFrame cfg false reg data).b1 ++ (busFrame cfg false reg data).b2)) ∧
    encode (.regRead cfg.hwAddr reg data) =
      .frame ((busFrame cfg true reg data).b0 ++ ((busFrame cfg true reg data).b1 ++ (busFrame cfg true reg data).b2))

/-- 30_encoding.md R92: the RESP word. -/
def Obligations.RespWordHoldsStatusAndValue : Prop :=
  ∀ (v : Half),
    (respWord ⟨.ok, v⟩).toNat = v.toNat ∧
    (respWord ⟨.validationError, v⟩).toNat = 1 * 2 ^ 28 + v.toNat ∧
    (respWord ⟨.busError, v⟩).toNat = 2 * 2 ^ 28 + v.toNat ∧
    (respWord ⟨.sessionClosedError, v⟩).toNat = 3 * 2 ^ 28 + v.toNat ∧
    (respWord ⟨.fatalError, v⟩).toNat = 4 * 2 ^ 28 + v.toNat ∧
    (respWord ⟨.aborted, v⟩).toNat = 5 * 2 ^ 28 + v.toNat

/-! ## The step -/

/-- 30_encoding.md R85, R89: at IDLE, when the code at the front of the host's requests decodes to an instruction, a
step is that instruction's meaning after the outside world's move, with its request taken. The list of requests and one
move of the outside world a step are the model's (logs 1, 24). -/
def Obligations.StepRunsTheDecodedInstruction : Prop :=
  ∀ (s : State) (c : Code) (i : Instr) (rest : List HostItem),
    s.phase = .idle → decode c = .ok (i, []) → s.host = codeItems c ++ rest →
      step s = exec i { worldMove s with host := rest }

/-- 10_state.md R25, 30_encoding.md R85: while a command is in progress a step is its meaning at the position it has
reached, whatever the host has asked for meanwhile. One move of the outside world a step is the model's (log 24). -/
def Obligations.StepContinuesTheLatchedCommand : Prop :=
  ∀ (s : State) (i : Instr), s.phase ≠ .idle → s.cmd = some i → step s = exec i (worldMove s)

/-- 30_encoding.md R85, R89, R94; 70_reset_and_hazards.md R240, R241: what the idle port does with the host's other
requests: it waits while there is none or while words of a command are missing, it performs a reset, and it stops by
name on a frame whose prefix is not 0100 and on a request standing inside a command's words (the model's choice, log
20). -/
def Obligations.IdlePortWaitsResetsOrStops : Prop :=
  ∀ (s : State), s.phase = .idle →
    (s.host = [] → step s = .next (worldMove s)) ∧
    (∀ (w : Word) (ext : List Word), ext.length + 1 < cmdLength w → s.host = .word w :: ext.map .word → step s = .next (worldMove s)) ∧
    (∀ cfg rest, s.host = .reset cfg :: rest → step s = .next (performReset cfg { worldMove s with host := rest })) ∧
    (∀ (f : BitVec 24) (rest : List HostItem), f.toNat / 2 ^ 20 ≠ 4 → s.host = .frame f :: rest → step s = .refused .notAFrame) ∧
    (∀ (w : Word) (ext : List Word) (f : BitVec 24) (rest : List HostItem), ext.length + 1 < cmdLength w → s.host = .word w :: (ext.map .word ++ .frame f :: rest) →
      step s = .refused .requestInsideCommand) ∧
    (∀ (w : Word) (ext : List Word) (cfg : Cfg) (rest : List HostItem), ext.length + 1 < cmdLength w → s.host = .word w :: (ext.map .word ++ .reset cfg :: rest) →
      step s = .refused .requestInsideCommand)

/-- 00_scope.md R18, 10_state.md R33, 60_exceptions.md R225: the outside world's move before a micro-step changes only
NOW, the chip's registers and the pins (and the model's counter of draws), and NOW does not decrease. -/
def Obligations.OutsideWorldLeavesTheBlockAlone : Prop :=
  ∀ s : State, s.now ≤ (worldMove s).now ∧
    worldMove s = { s with
      now := (worldMove s).now, chip := (worldMove s).chip, pins := (worldMove s).pins
      worldScript := (worldMove s).worldScript }

/-! ## The bus frames as instructions -/

/-- 40_bus_transaction.md R112, 20_memory.md R56: REG_WRITE of a register of the RegisterMap on an open session is one
transfer with CFG's hardware address; it changes no block state but RESP. RESP as the place of the outcome, and the
answers on a closed session and outside the RegisterMap, are the model's choice (logs 7 to 10). -/
def Obligations.RegWriteSendsOneFrame : Prop :=
  ∀ (a : BitVec 3) (reg v : Byte) (s : State),
    (s.life = .opened → reg ∈ regAddrs s.params →
      registerWrite reg v 0#16 (ended .ok 0#16) s (exec (.regWrite a reg v) s)) ∧
    (s.life = .closed → exec (.regWrite a reg v) s = .next (ended .sessionClosedError 0#16 s)) ∧
    (s.life = .opened → reg ∉ regAddrs s.params → exec (.regWrite a reg v) s = .next (ended .fatalError 0#16 s))

/-- 40_bus_transaction.md R113: REG_READ sends one frame with READ_FILL and answers the third response byte; RESP as
its place and the other answers are the model's choice (logs 7 to 10). -/
def Obligations.RegReadAnswersTheThirdByte : Prop :=
  ∀ (a : BitVec 3) (reg fill : Byte) (s : State),
    (s.life = .opened → reg ∈ regAddrs s.params → registerRead reg s (exec (.regRead a reg fill) s)) ∧
    (s.life = .closed → exec (.regRead a reg fill) s = .next (ended .sessionClosedError 0#16 s)) ∧
    (s.life = .opened → reg ∉ regAddrs s.params → exec (.regRead a reg fill) s = .next (ended .fatalError 0#16 s))

/-! ## Pins and ports -/

/-- 41_pin_ops.md R131, with the guard of R130: the encoding; the guard; the cached byte with one bit changed; one
register write; the cache on success only. -/
def Obligations.SetPinWritesTheCachedByteWithOneBit : Prop :=
  ∀ (port pin : BitVec 4) (level : Bool) (s : State),
    encodedAs 1 port.toNat pin.toNat level.toNat 0 (.setPin port pin level) ∧
    pinWrite port pin level 0#16 (ended .ok 0#16) s (exec (.setPin port pin level) s)

/-- 41_pin_ops.md R132: the encoding; the level written and answered is the complement of the cached bit. -/
def Obligations.TogglePinWritesTheComplementAndAnswersIt : Prop :=
  ∀ (port pin : BitVec 4) (s : State),
    encodedAs 2 port.toNat pin.toNat 0 0 (.togglePin port pin) ∧
    guarded port (7 < pin.toNat) 0#16 s (exec (.togglePin port pin) s) fun p =>
      ∀ level, level = !(perPort s.out p).getLsbD pin.toNat →
        registerWrite (regAddr s.params .out p) (bitChanged (perPort s.out p) pin level) 0#16
          (fun u => ended .ok (if level then 1#16 else 0#16)
            { u with out := withPort s.out p (bitChanged (perPort s.out p) pin level) })
          s (exec (.togglePin port pin) s)

/-- 41_pin_ops.md R133: the encoding; the whole byte is written, whatever the cache held. -/
def Obligations.SetPortWritesTheWholeByte : Prop :=
  ∀ (port : BitVec 4) (value : Half) (s : State),
    encodedAs 3 port.toNat 0 0 value.toNat (.setPort port value) ∧
    guarded port (255 < value.toNat) 0#16 s (exec (.setPort port value) s) fun p =>
      registerWrite (regAddr s.params .out p) (BitVec.ofNat 8 value.toNat) 0#16
        (fun u => ended .ok 0#16 { u with out := withPort s.out p (BitVec.ofNat 8 value.toNat) })
        s (exec (.setPort port value) s)

/-- 41_pin_ops.md R134: the encoding; the cached byte, no frame, no state but RESP. -/
def Obligations.GetPortStateAnswersTheCacheWithoutAFrame : Prop :=
  ∀ (port : BitVec 4) (s : State),
    encodedAs 4 port.toNat 0 0 0 (.getPortState port) ∧
    guarded port False 0#16 s (exec (.getPortState port) s) fun p =>
      exec (.getPortState port) s = .next (ended .ok (BitVec.ofNat 16 (perPort s.out p).toNat) s)

/-- 41_pin_ops.md R135: the encoding; the cached direction byte with one bit changed, DIR_OUT_BIT for output. -/
def Obligations.ConfigurePinModeWritesTheDirectionBit : Prop :=
  ∀ (port pin : BitVec 4) (isOutput : Bool) (s : State),
    encodedAs 5 port.toNat pin.toNat isOutput.toNat 0 (.configurePinMode port pin isOutput) ∧
    guarded port (7 < pin.toNat) 0#16 s (exec (.configurePinMode port pin isOutput) s) fun p =>
      ∀ b, b = (if isOutput then s.params.dirOutBit else !s.params.dirOutBit) →
        registerWrite (regAddr s.params .dir p) (bitChanged (perPort s.dir p) pin b) 0#16
          (fun u => ended .ok 0#16 { u with dir := withPort s.dir p (bitChanged (perPort s.dir p) pin b) })
          s (exec (.configurePinMode port pin isOutput) s)

/-- 41_pin_ops.md R136: the encoding; one read of the IN register answers the live byte; no cache is touched. -/
def Obligations.ReadPortInputAnswersTheLiveByte : Prop :=
  ∀ (port : BitVec 4) (s : State),
    encodedAs 6 port.toNat 0 0 0 (.readPortInput port) ∧
    guarded port False 0#16 s (exec (.readPortInput port) s) fun p =>
      registerRead (regAddr s.params .inp p) s (exec (.readPortInput port) s)

/-- 41_pin_ops.md R140: set then toggle answers the complement; set_port then get_port_state answers the value; a bad
port or pin is a ValidationError without a transfer. -/
def Obligations.PortLawsOfTheSource : Prop :=
  (∀ (p : Port) (pin : BitVec 4) (level : Bool) (s t u : State), pin.toNat ≤ 7 →
    exec (.setPin (portCode p) pin level) s = .next t → t.resp.status = .ok →
    exec (.togglePin (portCode p) pin) t = .next u → u.resp.status = .ok →
      u.resp.value = if level then 0#16 else 1#16) ∧
  (∀ (p : Port) (v : Byte) (s t : State),
    exec (.setPort (portCode p) (v.setWidth 16)) s = .next t → t.resp.status = .ok →
      ∃ u, exec (.getPortState (portCode p)) t = .next u ∧ u.resp = ⟨.ok, v.setWidth 16⟩ ∧
        u.trace = t.trace ++ [.resp .ok (v.setWidth 16) t.now t.now]) ∧
  (∀ (port pin : BitVec 4) (b : Bool) (v : Half) (s : State), s.life = .opened →
    (2 ≤ port.toNat →
      ∀ i ∈ [Instr.setPin port pin b, .togglePin port pin, .setPort port v, .getPortState port,
          .configurePinMode port pin b, .readPortInput port],
        exec i s = .next (ended .validationError 0#16 s)) ∧
    (7 < pin.toNat →
      ∀ i ∈ [Instr.setPin port pin b, .togglePin port pin, .configurePinMode port pin b],
        exec i s = .next (ended .validationError 0#16 s)))

/-- 41_pin_ops.md R139: a command on port p sends frames only to registers of p, leaves the other port's caches and
every register that is not one of p's alone, and does the same whatever the other port's caches hold. -/
def Obligations.PortCommandsAreIndependent : Prop :=
  ∀ (p q : Port) (pin : BitVec 4) (b : Bool) (v : Half) (s t : State) (i : Instr), q ≠ p →
    i ∈ [Instr.setPin (portCode p) pin b, .togglePin (portCode p) pin, .setPort (portCode p) v,
      .getPortState (portCode p), .configurePinMode (portCode p) pin b, .readPortInput (portCode p)] →
    exec i s = .next t →
      perPort t.out q = perPort s.out q ∧ perPort t.dir q = perPort s.dir q ∧
      (∀ a, (∀ k, a ≠ (regAddr s.params k p).toNat) → t.chip.read a = s.chip.read a) ∧
      ∃ es, t.trace = s.trace ++ es ∧
        (∀ tx rx x y, Event.xfer tx rx x y ∈ es → ∃ k, tx.b1 = regAddr s.params k p) ∧
        ∀ x y, exec i { s with out := withPort s.out q x, dir := withPort s.dir q y } =
          .next { t with out := withPort t.out q x, dir := withPort t.dir q y }

/-! ## Pulses, presses, sequences -/

/-- 30_encoding.md R85, 10_state.md R25: a pulse, a press and a non-empty sequence are accepted at IDLE: the command is
latched and its ASSERT step is next, a sequence at index 0. That accepting is a step of its own is the model's reading
(log 2). -/
def Obligations.MultiStepCommandsAreAcceptedAtIdle : Prop :=
  ∀ s : State, s.phase = .idle →
    (∀ port pin active d, exec (.pulsePin port pin active d) s =
      .next { s with cmd := some (.pulsePin port pin active d), phase := .assert }) ∧
    (∀ row col d, exec (.press row col d) s = .next { s with cmd := some (.press row col d), phase := .assert }) ∧
    (∀ coords d ivl, coords ≠ [] → exec (.pressSeq coords d ivl) s =
      .next { s with cmd := some (.pressSeq coords d ivl), phase := .assert, idx := 0 })

/-- 42_pulse_engine.md R161: the three steps of a pulse, each with its success and its error exits. The time an
aborted wait lasted is a draw of the model (log 15). -/
def Obligations.PulsePinRunsAssertHoldRelease : Prop :=
  ∀ (port pin : BitVec 4) (active : Bool) (d : Word) (s : State),
    (s.phase = .assert →
      pinWrite port pin active 0#16 (fun u => { u with phase := .hold }) s (exec (.pulsePin port pin active d) s)) ∧
    (s.phase = .hold →
      waits d 0#16 (fun u => { u with phase := .release }) s (exec (.pulsePin port pin active d) s)) ∧
    (s.phase = .release →
      pinWrite port pin (!active) 0#16 (ended .ok 0#16) s (exec (.pulsePin port pin active d) s))

/-- 44_matrix_session.md R180: PRESS tests LIFE, resolves its coordinate and pulses the pin with the level high.
The model looks the table up again at RELEASE (log 25); the time of an aborted wait is a draw (log 15). -/
def Obligations.PressPulsesThePinOfItsCoordinate : Prop :=
  ∀ (row col : BitVec 8) (d : Word) (s : State), tableOk s.cfg = true →
    (s.phase = .assert → s.life = .closed →
      exec (.press row col d) s = .next (ended .sessionClosedError 0#16 s)) ∧
    (s.phase = .assert → s.life = .opened → outsideMatrix s.cfg row col →
      exec (.press row col d) s = .next (ended .validationError 0#16 s)) ∧
    (s.phase = .assert → ∀ port pin, mapsTo s.cfg row col port pin →
      pinWrite port pin true 0#16 (fun u => { u with phase := .hold }) s (exec (.press row col d) s)) ∧
    (s.phase = .hold → waits d 0#16 (fun u => { u with phase := .release }) s (exec (.press row col d) s)) ∧
    (s.phase = .release → ∀ port pin, mapsTo s.cfg row col port pin →
      pinWrite port pin false 0#16 (ended .ok 0#16) s (exec (.press row col d) s))

/-- 44_matrix_session.md R181: PRESS of a coordinate that the table maps to a pin is PULSE_PIN of that pin with the
level high: at every position of the command the two meanings are equal, and they are accepted alike. -/
def Obligations.PressIsThePulseOfItsPin : Prop :=
  ∀ (row col : BitVec 8) (port pin : BitVec 4) (d : Word) (s : State),
    tableOk s.cfg = true → mapsTo s.cfg row col port pin →
      (s.phase ≠ .idle → exec (.press row col d) s = exec (.pulsePin port pin true d) s) ∧
      (s.phase = .idle → ∃ t u, exec (.press row col d) s = .next t ∧ exec (.pulsePin port pin true d) s = .next u ∧
        t = { u with cmd := t.cmd })

/-- 44_matrix_session.md R182 to R184: the steps of a sequence at index IDX: a press of the coordinate there; after a
successful release the interval wait or, after the last coordinate, the end with the count of presses; every error and
ABORT carries the number of completed presses. The model looks the table up again at RELEASE (log 25); the time of an
aborted wait is a draw (log 15). -/
def Obligations.PressSequenceRunsItsPressesInOrder : Prop :=
  ∀ (coords : List Coord) (d ivl : Word) (s : State) (c : Coord), tableOk s.cfg = true → coords[s.idx]? = some c →
    (s.phase = .assert → s.life = .closed →
      exec (.pressSeq coords d ivl) s = .next (ended .sessionClosedError (BitVec.ofNat 16 s.idx) s)) ∧
    (s.phase = .assert → s.life = .opened → outsideMatrix s.cfg c.row c.col →
      exec (.pressSeq coords d ivl) s = .next (ended .validationError (BitVec.ofNat 16 s.idx) s)) ∧
    (s.phase = .assert → ∀ port pin, mapsTo s.cfg c.row c.col port pin →
      pinWrite port pin true (BitVec.ofNat 16 s.idx) (fun u => { u with phase := .hold }) s
        (exec (.pressSeq coords d ivl) s)) ∧
    (s.phase = .hold →
      waits d (BitVec.ofNat 16 s.idx) (fun u => { u with phase := .release }) s (exec (.pressSeq coords d ivl) s)) ∧
    (s.phase = .release → ∀ port pin, mapsTo s.cfg c.row c.col port pin →
      pinWrite port pin false (BitVec.ofNat 16 s.idx)
        (fun u => if s.idx + 1 < coords.length then { u with phase := .gap }
          else ended .ok (BitVec.ofNat 16 coords.length) u) s
        (exec (.pressSeq coords d ivl) s)) ∧
    (s.phase = .gap →
      waits ivl (BitVec.ofNat 16 (s.idx + 1)) (fun u => { u with idx := s.idx + 1, phase := .assert }) s
        (exec (.pressSeq coords d ivl) s))

/-- 44_matrix_session.md R182: an empty sequence performs nothing and answers OK and 0, also on a closed session. The
index left at 0 is the model's (log 16). -/
def Obligations.EmptySequenceEndsAtOnce : Prop :=
  ∀ (d ivl : Word) (s : State), s.phase = .idle →
    exec (.pressSeq [] d ivl) s = .next (ended .ok 0#16 { s with idx := 0 })

/-- 42_pulse_engine.md R163 to R165: three successful steps of a press, a pulse or a press of a sequence put exactly
two write frames and one wait between them on the trace, both frames to the port's OUT register, the second with the
one bit flipped back, the second not earlier than the duration after the end of the first. -/
def Obligations.PulseHoldsAtLeastItsDuration : Prop :=
  ∀ (s s1 s2 s3 : State) (i : Instr) (d : Word), s.phase = .assert → s.cmd = some i →
    ((∃ port pin active, i = .pulsePin port pin active d) ∨ (∃ row col, i = .press row col d) ∨
      ∃ coords ivl, i = .pressSeq coords d ivl) →
    step s = .next s1 → s1.phase = .hold → step s1 = .next s2 → s2.phase = .release → step s2 = .next s3 →
    ∃ (p : Port) (pin : BitVec 4) (active : Bool) (rx1 rx2 : Option Frame) (a1 b1 a b a2 b2 : Nat) (rest : List Event),
      pulseTarget s i = some (portCode p, pin, active) ∧
      s3.trace = s.trace ++
        [.xfer ⟨opcode s.cfg.hwAddr false, regAddr s.params .out p, bitChanged (perPort s.out p) pin active⟩ rx1 a1 b1,
         .wait d a b,
         .xfer ⟨opcode s.cfg.hwAddr false, regAddr s.params .out p,
            bitChanged (bitChanged (perPort s.out p) pin active) pin (!active)⟩ rx2 a2 b2] ++ rest ∧
      b1 + d.toNat ≤ a2 ∧ rest.countP isXfer = 0

/-- 42_pulse_engine.md R162: when the release write of a pulse, a press or a press of a sequence fails, the command
ends with BusError after that one failed frame, and the cached bit stays at the active level: the cache says
asserted. -/
def Obligations.FailedReleaseLeavesThePinAsserted : Prop :=
  ∀ (s : State) (i : Instr) (p : Port) (pin : BitVec 4) (active : Bool) (tx : Frame), BlockInv s → s.phase = .release →
    s.cmd = some i → pulseTarget s i = some (portCode p, pin, active) →
    tx = ⟨opcode s.cfg.hwAddr false, regAddr s.params .out p, bitChanged (perPort s.out p) pin (!active)⟩ →
    answerBytes (busAnswer s tx) = none →
      ∃ t k, exec i s = .next t ∧ t.resp = ⟨.busError, k⟩ ∧ t.phase = .idle ∧ t.life = .opened ∧ t.out = s.out ∧
        (perPort t.out p).getLsbD pin.toNat = active ∧
        t.trace = s.trace ++ [.xfer tx none s.now t.now, .resp .busError k t.now t.now]

/-- 42_pulse_engine.md R161: the guard of the RELEASE step cannot fail: from a reachable state that step ends the
command with no SessionClosedError and no ValidationError. -/
def Obligations.TheReleaseGuardNeverFails : Prop :=
  ∀ (s t : State) (i : Instr) (es : List Event) (e : Status) (v : Half) (a b : Nat), BlockInv s → s.phase = .release →
    s.cmd = some i → exec i s = .next t → t.trace = s.trace ++ es → Event.resp e v a b ∈ es →
      e = .ok ∨ e = .busError

/-- 44_matrix_session.md R182, 10_state.md R35, 70_reset_and_hazards.md R258: a sequence of n coordinates that ends
with OK after exactly the steps of one command sent 2n frames, waited 2n - 1 times, answers n and took at least
n * d + (n - 1) * v ticks. -/
def Obligations.SuccessfulSequenceSendsTwoFramesPerCoordinate : Prop :=
  ∀ (k : Nat) (s t : State) (coords : List Coord) (d ivl : Word), BlockInv s → s.phase = .assert → s.idx = 0 →
    s.cmd = some (.pressSeq coords d ivl) → core.run (k + 1) s = .next t →
    (∀ j u, j ≤ k → core.run j s = .next u → u.phase ≠ .idle) → t.phase = .idle → t.resp.status = .ok →
      t.resp.value = BitVec.ofNat 16 coords.length ∧
      ∃ es, t.trace = s.trace ++ es ∧ es.countP isXfer = 2 * coords.length ∧
        es.countP isWait + 1 = 2 * coords.length ∧
        s.now + coords.length * d.toNat + (coords.length - 1) * ivl.toNat ≤ t.now

/-- 00_scope.md R18, 60_exceptions.md R220: every command in progress ends, within the number of steps its position
leaves, given that every wait ends (which a step of the model does). -/
def Obligations.EveryCommandEnds : Prop :=
  ∀ s : State, BlockInv s → s.phase ≠ .idle →
    ∃ k t, 0 < k ∧ k ≤ stepsLeft s ∧ core.run k s = .next t ∧ t.phase = .idle

/-! ## The decoder and the session -/

/-- 43_matrix_map.md R170: RESOLVE of a coordinate outside the dimensions is a ValidationError, of any other one it is
the table's entry; it sends nothing, changes nothing but RESP and does not test LIFE; its encoding. -/
def Obligations.ResolveAnswersTheTableEntry : Prop :=
  ∀ (row col : BitVec 8) (s : State), tableOk s.cfg = true →
    encodedAs 8 0 0 0 (row.toNat * 256 + col.toNat) (.resolve row col) ∧
    (outsideMatrix s.cfg row col → exec (.resolve row col) s = .next (ended .validationError 0#16 s)) ∧
    (∀ port pin, mapsTo s.cfg row col port pin →
      exec (.resolve row col) s = .next (ended .ok (BitVec.ofNat 16 (port.toNat * 256 + pin.toNat)) s))

/-- 43_matrix_map.md R170, R171: with an accepted table every coordinate within the dimensions has an entry, its port
is A or B and its pin 0 to 7, and two coordinates with the same pin are the same. -/
def Obligations.AcceptedTableIsTotalValidAndInjective : Prop :=
  ∀ (cfg : Cfg) (row col : BitVec 8), tableOk cfg = true → ¬outsideMatrix cfg row col →
    ∃ p pin, mapsTo cfg row col (portCode p) pin ∧ pin.toNat ≤ 7 ∧
      (∀ port' pin', mapsTo cfg row col port' pin' → port' = portCode p ∧ pin' = pin) ∧
      (∀ row' col', mapsTo cfg row' col' (portCode p) pin → row' = row ∧ col' = col)

/-- 70_reset_and_hazards.md R242: what the table check accepts. -/
def Obligations.TableCheckIsTotalityValidityInjectivity : Prop :=
  ∀ cfg : Cfg, tableOk cfg = true ↔
    cfg.map.Nodup ∧
    (∀ r c, r < cfg.numRows → c < cfg.numCols → ∃! e, e ∈ cfg.map ∧ e.row = r ∧ e.col = c) ∧
    (∀ e ∈ cfg.map, e.row < cfg.numRows ∧ e.col < cfg.numCols) ∧
    (∀ e ∈ cfg.map, (e.port = 0#4 ∨ e.port = 1#4) ∧ e.pin.toNat ≤ 7) ∧
    (∀ e ∈ cfg.map, ∀ e' ∈ cfg.map, e.port = e'.port → e.pin = e'.pin → e = e')

/-- 10_state.md R28: a table that passes reset has at most 16 coordinates. -/
def Obligations.AcceptedTableHasAtMostSixteenCoordinates : Prop :=
  ∀ cfg : Cfg, tableOk cfg = true → cfg.numRows * cfg.numCols ≤ 16

/-- 44_matrix_session.md R186: CLEANUP releases the handle if it is held, ends with OK, sends no frame and leaves the
caches; on a closed session it changes nothing but RESP; its encoding. -/
def Obligations.CleanupReleasesTheHandleOnce : Prop :=
  encodedAs 11 0 0 0 0 .cleanup ∧
  ∀ s : State, ∃ u, released s u ∧ exec .cleanup s = .next (ended .ok 0#16 u)

/-- 44_matrix_session.md R187: CLEANUP leaves the session closed, and on a closed session every pin and port command, and
every press of a sequence, ends with SessionClosedError and changes nothing else; RESOLVE and CLEANUP are not
affected. -/
def Obligations.ClosedSessionRefusesPinAndPortCommands : Prop :=
  ∀ (s : State) (port pin : BitVec 4) (b : Bool) (v : Half) (d ivl : Word) (row col : BitVec 8) (coords : List Coord),
    s.life = .closed →
    (∀ i ∈ [Instr.setPin port pin b, .togglePin port pin, .setPort port v, .getPortState port,
        .configurePinMode port pin b, .readPortInput port],
      exec i s = .next (ended .sessionClosedError 0#16 s)) ∧
    (exec .cleanup s = .next (ended .ok 0#16 s) ∧ ∀ u t, exec .cleanup u = .next t → t.life = .closed) ∧
    (∃ t u, exec (.resolve row col) s = .next t ∧ exec (.resolve row col) { s with life := .opened } = .next u ∧
      t = { u with life := .closed }) ∧
    (s.phase = .assert →
      exec (.pulsePin port pin b d) s = .next (ended .sessionClosedError 0#16 s) ∧
      exec (.press row col d) s = .next (ended .sessionClosedError 0#16 s) ∧
      (s.idx < coords.length → exec (.pressSeq coords d ivl) s =
        .next (ended .sessionClosedError (BitVec.ofNat 16 s.idx) s)))

/-- 60_exceptions.md R214, R203: on a closed session only RESOLVE, CLEANUP and an empty PRESS_SEQ end with OK. -/
def Obligations.ClosedSessionAnswersOkToThreeCommandsOnly : Prop :=
  ∀ (i : Instr) (s t : State) (es : List Event) (v : Half) (a b : Nat), s.life = .closed → exec i s = .next t →
    t.trace = s.trace ++ es → Event.resp .ok v a b ∈ es →
      i = .cleanup ∨ (∃ row col, i = .resolve row col) ∨ ∃ d ivl, i = .pressSeq [] d ivl

/-- 30_encoding.md R93: the five reserved codes end at once with FatalError, whatever LIFE is; nothing else changes.
The spec allows a refusal instead (log 18). -/
def Obligations.ReservedCodesEndWithFatalError : Prop :=
  ∀ (s : State), ∀ i ∈ [Instr.reserved0, .reservedC, .reservedD, .reservedE, .reservedF],
    exec i s = .next (ended .fatalError 0#16 s)

/-! ## Errors, over all instructions -/

/-- 60_exceptions.md R202: an instruction whose step ends with ValidationError has changed nothing but RESP: no frame,
no wait, no cache. -/
def Obligations.ValidationErrorChangesNothingElse : Prop :=
  ∀ (i : Instr) (s t : State) (es : List Event) (v : Half) (a b : Nat), exec i s = .next t → t.trace = s.trace ++ es →
    Event.resp .validationError v a b ∈ es → t = ended .validationError v s

/-- 60_exceptions.md R208, 41_pin_ops.md R138: an instruction whose step ends with BusError had exactly one transfer in
that step, which failed; both caches, LIFE and CFG are as before. -/
def Obligations.BusErrorLeavesTheCaches : Prop :=
  ∀ (i : Instr) (s t : State) (es : List Event) (v : Half) (a b : Nat), exec i s = .next t → t.trace = s.trace ++ es →
    Event.resp .busError v a b ∈ es →
      ∃ u tx, transferred tx s u ∧ answerBytes (busAnswer s tx) = none ∧ t = ended .busError v u

/-- 60_exceptions.md R212: a step ends a command with Aborted only inside a wait (HOLD or GAP) and only where ABORT may
be delivered; then no frame was sent, and caches, LIFE and the chip are as before: a pin asserted stays asserted. The
time passed is a draw of the model (log 15). -/
def Obligations.AbortOnlyCutsWaitsAndRevertsNothing : Prop :=
  ∀ (i : Instr) (s t : State) (es : List Event) (v : Half) (a b : Nat), exec i s = .next t → t.trace = s.trace ++ es →
    Event.resp .aborted v a b ∈ es →
      (s.phase = .hold ∨ s.phase = .gap) ∧ s.params.allowAbort = true ∧
      ∃ n, t = ended .aborted v { s with now := s.now + n, waitScript := s.waitScript.rest }

/-- 40_bus_transaction.md R114: no transfer is repeated: a step of any instruction sends at most one frame, and a
failed one ends the command with BusError. -/
def Obligations.NoTransferIsRetried : Prop :=
  ∀ (i : Instr) (s t : State), exec i s = .next t →
    ∃ es, t.trace = s.trace ++ es ∧ es.countP isXfer ≤ 1 ∧
      ∀ tx x y, Event.xfer tx none x y ∈ es → t.phase = .idle ∧ t.resp.status = .busError

/-! ## Whole-machine rules -/

/-- 10_state.md R34, 70_reset_and_hazards.md R243: the state after reset, with the configuration of log 4, satisfies the
invariant. -/
def Obligations.ResetSatisfiesTheInvariant : Prop := BlockInv State.reset

/-- 10_state.md R25, R32; 42_pulse_engine.md R161; 43_matrix_map.md R171: every step keeps the invariant. -/
def Obligations.EveryStepKeepsTheInvariant : Prop :=
  ∀ s t : State, BlockInv s → step s = .next t → BlockInv t

/-- 60_exceptions.md R207, R210: the machine never faults in a state that satisfies the invariant; its
faults stand for positions no run reaches (log 21). -/
def Obligations.TheMachineNeverFaults : Prop :=
  ∀ (s : State) (f : Fault), BlockInv s → step s ≠ .fault f

/-- 30_encoding.md R94, 40_bus_transaction.md R111: every frame any step sends is one of the two forms of R81 with
CFG's hardware address, to one of the eight registers of the RegisterMap. -/
def Obligations.OnlyOwnFramesAreSent : Prop :=
  ∀ s t : State, step s = .next t →
    ∃ es, t.trace = s.trace ++ es ∧
      ∀ tx rx x y, Event.xfer tx rx x y ∈ es →
        (∃ r, tx.b0 = opcode t.cfg.hwAddr r) ∧ tx.b1 ∈ regAddrs t.params ∧
          (tx.b0.getLsbD 0 = true → tx.b2 = t.params.readFill)

/-- 20_memory.md R67, 10_state.md R27: no step changes the RegisterMap and the other parameters, and no step but a
reset changes CFG and its table. -/
def Obligations.TablesAreConstant : Prop :=
  ∀ s t : State, step s = .next t →
    t.params = s.params ∧
    (s.phase ≠ .idle ∨ (∀ cfg rest, s.host ≠ .reset cfg :: rest) → t.cfg = s.cfg)

/-- 10_state.md R33, 20_memory.md R63: NOW never decreases, and the trace only grows, by events that follow one another
in time. -/
def Obligations.TimeAndTraceOnlyGrow : Prop :=
  ∀ s t : State, step s = .next t → s.now ≤ t.now ∧
    ∃ es, t.trace = s.trace ++ es ∧ es.Pairwise (fun e f => eventFinish e ≤ eventStart f) ∧
      ∀ e ∈ es, s.now ≤ eventStart e ∧ eventStart e ≤ eventFinish e ∧ eventFinish e ≤ t.now

/-- 10_state.md R24: no instruction but CLEANUP writes LIFE, and none opens a session. -/
def Obligations.OnlyCleanupClosesTheSession : Prop :=
  ∀ (i : Instr) (s t : State), exec i s = .next t →
    (i ≠ .cleanup → t.life = s.life ∧ t.handle = s.handle) ∧ (t.life = .opened → s.life = .opened)

/-- 10_state.md R35: which commands write a cache: the output cache only by the commands that drive pins, the direction
cache only by CONFIGURE_PIN_MODE. -/
def Obligations.CachesAreWrittenOnlyByTheirCommands : Prop :=
  ∀ (i : Instr) (s t : State), exec i s = .next t →
    (i ∈ [Instr.cleanup, .reserved0, .reservedC, .reservedD, .reservedE, .reservedF] → t.out = s.out ∧ t.dir = s.dir) ∧
    (∀ port, i = .getPortState port ∨ i = .readPortInput port → t.out = s.out ∧ t.dir = s.dir) ∧
    (∀ row col, i = .resolve row col → t.out = s.out ∧ t.dir = s.dir) ∧
    (∀ x reg data, i = .regWrite x reg data ∨ i = .regRead x reg data → t.out = s.out ∧ t.dir = s.dir) ∧
    (∀ port pin o, i = .configurePinMode port pin o → t.out = s.out) ∧
    ((∀ port pin o, i ≠ .configurePinMode port pin o) → t.dir = s.dir)

/-- 10_state.md R31, R20: the chip's registers and the pins are hidden from the block: two states that differ only in
them take the same step, as long as the environment's answers are draws. -/
def Obligations.ChipContentsAreHiddenFromTheBlock : Prop :=
  ∀ (s : State) (chip : Memory) (pins : PerPort), s.responder = .free →
    sameForTheBlock (step s) (step { s with chip := chip, pins := pins })

/-- 20_memory.md R66: with IdealChip a register write is taken and reads back, a read of any register that is no IN
register answers what the chip holds there and changes nothing of the chip, and a read of an IN register answers the
port's pins. IdealChip as the responder and RESP as the place of the outcome are the model's (logs 7, 23). -/
def Obligations.IdealChipReadsBackWhatWasWritten : Prop :=
  ∀ (s : State) (a a' : BitVec 3) (reg v fill : Byte), s.responder = .ideal → s.life = .opened →
    reg ∈ regAddrs s.params →
    (reg ≠ regAddr s.params .inp .A → reg ≠ regAddr s.params .inp .B →
      ∃ t u, exec (.regWrite a reg v) s = .next t ∧ t.resp = ⟨.ok, 0#16⟩ ∧
        exec (.regRead a' reg fill) t = .next u ∧ u.resp = ⟨.ok, v.setWidth 16⟩) ∧
    (reg ≠ regAddr s.params .inp .A → reg ≠ regAddr s.params .inp .B →
      ∃ t, exec (.regRead a reg fill) s = .next t ∧ t.resp = ⟨.ok, (s.chip.read reg.toNat).setWidth 16⟩ ∧
        t.chip = s.chip) ∧
    (reg = regAddr s.params .inp .A →
      ∃ t, exec (.regRead a reg fill) s = .next t ∧ t.resp = ⟨.ok, s.pins.a.setWidth 16⟩) ∧
    (reg = regAddr s.params .inp .B → reg ≠ regAddr s.params .inp .A →
      ∃ t, exec (.regRead a reg fill) s = .next t ∧ t.resp = ⟨.ok, s.pins.b.setWidth 16⟩)

/-! ## Reset -/

/-- 10_state.md R34, 70_reset_and_hazards.md R240, R241, R243: reset with an accepted table, the handle opening and no
INIT_FRAMES gives the stated state: caches, LIFE, position, RESP, CFG, the handle; a handle held before is closed
first. That the reset is one micro-step, with a move of the outside world before the handle is opened, is the model's
choice (log 30). -/
def Obligations.SuccessfulResetGivesTheStatedState : Prop :=
  ∀ (cfg : Cfg) (s : State), tableOk cfg = true → s.params.initFrames = [] →
    ∃ u, released s u ∧
      ((u.handleScript.head Config.freeHandle).ok = true →
        ∃ n, (worldMove u).now ≤ n ∧ performReset cfg s =
          { worldMove u with
            out := ⟨0x00#8, 0x00#8⟩
            dir := if s.params.dirOutBit then ⟨0xFF#8, 0xFF#8⟩ else ⟨0x00#8, 0x00#8⟩
            life := .opened, phase := .idle, idx := 0, cmd := none, resp := ⟨.ok, 0#16⟩, cfg := cfg
            handle := some ⟨cfg.busIndex, cfg.devIndex, cfg.clockHz⟩
            now := n, handleScript := u.handleScript.rest
            trace := u.trace ++ [.opened cfg.busIndex cfg.devIndex cfg.clockHz (worldMove u).now n] })

/-- 70_reset_and_hazards.md R242, R243; 10_state.md R34: reset with a refused table ends with ValidationError, opens
and sends nothing; LIFE is CLOSED. That CFG is kept is the model's choice (log 12). -/
def Obligations.RefusedTableLeavesTheSessionClosed : Prop :=
  ∀ (cfg : Cfg) (s : State), tableOk cfg = false →
    ∃ u out dir, released s u ∧ performReset cfg s =
      { u with
        life := .closed, phase := .idle, cmd := none, resp := ⟨.validationError, 0#16⟩
        out := out, dir := dir, junkScript := s.junkScript.rest }

/-- 70_reset_and_hazards.md R240: every reset ends either open with RESP OK, having sent INIT_FRAMES in order after one
OPEN event, or closed without a handle with a ValidationError or a BusError. That all of it is one micro-step is the
model's choice (log 30). -/
def Obligations.ResetEndsOpenOrReportsAnError : Prop :=
  ∀ (cfg : Cfg) (s : State), (s.life = .closed → s.handle = none) →
    ((performReset cfg s).life = .opened ∧ (performReset cfg s).resp = ⟨.ok, 0#16⟩ ∧ (performReset cfg s).cfg = cfg ∧
      tableOk cfg = true ∧
      ∃ u m n es, released s u ∧ u.now ≤ m ∧ m ≤ n ∧ (performReset cfg s).trace =
          u.trace ++ .opened cfg.busIndex cfg.devIndex cfg.clockHz m n :: es ∧
        es.map (fun e => match e with | .xfer tx (some _) _ _ => some tx | _ => none) =
          s.params.initFrames.map fun f => some ⟨opcode cfg.hwAddr false, regAddr s.params f.kind f.port, f.value⟩) ∨
    ((performReset cfg s).life = .closed ∧ (performReset cfg s).handle = none ∧ (performReset cfg s).phase = .idle ∧
      ((performReset cfg s).resp = ⟨.validationError, 0#16⟩ ∧ tableOk cfg = false ∨
        (performReset cfg s).resp = ⟨.busError, 0#16⟩ ∧ tableOk cfg = true))

/-- 10_state.md R24, R34: before any reset LIFE is CLOSED, PHASE is IDLE, no handle is held and no command is latched,
whatever the caches, RESP and CFG hold; with a table that passes the check the invariant holds; and a reset whose handle
opens, with the configuration of log 4, gives every register of the block its value in `State.reset`. The three
arguments are the model's (log 31). -/
def Obligations.BeforeAnyResetTheSessionIsClosed : Prop :=
  ∀ (caches : CacheBytes) (resp : Resp) (cfg : Cfg) (s : State), s = State.beforeReset caches resp cfg →
    s.life = .closed ∧ s.phase = .idle ∧ s.cmd = none ∧ s.handle = none ∧
    (tableOk cfg = true → BlockInv s) ∧
    ∀ (hs : Script HandleReply) (t : State), (hs.head Config.freeHandle).ok = true →
      t = performReset Config.cfgT { s with handleScript := hs } →
        t.out = State.reset.out ∧ t.dir = State.reset.dir ∧ t.life = State.reset.life ∧ t.phase = State.reset.phase ∧
        t.idx = State.reset.idx ∧ t.cmd = State.reset.cmd ∧ t.resp = State.reset.resp ∧ t.cfg = State.reset.cfg ∧
        t.handle = State.reset.handle ∧ t.params = State.reset.params

/-! ## Host -/

/-- 30_encoding.md R88: seconds are converted to the least number of ticks that is not shorter. Fractions are
the model's form (log 29). -/
def Obligations.TicksAreTheSecondsRoundedUp : Prop :=
  ∀ (params : Params) (num den : Nat), 0 < den → 0 < params.tickNum →
    num * params.tickDen ≤ ticksOfSeconds params num den * (den * params.tickNum) ∧
    ∀ n, num * params.tickDen ≤ n * (den * params.tickNum) → ticksOfSeconds params num den ≤ n
end

