-- ==== Sys2Proof/Laws/Decode.lean ====
section
/-! SUPPORT. The fields of an encoded word, of a coordinate word and of an encoded frame read back as they were
written. -/

namespace Sys2Proof

/-- Word 0 bit by bit (30_encoding.md R87). -/
theorem getLsbD_word0 (op port pin : BitVec 4) (lvl : Bool) (val : Half) (i : Nat) :
    (word0 op port pin lvl val).getLsbD i =
      if i < 16 then val.getLsbD i
      else if i < 19 then false
      else if i = 19 then lvl
      else if i < 24 then pin.getLsbD (i - 20)
      else if i < 28 then port.getLsbD (i - 24)
      else op.getLsbD (i - 28) := by
  refine (BitVec.getLsbD_append (x := (op ++ port) ++ (pin ++ BitVec.ofBool lvl)) (y := 0#3 ++ val)).trans ?_
  rw [BitVec.getLsbD_append, BitVec.getLsbD_append, BitVec.getLsbD_append, BitVec.getLsbD_append]
  simp only [BitVec.getLsbD_zero, BitVec.getLsbD_ofBool]
  repeat' split
  all_goals first | omega | rfl | simp_all

@[simp] theorem opField_word0 (op port pin : BitVec 4) (lvl : Bool) (val : Half) :
    opField (word0 op port pin lvl val) = op := by
  apply BitVec.eq_of_getLsbD_eq
  intro i hi
  simp only [opField, BitVec.getLsbD_extractLsb', getLsbD_word0]
  interval_cases i <;> simp

@[simp] theorem portField_word0 (op port pin : BitVec 4) (lvl : Bool) (val : Half) :
    portField (word0 op port pin lvl val) = port := by
  apply BitVec.eq_of_getLsbD_eq
  intro i hi
  simp only [portField, BitVec.getLsbD_extractLsb', getLsbD_word0]
  interval_cases i <;> simp

@[simp] theorem pinField_word0 (op port pin : BitVec 4) (lvl : Bool) (val : Half) :
    pinField (word0 op port pin lvl val) = pin := by
  apply BitVec.eq_of_getLsbD_eq
  intro i hi
  simp only [pinField, BitVec.getLsbD_extractLsb', getLsbD_word0]
  interval_cases i <;> simp

@[simp] theorem lvlField_word0 (op port pin : BitVec 4) (lvl : Bool) (val : Half) :
    lvlField (word0 op port pin lvl val) = lvl := by
  simp only [lvlField, getLsbD_word0]
  simp

@[simp] theorem valField_word0 (op port pin : BitVec 4) (lvl : Bool) (val : Half) :
    valField (word0 op port pin lvl val) = val := by
  apply BitVec.eq_of_getLsbD_eq
  intro i hi
  simp [valField, getLsbD_word0, hi]

/-- The coordinate of a word is the coordinate of its low half. -/
theorem coordOf_eq (w : Word) : coordOf w = ⟨(valField w).extractLsb' 8 8, (valField w).extractLsb' 0 8⟩ := by
  unfold coordOf valField
  congr 1 <;> apply BitVec.eq_of_getLsbD_eq <;> intro i hi <;> simp [hi]

theorem coordBits_fields (c : Coord) :
    (coordBits c).extractLsb' 8 8 = c.row ∧ (coordBits c).extractLsb' 0 8 = c.col := by
  constructor <;> apply BitVec.eq_of_getLsbD_eq <;> intro i hi
  · have : ∀ j, (coordBits c).getLsbD j = if j < 8 then c.col.getLsbD j else c.row.getLsbD (j - 8) :=
      fun j => BitVec.getLsbD_append
    simp [this, hi]
  · have : ∀ j, (coordBits c).getLsbD j = if j < 8 then c.col.getLsbD j else c.row.getLsbD (j - 8) :=
      fun j => BitVec.getLsbD_append
    simp [this, hi]

@[simp] theorem coordOf_word0 (op port pin : BitVec 4) (lvl : Bool) (c : Coord) :
    coordOf (word0 op port pin lvl (coordBits c)) = c := by
  rw [coordOf_eq, valField_word0, (coordBits_fields c).1, (coordBits_fields c).2]

@[simp] theorem coordOf_coordWord (c : Coord) : coordOf (coordWord c) = c := by
  have h : valField (coordWord c) = coordBits c := by
    apply BitVec.eq_of_getLsbD_eq
    intro i hi
    have : ∀ j, (coordWord c).getLsbD j = if j < 16 then (coordBits c).getLsbD j else (0#16).getLsbD (j - 16) :=
      fun j => BitVec.getLsbD_append
    simp [valField, this, hi]
  rw [coordOf_eq, h, (coordBits_fields c).1, (coordBits_fields c).2]

/-- A frame bit by bit (30_encoding.md R81). -/
theorem getLsbD_frameBits (hwAddr : BitVec 3) (r : Bool) (reg data : Byte) (i : Nat) :
    (frameBits hwAddr r reg data).getLsbD i =
      if i < 8 then data.getLsbD i
      else if i < 16 then reg.getLsbD (i - 8)
      else if i = 16 then r
      else if i < 20 then hwAddr.getLsbD (i - 17)
      else (0b0100#4).getLsbD (i - 20) := by
  refine (BitVec.getLsbD_append (x := (0b0100#4 ++ hwAddr) ++ BitVec.ofBool r) (y := reg ++ data)).trans ?_
  rw [BitVec.getLsbD_append, BitVec.getLsbD_append, BitVec.getLsbD_append]
  simp only [BitVec.getLsbD_ofBool]
  repeat' split
  all_goals first | omega | rfl | simp_all

/-- Bits written above other bits, as numbers. -/
theorem toNat_append_eq {n m : Nat} (x : BitVec n) (y : BitVec m) : (x ++ y).toNat = x.toNat * 2 ^ m + y.toNat := by
  rw [BitVec.toNat_append, ← Nat.shiftLeft_add_eq_or_of_lt y.isLt, Nat.shiftLeft_eq]

/-- Word 0 as a number: `op << 28 | port << 24 | pin << 20 | lvl << 19 | val` (30_encoding.md R97). -/
theorem toNat_word0 (op port pin : BitVec 4) (lvl : Bool) (val : Half) :
    (word0 op port pin lvl val).toNat =
      op.toNat * 2 ^ 28 + port.toNat * 2 ^ 24 + pin.toNat * 2 ^ 20 + lvl.toNat * 2 ^ 19 + val.toNat := by
  have h0 : (0#3).toNat = 0 := rfl
  unfold word0
  rw [toNat_append_eq, toNat_append_eq, toNat_append_eq, toNat_append_eq, toNat_append_eq, h0, BitVec.toNat_ofBool]
  omega

/-- A coordinate as a number: row above col (30_encoding.md R87). -/
theorem toNat_coordBits (c : Coord) : (coordBits c).toNat = c.row.toNat * 256 + c.col.toNat := by
  exact toNat_append_eq c.row c.col

/-- The length of an encoded command is the one its word 0 names (30_encoding.md R89). -/
theorem cmdLength_word0 (op port pin : BitVec 4) (lvl : Bool) (val : Half) :
    cmdLength (word0 op port pin lvl val) =
      match op.toNat with
      | 7 => 2
      | 9 => 2
      | 10 => 3 + val.toNat
      | _ => 1 := by
  simp only [cmdLength, opField_word0, valField_word0] <;> rfl

/-- A command whose words are all there decodes to its operands, and the words behind it are handed back
(30_encoding.md R89). -/
theorem decodeWords_full (w : Word) (ext more : List Word) (h : ext.length + 1 = cmdLength w) :
    decodeWords (w :: (ext ++ more)) = .ok (decodeOperands w ext, more) := by
  have h1 : cmdLength w - 1 = ext.length := by omega
  simp only [decodeWords]
  rw [h1]
  simp

/-- A frame of the fields of 30_encoding.md R81 decodes to the access they stand for. -/
theorem decodeFrame_frameBits (a : BitVec 3) (r : Bool) (reg d : Byte) :
    decodeFrame (frameBits a r reg d) = .ok (if r then .regRead a reg d else .regWrite a reg d) := by
  have h1 : (frameBits a r reg d).extractLsb' 20 4 = 0b0100#4 := by
    apply BitVec.eq_of_getLsbD_eq; intro i hi
    simp only [BitVec.getLsbD_extractLsb', getLsbD_frameBits]; interval_cases i <;> simp
  have h2 : (frameBits a r reg d).extractLsb' 17 3 = a := by
    apply BitVec.eq_of_getLsbD_eq; intro i hi
    simp only [BitVec.getLsbD_extractLsb', getLsbD_frameBits]; interval_cases i <;> simp
  have h3 : (frameBits a r reg d).extractLsb' 8 8 = reg := by
    apply BitVec.eq_of_getLsbD_eq; intro i hi
    simp only [BitVec.getLsbD_extractLsb', getLsbD_frameBits]; interval_cases i <;> simp
  have h4 : (frameBits a r reg d).extractLsb' 0 8 = d := by
    apply BitVec.eq_of_getLsbD_eq; intro i hi
    simp only [BitVec.getLsbD_extractLsb', getLsbD_frameBits]; interval_cases i <;> simp
  have h5 : (frameBits a r reg d).getLsbD 16 = r := by rw [getLsbD_frameBits]; simp
  unfold decodeFrame
  rw [h1, h2, h3, h4, h5, if_pos rfl]
  cases r <;> rfl

end Sys2Proof
end

