-- ==== Sys2Proof/Laws/Memory.lean ====
section
/-! SUPPORT. The chip's registers: reading after writing, and the canonical form, which every operation on them keeps. -/

namespace Sys2Proof.Machine

@[simp] theorem Memory.read_nil (a : Nat) : Memory.read [] a = Config.chipPowerOn a := rfl

theorem Memory.read_put_same (m : Memory) (a : Nat) (v : Byte) : (m.put a v).read a = v := by
  induction m with
  | nil => simp [Memory.put, Memory.read]
  | cons c rest ih =>
    obtain ⟨b, w⟩ := c
    unfold Memory.put
    split
    · simp [Memory.read]
    · split
      · simp [Memory.read]
      · simp [Memory.read, *]

theorem Memory.read_put_other (m : Memory) (a b : Nat) (v : Byte) (h : b ≠ a) : (m.put a v).read b = m.read b := by
  induction m with
  | nil => simp [Memory.put, Memory.read, h]
  | cons c rest ih =>
    obtain ⟨d, w⟩ := c
    unfold Memory.put
    split
    · simp [Memory.read, h]
    · split
      · next hd => subst hd; simp [Memory.read, h]
      · simp [Memory.read, ih]

theorem Memory.unlist_cons (b : Nat) (w : Byte) (rest : Memory) (a : Nat) :
    Memory.unlist ((b, w) :: rest) a = if b = a then rest.unlist a else (b, w) :: rest.unlist a := by
  unfold Memory.unlist
  by_cases h : b = a <;> simp [h]

theorem Memory.read_unlist_same (m : Memory) (a : Nat) : (m.unlist a).read a = Config.chipPowerOn a := by
  induction m with
  | nil => rfl
  | cons c rest ih =>
    obtain ⟨b, w⟩ := c
    rw [Memory.unlist_cons]
    split
    · exact ih
    · next h => simp only [Memory.read, if_neg (Ne.symm h), ih]

theorem Memory.read_unlist_other (m : Memory) (a b : Nat) (h : b ≠ a) : (m.unlist a).read b = m.read b := by
  induction m with
  | nil => rfl
  | cons c rest ih =>
    obtain ⟨d, w⟩ := c
    rw [Memory.unlist_cons]
    split
    · next hd => rw [ih, Memory.read, if_neg (fun e => h (e.trans hd))]
    · simp only [Memory.read, ih]

/-- A register reads as the value it took. -/
@[simp] theorem Memory.read_write_same (m : Memory) (a : Nat) (v : Byte) : (m.write a v).read a = v := by
  unfold Memory.write
  split
  · next h => rw [h, Memory.read_unlist_same]
  · exact Memory.read_put_same m a v

/-- A write leaves every other register alone. -/
theorem Memory.read_write_other (m : Memory) (a b : Nat) (v : Byte) (h : b ≠ a) :
    (m.write a v).read b = m.read b := by
  unfold Memory.write
  split
  · exact Memory.read_unlist_other m a b h
  · exact Memory.read_put_other m a b v h

theorem Memory.wf_iff (m : Memory) :
    m.wf = true ↔
      m.Pairwise (fun c d => c.1 < d.1) ∧ ∀ c ∈ m, c.1 < 256 ∧ c.2 ≠ Config.chipPowerOn c.1 := by
  simp [Memory.wf]

@[simp] theorem Memory.wf_nil : Memory.wf [] = true := by decide

/-- A cell of the list after an entry is made is that entry or was there before. -/
theorem Memory.mem_put (m : Memory) (a : Nat) (v : Byte) (c : Host.Cell) (h : c ∈ m.put a v) :
    c = (a, v) ∨ c ∈ m := by
  induction m with
  | nil => simpa [Memory.put] using h
  | cons d rest ih =>
    unfold Memory.put at h
    split at h
    · simpa using h
    · split at h
      · rcases List.mem_cons.mp h with h | h
        · exact .inl h
        · exact .inr (List.mem_cons_of_mem _ h)
      · rcases List.mem_cons.mp h with h | h
        · exact .inr (h ▸ List.mem_cons_self ..)
        · exact (ih h).imp_right (List.mem_cons_of_mem _)

theorem Memory.put_rising (m : Memory) (a : Nat) (v : Byte) (hp : m.Pairwise fun c d => c.1 < d.1) :
    (m.put a v).Pairwise fun c d => c.1 < d.1 := by
  induction m with
  | nil => simp [Memory.put]
  | cons d rest ih =>
    obtain ⟨hd, hr⟩ := List.pairwise_cons.mp hp
    unfold Memory.put
    split
    · next hlt =>
      refine List.pairwise_cons.mpr ⟨fun c hc => ?_, hp⟩
      rcases List.mem_cons.mp hc with rfl | hc
      · exact hlt
      · exact Nat.lt_trans hlt (hd c hc)
    · split
      · next heq => exact List.pairwise_cons.mpr ⟨fun c hc => by simpa [heq] using hd c hc, hr⟩
      · next hge hne =>
        refine List.pairwise_cons.mpr ⟨fun c hc => ?_, ih hr⟩
        rcases Memory.mem_put _ _ _ _ hc with rfl | hc
        · dsimp only at hge hne ⊢; omega
        · exact hd c hc

/-- A write of a one-byte address keeps the canonical form. -/
theorem Memory.write_keeps_wf (m : Memory) (a : Nat) (v : Byte) (ha : a < 256) (h : m.wf = true) :
    (m.write a v).wf = true := by
  rw [Memory.wf_iff] at h ⊢
  obtain ⟨hp, hb⟩ := h
  unfold Memory.write
  split
  · exact ⟨hp.filter _, fun c hc => hb c (List.mem_filter.mp hc).1⟩
  · next hv =>
    refine ⟨Memory.put_rising m a v hp, fun c hc => ?_⟩
    rcases Memory.mem_put _ _ _ _ hc with rfl | hc
    · exact ⟨ha, hv⟩
    · exact hb c hc

/-- Below the first listed address every register holds its value at power-on. -/
theorem Memory.read_below (m : Memory) (a : Nat) (h : ∀ c ∈ m, a < c.1) : m.read a = Config.chipPowerOn a := by
  induction m with
  | nil => rfl
  | cons c rest ih =>
    obtain ⟨b, w⟩ := c
    have hb : a ≠ b := Nat.ne_of_lt (h (b, w) (List.mem_cons_self ..))
    rw [Memory.read, if_neg hb, ih fun c hc => h c (List.mem_cons_of_mem _ hc)]

/-- A listed register holds another value than at power-on. -/
theorem Memory.read_head_ne (b : Nat) (w : Byte) (rest : Memory) (h : Memory.wf ((b, w) :: rest) = true) :
    Memory.read ((b, w) :: rest) b ≠ Config.chipPowerOn b := by
  rw [Memory.read, if_pos rfl]
  exact (((Memory.wf_iff _).mp h).2 (b, w) (List.mem_cons_self ..)).2

theorem Memory.wf_tail (c : Host.Cell) (rest : Memory) (h : Memory.wf (c :: rest) = true) : rest.wf = true := by
  rw [Memory.wf_iff] at h ⊢
  exact ⟨(List.pairwise_cons.mp h.1).2, fun d hd => h.2 d (List.mem_cons_of_mem _ hd)⟩

/-- Two lists in canonical form whose registers hold the same values are equal. -/
theorem Memory.eq_of_read_eq (m n : Memory) (hm : m.wf = true) (hn : n.wf = true) (h : ∀ a, m.read a = n.read a) :
    m = n := by
  induction m generalizing n with
  | nil =>
    cases n with
    | nil => rfl
    | cons d rest => exact absurd (h d.1).symm (Memory.read_head_ne d.1 d.2 rest hn)
  | cons c rest ih =>
    cases n with
    | nil => exact absurd (h c.1) (Memory.read_head_ne c.1 c.2 rest hm)
    | cons d rest' =>
      have hc := (List.pairwise_cons.mp ((Memory.wf_iff _).mp hm).1).1
      have hd := (List.pairwise_cons.mp ((Memory.wf_iff _).mp hn).1).1
      have below (e : Host.Cell) (l : Memory) (hl : ∀ x ∈ l, e.1 < x.1) (a : Nat) (ha : a < e.1) :
          Memory.read (e :: l) a = Config.chipPowerOn a :=
        Memory.read_below _ _ fun x hx => by
          rcases List.mem_cons.mp hx with rfl | hx
          · exact ha
          · exact Nat.lt_trans ha (hl x hx)
      have hk : c.1 = d.1 := by
        rcases Nat.lt_trichotomy c.1 d.1 with hlt | heq | hgt
        · exact absurd ((h c.1).trans (below d rest' hd c.1 hlt)) (Memory.read_head_ne c.1 c.2 rest hm)
        · exact heq
        · exact absurd ((h d.1).symm.trans (below c rest hc d.1 hgt)) (Memory.read_head_ne d.1 d.2 rest' hn)
      obtain ⟨a, v⟩ := c
      obtain ⟨b, w⟩ := d
      cases hk
      have hv : v = w := by simpa [Memory.read] using h a
      subst hv
      refine congrArg _ (ih rest' (Memory.wf_tail _ _ hm) (Memory.wf_tail _ _ hn) fun x => ?_)
      by_cases hx : x = a
      · subst hx
        rw [Memory.read_below rest x hc, Memory.read_below rest' x hd]
      · simpa [Memory.read, hx] using h x

/-- A transfer keeps the canonical form. -/
theorem chipAfter_keeps_wf (cfg : Cfg) (tx : Frame) (answer : BusAnswer) (m : Memory) (h : m.wf = true) :
    (chipAfter cfg tx answer m).wf = true := by
  unfold chipAfter
  split
  · exact Memory.write_keeps_wf m _ _ tx.b1.isLt h
  · exact h

/-- The outside world's changes keep the canonical form. -/
theorem chipAfterActs_keeps_wf (acts : List WorldAct) (m : Memory) (h : m.wf = true) :
    (chipAfterActs acts m).wf = true := by
  induction acts generalizing m with
  | nil => exact h
  | cons act rest ih =>
    cases act with
    | pins p v => exact ih m h
    | chipChange reg v => exact ih _ (Memory.write_keeps_wf m _ v reg.isLt h)
    | chipReset => exact ih [] Memory.wf_nil

/-- The memory right after reset is in canonical form. -/
theorem reset_chip_wf : State.reset.chip.wf = true := Memory.wf_nil

end Sys2Proof.Machine
end

