-- ==== Sys2Proof/Laws/State.lean ====
section
/-! SUPPORT. One lemma for each field and each named update of the state, so that no later proof unfolds a record
update. -/

namespace Sys2Proof.Machine

@[simp] theorem perPort_withPort_same (x : PerPort) (p : Port) (v : Byte) : perPort (withPort x p v) p = v := by
  cases p <;> rfl

theorem perPort_withPort_other (x : PerPort) (p q : Port) (v : Byte) (h : q ≠ p) :
    perPort (withPort x p v) q = perPort x q := by
  cases p <;> cases q <;> first | rfl | exact absurd rfl h

@[simp] theorem Script.rest_used {α : Type} (sc : Script α) : sc.rest.used = sc.used + 1 := rfl
@[simp] theorem Script.rest_answers {α : Type} (sc : Script α) : sc.rest.answers = sc.answers.tail := rfl
@[simp] theorem Script.head_cons {α : Type} (free : Nat → α) (a : α) (l : List α) (n : Nat) :
    Script.head free ⟨a :: l, n⟩ = a := rfl
@[simp] theorem Script.head_nil {α : Type} (free : Nat → α) (n : Nat) : Script.head free ⟨[], n⟩ = free n := rfl

/-- Taking an error is the end of the command with that status (60_exceptions.md R205). -/
@[simp] theorem raiseError_eq (e : Status) (v : Half) (s : State) : raiseError e v s = endCommand e v s := rfl

@[simp] theorem endCommand_out (e : Status) (v : Half) (s : State) : (endCommand e v s).out = s.out := rfl
@[simp] theorem endCommand_dir (e : Status) (v : Half) (s : State) : (endCommand e v s).dir = s.dir := rfl
@[simp] theorem endCommand_life (e : Status) (v : Half) (s : State) : (endCommand e v s).life = s.life := rfl
@[simp] theorem endCommand_phase (e : Status) (v : Half) (s : State) : (endCommand e v s).phase = .idle := rfl
@[simp] theorem endCommand_idx (e : Status) (v : Half) (s : State) : (endCommand e v s).idx = s.idx := rfl
@[simp] theorem endCommand_cmd (e : Status) (v : Half) (s : State) : (endCommand e v s).cmd = none := rfl
@[simp] theorem endCommand_resp (e : Status) (v : Half) (s : State) : (endCommand e v s).resp = ⟨e, v⟩ := rfl
@[simp] theorem endCommand_cfg (e : Status) (v : Half) (s : State) : (endCommand e v s).cfg = s.cfg := rfl
@[simp] theorem endCommand_params (e : Status) (v : Half) (s : State) : (endCommand e v s).params = s.params := rfl
@[simp] theorem endCommand_handle (e : Status) (v : Half) (s : State) : (endCommand e v s).handle = s.handle := rfl
@[simp] theorem endCommand_chip (e : Status) (v : Half) (s : State) : (endCommand e v s).chip = s.chip := rfl
@[simp] theorem endCommand_pins (e : Status) (v : Half) (s : State) : (endCommand e v s).pins = s.pins := rfl
@[simp] theorem endCommand_now (e : Status) (v : Half) (s : State) : (endCommand e v s).now = s.now := rfl
@[simp] theorem endCommand_trace (e : Status) (v : Half) (s : State) :
    (endCommand e v s).trace = s.trace ++ [.resp e v s.now s.now] := rfl
@[simp] theorem endCommand_host (e : Status) (v : Half) (s : State) : (endCommand e v s).host = s.host := rfl
@[simp] theorem endCommand_responder (e : Status) (v : Half) (s : State) :
    (endCommand e v s).responder = s.responder := rfl
@[simp] theorem endCommand_busScript (e : Status) (v : Half) (s : State) :
    (endCommand e v s).busScript = s.busScript := rfl
@[simp] theorem endCommand_waitScript (e : Status) (v : Half) (s : State) :
    (endCommand e v s).waitScript = s.waitScript := rfl
@[simp] theorem endCommand_worldScript (e : Status) (v : Half) (s : State) :
    (endCommand e v s).worldScript = s.worldScript := rfl
@[simp] theorem endCommand_handleScript (e : Status) (v : Half) (s : State) :
    (endCommand e v s).handleScript = s.handleScript := rfl
@[simp] theorem endCommand_junkScript (e : Status) (v : Half) (s : State) :
    (endCommand e v s).junkScript = s.junkScript := rfl

@[simp] theorem beginCommand_out (i : Instr) (s : State) : (beginCommand i s).out = s.out := rfl
@[simp] theorem beginCommand_dir (i : Instr) (s : State) : (beginCommand i s).dir = s.dir := rfl
@[simp] theorem beginCommand_life (i : Instr) (s : State) : (beginCommand i s).life = s.life := rfl
@[simp] theorem beginCommand_phase (i : Instr) (s : State) : (beginCommand i s).phase = .assert := rfl
@[simp] theorem beginCommand_idx (i : Instr) (s : State) : (beginCommand i s).idx = s.idx := rfl
@[simp] theorem beginCommand_cmd (i : Instr) (s : State) : (beginCommand i s).cmd = some i := rfl
@[simp] theorem beginCommand_resp (i : Instr) (s : State) : (beginCommand i s).resp = s.resp := rfl
@[simp] theorem beginCommand_cfg (i : Instr) (s : State) : (beginCommand i s).cfg = s.cfg := rfl
@[simp] theorem beginCommand_params (i : Instr) (s : State) : (beginCommand i s).params = s.params := rfl
@[simp] theorem beginCommand_handle (i : Instr) (s : State) : (beginCommand i s).handle = s.handle := rfl
@[simp] theorem beginCommand_chip (i : Instr) (s : State) : (beginCommand i s).chip = s.chip := rfl
@[simp] theorem beginCommand_pins (i : Instr) (s : State) : (beginCommand i s).pins = s.pins := rfl
@[simp] theorem beginCommand_now (i : Instr) (s : State) : (beginCommand i s).now = s.now := rfl
@[simp] theorem beginCommand_trace (i : Instr) (s : State) : (beginCommand i s).trace = s.trace := rfl
@[simp] theorem beginCommand_host (i : Instr) (s : State) : (beginCommand i s).host = s.host := rfl
@[simp] theorem beginCommand_responder (i : Instr) (s : State) : (beginCommand i s).responder = s.responder := rfl
@[simp] theorem beginCommand_busScript (i : Instr) (s : State) : (beginCommand i s).busScript = s.busScript := rfl
@[simp] theorem beginCommand_waitScript (i : Instr) (s : State) : (beginCommand i s).waitScript = s.waitScript := rfl
@[simp] theorem beginCommand_worldScript (i : Instr) (s : State) :
    (beginCommand i s).worldScript = s.worldScript := rfl
@[simp] theorem beginCommand_handleScript (i : Instr) (s : State) :
    (beginCommand i s).handleScript = s.handleScript := rfl
@[simp] theorem beginCommand_junkScript (i : Instr) (s : State) : (beginCommand i s).junkScript = s.junkScript := rfl

@[simp] theorem nextCoord_out (s : State) : (nextCoord s).out = s.out := rfl
@[simp] theorem nextCoord_dir (s : State) : (nextCoord s).dir = s.dir := rfl
@[simp] theorem nextCoord_life (s : State) : (nextCoord s).life = s.life := rfl
@[simp] theorem nextCoord_phase (s : State) : (nextCoord s).phase = .assert := rfl
@[simp] theorem nextCoord_idx (s : State) : (nextCoord s).idx = s.idx + 1 := rfl
@[simp] theorem nextCoord_cmd (s : State) : (nextCoord s).cmd = s.cmd := rfl
@[simp] theorem nextCoord_resp (s : State) : (nextCoord s).resp = s.resp := rfl
@[simp] theorem nextCoord_cfg (s : State) : (nextCoord s).cfg = s.cfg := rfl
@[simp] theorem nextCoord_params (s : State) : (nextCoord s).params = s.params := rfl
@[simp] theorem nextCoord_handle (s : State) : (nextCoord s).handle = s.handle := rfl
@[simp] theorem nextCoord_chip (s : State) : (nextCoord s).chip = s.chip := rfl
@[simp] theorem nextCoord_pins (s : State) : (nextCoord s).pins = s.pins := rfl
@[simp] theorem nextCoord_now (s : State) : (nextCoord s).now = s.now := rfl
@[simp] theorem nextCoord_trace (s : State) : (nextCoord s).trace = s.trace := rfl
@[simp] theorem nextCoord_host (s : State) : (nextCoord s).host = s.host := rfl
@[simp] theorem nextCoord_responder (s : State) : (nextCoord s).responder = s.responder := rfl
@[simp] theorem nextCoord_busScript (s : State) : (nextCoord s).busScript = s.busScript := rfl
@[simp] theorem nextCoord_waitScript (s : State) : (nextCoord s).waitScript = s.waitScript := rfl
@[simp] theorem nextCoord_worldScript (s : State) : (nextCoord s).worldScript = s.worldScript := rfl
@[simp] theorem nextCoord_handleScript (s : State) : (nextCoord s).handleScript = s.handleScript := rfl
@[simp] theorem nextCoord_junkScript (s : State) : (nextCoord s).junkScript = s.junkScript := rfl

@[simp] theorem worldMove_out (s : State) : (worldMove s).out = s.out := rfl
@[simp] theorem worldMove_dir (s : State) : (worldMove s).dir = s.dir := rfl
@[simp] theorem worldMove_life (s : State) : (worldMove s).life = s.life := rfl
@[simp] theorem worldMove_phase (s : State) : (worldMove s).phase = s.phase := rfl
@[simp] theorem worldMove_idx (s : State) : (worldMove s).idx = s.idx := rfl
@[simp] theorem worldMove_cmd (s : State) : (worldMove s).cmd = s.cmd := rfl
@[simp] theorem worldMove_resp (s : State) : (worldMove s).resp = s.resp := rfl
@[simp] theorem worldMove_cfg (s : State) : (worldMove s).cfg = s.cfg := rfl
@[simp] theorem worldMove_params (s : State) : (worldMove s).params = s.params := rfl
@[simp] theorem worldMove_handle (s : State) : (worldMove s).handle = s.handle := rfl
@[simp] theorem worldMove_chip (s : State) :
    (worldMove s).chip = chipAfterActs (s.worldScript.head Config.freeWorld).acts s.chip := rfl
@[simp] theorem worldMove_pins (s : State) :
    (worldMove s).pins = pinsAfterActs (s.worldScript.head Config.freeWorld).acts s.pins := rfl
@[simp] theorem worldMove_now (s : State) :
    (worldMove s).now = s.now + (s.worldScript.head Config.freeWorld).elapse := rfl
@[simp] theorem worldMove_trace (s : State) : (worldMove s).trace = s.trace := rfl
@[simp] theorem worldMove_host (s : State) : (worldMove s).host = s.host := rfl
@[simp] theorem worldMove_responder (s : State) : (worldMove s).responder = s.responder := rfl
@[simp] theorem worldMove_busScript (s : State) : (worldMove s).busScript = s.busScript := rfl
@[simp] theorem worldMove_waitScript (s : State) : (worldMove s).waitScript = s.waitScript := rfl
@[simp] theorem worldMove_worldScript (s : State) : (worldMove s).worldScript = s.worldScript.rest := rfl
@[simp] theorem worldMove_handleScript (s : State) : (worldMove s).handleScript = s.handleScript := rfl
@[simp] theorem worldMove_junkScript (s : State) : (worldMove s).junkScript = s.junkScript := rfl

@[simp] theorem afterXfer_out (s : State) (tx : Frame) : (afterXfer s tx).out = s.out := rfl
@[simp] theorem afterXfer_dir (s : State) (tx : Frame) : (afterXfer s tx).dir = s.dir := rfl
@[simp] theorem afterXfer_life (s : State) (tx : Frame) : (afterXfer s tx).life = s.life := rfl
@[simp] theorem afterXfer_phase (s : State) (tx : Frame) : (afterXfer s tx).phase = s.phase := rfl
@[simp] theorem afterXfer_idx (s : State) (tx : Frame) : (afterXfer s tx).idx = s.idx := rfl
@[simp] theorem afterXfer_cmd (s : State) (tx : Frame) : (afterXfer s tx).cmd = s.cmd := rfl
@[simp] theorem afterXfer_resp (s : State) (tx : Frame) : (afterXfer s tx).resp = s.resp := rfl
@[simp] theorem afterXfer_cfg (s : State) (tx : Frame) : (afterXfer s tx).cfg = s.cfg := rfl
@[simp] theorem afterXfer_params (s : State) (tx : Frame) : (afterXfer s tx).params = s.params := rfl
@[simp] theorem afterXfer_handle (s : State) (tx : Frame) : (afterXfer s tx).handle = s.handle := rfl
@[simp] theorem afterXfer_chip (s : State) (tx : Frame) :
    (afterXfer s tx).chip = chipAfter s.cfg tx (busAnswer s tx) s.chip := rfl
@[simp] theorem afterXfer_pins (s : State) (tx : Frame) : (afterXfer s tx).pins = s.pins := rfl
@[simp] theorem afterXfer_now (s : State) (tx : Frame) : (afterXfer s tx).now = s.now + busTime s := rfl
@[simp] theorem afterXfer_trace (s : State) (tx : Frame) :
    (afterXfer s tx).trace = s.trace ++ [.xfer tx (answerBytes (busAnswer s tx)) s.now (s.now + busTime s)] := rfl
@[simp] theorem afterXfer_host (s : State) (tx : Frame) : (afterXfer s tx).host = s.host := rfl
@[simp] theorem afterXfer_responder (s : State) (tx : Frame) : (afterXfer s tx).responder = s.responder := rfl
@[simp] theorem afterXfer_busScript (s : State) (tx : Frame) : (afterXfer s tx).busScript = s.busScript.rest := rfl
@[simp] theorem afterXfer_waitScript (s : State) (tx : Frame) : (afterXfer s tx).waitScript = s.waitScript := rfl
@[simp] theorem afterXfer_worldScript (s : State) (tx : Frame) : (afterXfer s tx).worldScript = s.worldScript := rfl
@[simp] theorem afterXfer_handleScript (s : State) (tx : Frame) :
    (afterXfer s tx).handleScript = s.handleScript := rfl
@[simp] theorem afterXfer_junkScript (s : State) (tx : Frame) : (afterXfer s tx).junkScript = s.junkScript := rfl

@[simp] theorem closeHandle_out (s : State) : (closeHandle s).out = s.out := rfl
@[simp] theorem closeHandle_dir (s : State) : (closeHandle s).dir = s.dir := rfl
@[simp] theorem closeHandle_life (s : State) : (closeHandle s).life = .closed := rfl
@[simp] theorem closeHandle_phase (s : State) : (closeHandle s).phase = s.phase := rfl
@[simp] theorem closeHandle_idx (s : State) : (closeHandle s).idx = s.idx := rfl
@[simp] theorem closeHandle_cmd (s : State) : (closeHandle s).cmd = s.cmd := rfl
@[simp] theorem closeHandle_resp (s : State) : (closeHandle s).resp = s.resp := rfl
@[simp] theorem closeHandle_cfg (s : State) : (closeHandle s).cfg = s.cfg := rfl
@[simp] theorem closeHandle_params (s : State) : (closeHandle s).params = s.params := rfl
@[simp] theorem closeHandle_handle (s : State) : (closeHandle s).handle = none := rfl
@[simp] theorem closeHandle_chip (s : State) : (closeHandle s).chip = s.chip := rfl
@[simp] theorem closeHandle_pins (s : State) : (closeHandle s).pins = s.pins := rfl
@[simp] theorem closeHandle_now (s : State) :
    (closeHandle s).now = s.now + (s.handleScript.head Config.freeHandle).time := rfl
@[simp] theorem closeHandle_trace (s : State) :
    (closeHandle s).trace = s.trace ++ [.closed s.now (s.now + (s.handleScript.head Config.freeHandle).time)] := rfl
@[simp] theorem closeHandle_host (s : State) : (closeHandle s).host = s.host := rfl
@[simp] theorem closeHandle_responder (s : State) : (closeHandle s).responder = s.responder := rfl
@[simp] theorem closeHandle_busScript (s : State) : (closeHandle s).busScript = s.busScript := rfl
@[simp] theorem closeHandle_waitScript (s : State) : (closeHandle s).waitScript = s.waitScript := rfl
@[simp] theorem closeHandle_worldScript (s : State) : (closeHandle s).worldScript = s.worldScript := rfl
@[simp] theorem closeHandle_handleScript (s : State) : (closeHandle s).handleScript = s.handleScript.rest := rfl
@[simp] theorem closeHandle_junkScript (s : State) : (closeHandle s).junkScript = s.junkScript := rfl

@[simp] theorem openHandle_out (cfg : Cfg) (s : State) : (openHandle cfg s).out = s.out := rfl
@[simp] theorem openHandle_dir (cfg : Cfg) (s : State) : (openHandle cfg s).dir = s.dir := rfl
@[simp] theorem openHandle_life (cfg : Cfg) (s : State) : (openHandle cfg s).life = s.life := rfl
@[simp] theorem openHandle_phase (cfg : Cfg) (s : State) : (openHandle cfg s).phase = s.phase := rfl
@[simp] theorem openHandle_idx (cfg : Cfg) (s : State) : (openHandle cfg s).idx = s.idx := rfl
@[simp] theorem openHandle_cmd (cfg : Cfg) (s : State) : (openHandle cfg s).cmd = s.cmd := rfl
@[simp] theorem openHandle_resp (cfg : Cfg) (s : State) : (openHandle cfg s).resp = s.resp := rfl
@[simp] theorem openHandle_cfg (cfg : Cfg) (s : State) : (openHandle cfg s).cfg = cfg := rfl
@[simp] theorem openHandle_params (cfg : Cfg) (s : State) : (openHandle cfg s).params = s.params := rfl
@[simp] theorem openHandle_handle (cfg : Cfg) (s : State) :
    (openHandle cfg s).handle = some ⟨cfg.busIndex, cfg.devIndex, cfg.clockHz⟩ := rfl
@[simp] theorem openHandle_chip (cfg : Cfg) (s : State) : (openHandle cfg s).chip = s.chip := rfl
@[simp] theorem openHandle_pins (cfg : Cfg) (s : State) : (openHandle cfg s).pins = s.pins := rfl
@[simp] theorem openHandle_now (cfg : Cfg) (s : State) :
    (openHandle cfg s).now = s.now + (s.handleScript.head Config.freeHandle).time := rfl
@[simp] theorem openHandle_trace (cfg : Cfg) (s : State) :
    (openHandle cfg s).trace = s.trace ++ [.opened cfg.busIndex cfg.devIndex cfg.clockHz s.now
      (s.now + (s.handleScript.head Config.freeHandle).time)] := rfl
@[simp] theorem openHandle_host (cfg : Cfg) (s : State) : (openHandle cfg s).host = s.host := rfl
@[simp] theorem openHandle_responder (cfg : Cfg) (s : State) : (openHandle cfg s).responder = s.responder := rfl
@[simp] theorem openHandle_busScript (cfg : Cfg) (s : State) : (openHandle cfg s).busScript = s.busScript := rfl
@[simp] theorem openHandle_waitScript (cfg : Cfg) (s : State) : (openHandle cfg s).waitScript = s.waitScript := rfl
@[simp] theorem openHandle_worldScript (cfg : Cfg) (s : State) : (openHandle cfg s).worldScript = s.worldScript := rfl
@[simp] theorem openHandle_handleScript (cfg : Cfg) (s : State) :
    (openHandle cfg s).handleScript = s.handleScript.rest := rfl
@[simp] theorem openHandle_junkScript (cfg : Cfg) (s : State) : (openHandle cfg s).junkScript = s.junkScript := rfl

@[simp] theorem openFailed_out (cfg : Cfg) (s : State) : (openFailed cfg s).out = s.out := rfl
@[simp] theorem openFailed_dir (cfg : Cfg) (s : State) : (openFailed cfg s).dir = s.dir := rfl
@[simp] theorem openFailed_life (cfg : Cfg) (s : State) : (openFailed cfg s).life = s.life := rfl
@[simp] theorem openFailed_phase (cfg : Cfg) (s : State) : (openFailed cfg s).phase = s.phase := rfl
@[simp] theorem openFailed_idx (cfg : Cfg) (s : State) : (openFailed cfg s).idx = s.idx := rfl
@[simp] theorem openFailed_cmd (cfg : Cfg) (s : State) : (openFailed cfg s).cmd = s.cmd := rfl
@[simp] theorem openFailed_resp (cfg : Cfg) (s : State) : (openFailed cfg s).resp = s.resp := rfl
@[simp] theorem openFailed_cfg (cfg : Cfg) (s : State) : (openFailed cfg s).cfg = cfg := rfl
@[simp] theorem openFailed_params (cfg : Cfg) (s : State) : (openFailed cfg s).params = s.params := rfl
@[simp] theorem openFailed_handle (cfg : Cfg) (s : State) : (openFailed cfg s).handle = s.handle := rfl
@[simp] theorem openFailed_chip (cfg : Cfg) (s : State) : (openFailed cfg s).chip = s.chip := rfl
@[simp] theorem openFailed_pins (cfg : Cfg) (s : State) : (openFailed cfg s).pins = s.pins := rfl
@[simp] theorem openFailed_now (cfg : Cfg) (s : State) :
    (openFailed cfg s).now = s.now + (s.handleScript.head Config.freeHandle).time := rfl
@[simp] theorem openFailed_trace (cfg : Cfg) (s : State) : (openFailed cfg s).trace = s.trace := rfl
@[simp] theorem openFailed_host (cfg : Cfg) (s : State) : (openFailed cfg s).host = s.host := rfl
@[simp] theorem openFailed_responder (cfg : Cfg) (s : State) : (openFailed cfg s).responder = s.responder := rfl
@[simp] theorem openFailed_busScript (cfg : Cfg) (s : State) : (openFailed cfg s).busScript = s.busScript := rfl
@[simp] theorem openFailed_waitScript (cfg : Cfg) (s : State) : (openFailed cfg s).waitScript = s.waitScript := rfl
@[simp] theorem openFailed_worldScript (cfg : Cfg) (s : State) : (openFailed cfg s).worldScript = s.worldScript := rfl
@[simp] theorem openFailed_handleScript (cfg : Cfg) (s : State) :
    (openFailed cfg s).handleScript = s.handleScript.rest := rfl
@[simp] theorem openFailed_junkScript (cfg : Cfg) (s : State) : (openFailed cfg s).junkScript = s.junkScript := rfl

@[simp] theorem initState_out (s : State) : (initState s).out = ⟨Config.outInit, Config.outInit⟩ := rfl
@[simp] theorem initState_dir (s : State) : (initState s).dir = ⟨allOutputs s.params, allOutputs s.params⟩ := rfl
@[simp] theorem initState_life (s : State) : (initState s).life = .opened := rfl
@[simp] theorem initState_phase (s : State) : (initState s).phase = .idle := rfl
@[simp] theorem initState_idx (s : State) : (initState s).idx = 0 := rfl
@[simp] theorem initState_cmd (s : State) : (initState s).cmd = none := rfl
@[simp] theorem initState_resp (s : State) : (initState s).resp = s.resp := rfl
@[simp] theorem initState_cfg (s : State) : (initState s).cfg = s.cfg := rfl
@[simp] theorem initState_params (s : State) : (initState s).params = s.params := rfl
@[simp] theorem initState_handle (s : State) : (initState s).handle = s.handle := rfl
@[simp] theorem initState_chip (s : State) : (initState s).chip = s.chip := rfl
@[simp] theorem initState_pins (s : State) : (initState s).pins = s.pins := rfl
@[simp] theorem initState_now (s : State) : (initState s).now = s.now := rfl
@[simp] theorem initState_trace (s : State) : (initState s).trace = s.trace := rfl
@[simp] theorem initState_host (s : State) : (initState s).host = s.host := rfl
@[simp] theorem initState_responder (s : State) : (initState s).responder = s.responder := rfl
@[simp] theorem initState_busScript (s : State) : (initState s).busScript = s.busScript := rfl
@[simp] theorem initState_waitScript (s : State) : (initState s).waitScript = s.waitScript := rfl
@[simp] theorem initState_worldScript (s : State) : (initState s).worldScript = s.worldScript := rfl
@[simp] theorem initState_handleScript (s : State) : (initState s).handleScript = s.handleScript := rfl
@[simp] theorem initState_junkScript (s : State) : (initState s).junkScript = s.junkScript := rfl

@[simp] theorem failReset_out (e : Status) (s : State) :
    (failReset e s).out = (s.junkScript.head Config.freeCaches).out := rfl
@[simp] theorem failReset_dir (e : Status) (s : State) :
    (failReset e s).dir = (s.junkScript.head Config.freeCaches).dir := rfl
@[simp] theorem failReset_life (e : Status) (s : State) : (failReset e s).life = .closed := rfl
@[simp] theorem failReset_phase (e : Status) (s : State) : (failReset e s).phase = .idle := rfl
@[simp] theorem failReset_idx (e : Status) (s : State) : (failReset e s).idx = s.idx := rfl
@[simp] theorem failReset_cmd (e : Status) (s : State) : (failReset e s).cmd = none := rfl
@[simp] theorem failReset_resp (e : Status) (s : State) : (failReset e s).resp = ⟨e, 0#16⟩ := rfl
@[simp] theorem failReset_cfg (e : Status) (s : State) : (failReset e s).cfg = s.cfg := rfl
@[simp] theorem failReset_params (e : Status) (s : State) : (failReset e s).params = s.params := rfl
@[simp] theorem failReset_handle (e : Status) (s : State) : (failReset e s).handle = s.handle := rfl
@[simp] theorem failReset_chip (e : Status) (s : State) : (failReset e s).chip = s.chip := rfl
@[simp] theorem failReset_pins (e : Status) (s : State) : (failReset e s).pins = s.pins := rfl
@[simp] theorem failReset_now (e : Status) (s : State) : (failReset e s).now = s.now := rfl
@[simp] theorem failReset_trace (e : Status) (s : State) : (failReset e s).trace = s.trace := rfl
@[simp] theorem failReset_host (e : Status) (s : State) : (failReset e s).host = s.host := rfl
@[simp] theorem failReset_responder (e : Status) (s : State) : (failReset e s).responder = s.responder := rfl
@[simp] theorem failReset_busScript (e : Status) (s : State) : (failReset e s).busScript = s.busScript := rfl
@[simp] theorem failReset_waitScript (e : Status) (s : State) : (failReset e s).waitScript = s.waitScript := rfl
@[simp] theorem failReset_worldScript (e : Status) (s : State) : (failReset e s).worldScript = s.worldScript := rfl
@[simp] theorem failReset_handleScript (e : Status) (s : State) : (failReset e s).handleScript = s.handleScript := rfl
@[simp] theorem failReset_junkScript (e : Status) (s : State) : (failReset e s).junkScript = s.junkScript.rest := rfl

/-! ## The state before any reset -/

@[simp] theorem State.beforeReset_out (caches : CacheBytes) (resp : Resp) (cfg : Cfg) :
    (State.beforeReset caches resp cfg).out = caches.out := rfl
@[simp] theorem State.beforeReset_dir (caches : CacheBytes) (resp : Resp) (cfg : Cfg) :
    (State.beforeReset caches resp cfg).dir = caches.dir := rfl
@[simp] theorem State.beforeReset_life (caches : CacheBytes) (resp : Resp) (cfg : Cfg) :
    (State.beforeReset caches resp cfg).life = .closed := rfl
@[simp] theorem State.beforeReset_phase (caches : CacheBytes) (resp : Resp) (cfg : Cfg) :
    (State.beforeReset caches resp cfg).phase = .idle := rfl
@[simp] theorem State.beforeReset_idx (caches : CacheBytes) (resp : Resp) (cfg : Cfg) :
    (State.beforeReset caches resp cfg).idx = 0 := rfl
@[simp] theorem State.beforeReset_cmd (caches : CacheBytes) (resp : Resp) (cfg : Cfg) :
    (State.beforeReset caches resp cfg).cmd = none := rfl
@[simp] theorem State.beforeReset_resp (caches : CacheBytes) (resp : Resp) (cfg : Cfg) :
    (State.beforeReset caches resp cfg).resp = resp := rfl
@[simp] theorem State.beforeReset_cfg (caches : CacheBytes) (resp : Resp) (cfg : Cfg) :
    (State.beforeReset caches resp cfg).cfg = cfg := rfl
@[simp] theorem State.beforeReset_params (caches : CacheBytes) (resp : Resp) (cfg : Cfg) :
    (State.beforeReset caches resp cfg).params = Config.paramsP0 := rfl
@[simp] theorem State.beforeReset_handle (caches : CacheBytes) (resp : Resp) (cfg : Cfg) :
    (State.beforeReset caches resp cfg).handle = none := rfl
@[simp] theorem State.beforeReset_chip (caches : CacheBytes) (resp : Resp) (cfg : Cfg) :
    (State.beforeReset caches resp cfg).chip = [] := rfl
@[simp] theorem State.beforeReset_pins (caches : CacheBytes) (resp : Resp) (cfg : Cfg) :
    (State.beforeReset caches resp cfg).pins = ⟨0x00#8, 0x00#8⟩ := rfl
@[simp] theorem State.beforeReset_now (caches : CacheBytes) (resp : Resp) (cfg : Cfg) :
    (State.beforeReset caches resp cfg).now = 0 := rfl
@[simp] theorem State.beforeReset_trace (caches : CacheBytes) (resp : Resp) (cfg : Cfg) :
    (State.beforeReset caches resp cfg).trace = [] := rfl
@[simp] theorem State.beforeReset_host (caches : CacheBytes) (resp : Resp) (cfg : Cfg) :
    (State.beforeReset caches resp cfg).host = [] := rfl
@[simp] theorem State.beforeReset_responder (caches : CacheBytes) (resp : Resp) (cfg : Cfg) :
    (State.beforeReset caches resp cfg).responder = .free := rfl
@[simp] theorem State.beforeReset_busScript (caches : CacheBytes) (resp : Resp) (cfg : Cfg) :
    (State.beforeReset caches resp cfg).busScript = ⟨[], 0⟩ := rfl
@[simp] theorem State.beforeReset_waitScript (caches : CacheBytes) (resp : Resp) (cfg : Cfg) :
    (State.beforeReset caches resp cfg).waitScript = ⟨[], 0⟩ := rfl
@[simp] theorem State.beforeReset_worldScript (caches : CacheBytes) (resp : Resp) (cfg : Cfg) :
    (State.beforeReset caches resp cfg).worldScript = ⟨[], 0⟩ := rfl
@[simp] theorem State.beforeReset_handleScript (caches : CacheBytes) (resp : Resp) (cfg : Cfg) :
    (State.beforeReset caches resp cfg).handleScript = ⟨[], 0⟩ := rfl
@[simp] theorem State.beforeReset_junkScript (caches : CacheBytes) (resp : Resp) (cfg : Cfg) :
    (State.beforeReset caches resp cfg).junkScript = ⟨[], 0⟩ := rfl

end Sys2Proof.Machine
end

