-- ==== Sys2Proof/Laws/Ops.lean ====
section
/-! SUPPORT. For each shared operation one lemma that says all it can do; a proof about an instruction cites these
instead of unfolding the operation. -/

namespace Sys2Proof.Machine

@[simp] theorem conclude_ok (v : Half) (s : State) : conclude (.ok v s) = endCommand .ok v s := rfl
@[simp] theorem conclude_err (e : Status) (s : State) : conclude (.err e s) = endCommand e 0#16 s := rfl
@[simp] theorem orRaise_ok {α : Type} (k : Half) (go : State → State) (a : α) (s : State) :
    orRaise k go (.ok a s) = go s := rfl
@[simp] theorem orRaise_err {α : Type} (k : Half) (go : State → State) (e : Status) (s : State) :
    orRaise k go (.err e s : Done α) = endCommand e k s := rfl

/-- The guard lets a command pass exactly when the session is open and its operands are in range
(41_pin_ops.md R130). -/
theorem cmdGuard_ok_iff (s : State) (port : BitVec 4) (pin : Option (BitVec 4)) (value : Option Half) (p : Port) :
    cmdGuard s port pin value = .ok p ↔
      s.life = .opened ∧ portOf port = some p ∧ pinOutOfRange pin = false ∧ valueOutOfRange value = false := by
  unfold cmdGuard
  rcases hl : s.life with _ | _ <;> rcases hp : portOf port with _ | q <;>
    rcases h1 : pinOutOfRange pin with _ | _ <;> rcases h2 : valueOutOfRange value with _ | _ <;> simp

/-- The guard's errors: the closed one first (41_pin_ops.md R130, 60_exceptions.md R206). -/
theorem cmdGuard_error (s : State) (port : BitVec 4) (pin : Option (BitVec 4)) (value : Option Half) (e : Status)
    (h : cmdGuard s port pin value = .error e) :
    (s.life = .closed ∧ e = .sessionClosedError) ∨
    (s.life = .opened ∧ e = .validationError ∧
      (portOf port = none ∨ pinOutOfRange pin = true ∨ valueOutOfRange value = true)) := by
  unfold cmdGuard at h
  rcases hl : s.life with _ | _ <;> rcases hp : portOf port with _ | q <;>
    rcases h1 : pinOutOfRange pin with _ | _ <;> rcases h2 : valueOutOfRange value with _ | _ <;>
    simp_all

theorem cmdGuard_closed (s : State) (port : BitVec 4) (pin : Option (BitVec 4)) (value : Option Half)
    (h : s.life = .closed) : cmdGuard s port pin value = .error .sessionClosedError := by
  simp [cmdGuard, h]

theorem cmdGuard_bad (s : State) (port : BitVec 4) (pin : Option (BitVec 4)) (value : Option Half)
    (h : s.life = .opened)
    (hb : portOf port = none ∨ pinOutOfRange pin = true ∨ valueOutOfRange value = true) :
    cmdGuard s port pin value = .error .validationError := by
  unfold cmdGuard
  rcases hp : portOf port with _ | q
  · simp [h]
  · rcases hb with hb | hb | hb <;> simp_all

/-- A transfer answers response byte 2 or BusError, and leaves the same state either way (40_bus_transaction.md
R110). -/
theorem busXfer_cases (tx : Frame) (s : State) :
    (∃ rx, answerBytes (busAnswer s tx) = some rx ∧ busXfer tx s = .ok rx.b2 (afterXfer s tx)) ∨
    (answerBytes (busAnswer s tx) = none ∧ busXfer tx s = .err .busError (afterXfer s tx)) := by
  unfold busXfer
  rcases h : answerBytes (busAnswer s tx) with _ | rx <;> simp

theorem writeReg_ok (reg v : Byte) (s : State) (rx : Frame)
    (h : answerBytes (busAnswer s (busFrame s.cfg false reg v)) = some rx) :
    writeReg reg v s = .ok 0#16 (afterXfer s (busFrame s.cfg false reg v)) := by
  simp [writeReg, busXfer, h]

theorem writeReg_fail (reg v : Byte) (s : State)
    (h : answerBytes (busAnswer s (busFrame s.cfg false reg v)) = none) :
    writeReg reg v s = .err .busError (afterXfer s (busFrame s.cfg false reg v)) := by
  simp [writeReg, busXfer, h]

theorem readReg_ok (reg : Byte) (s : State) (rx : Frame)
    (h : answerBytes (busAnswer s (busFrame s.cfg true reg s.params.readFill)) = some rx) :
    readReg reg s = .ok (rx.b2.setWidth 16) (afterXfer s (busFrame s.cfg true reg s.params.readFill)) := by
  simp [readReg, busXfer, h]

theorem readReg_fail (reg : Byte) (s : State)
    (h : answerBytes (busAnswer s (busFrame s.cfg true reg s.params.readFill)) = none) :
    readReg reg s = .err .busError (afterXfer s (busFrame s.cfg true reg s.params.readFill)) := by
  simp [readReg, busXfer, h]

/-- A register write of the block is one transfer, and its result is nothing or BusError (R112). -/
theorem writeReg_cases (reg v : Byte) (s : State) :
    (∃ rx, answerBytes (busAnswer s (busFrame s.cfg false reg v)) = some rx ∧
      writeReg reg v s = .ok 0#16 (afterXfer s (busFrame s.cfg false reg v))) ∨
    (answerBytes (busAnswer s (busFrame s.cfg false reg v)) = none ∧
      writeReg reg v s = .err .busError (afterXfer s (busFrame s.cfg false reg v))) := by
  rcases h : answerBytes (busAnswer s (busFrame s.cfg false reg v)) with _ | rx
  · exact .inr ⟨rfl, writeReg_fail reg v s h⟩
  · exact .inl ⟨rx, rfl, writeReg_ok reg v s rx h⟩

/-- A write of an output register updates the output cache on success only (41_pin_ops.md R138). -/
theorem writeOut_cases (p : Port) (v : Byte) (s : State) :
    (∃ rx, answerBytes (busAnswer s (busFrame s.cfg false (regAddr s.params .out p) v)) = some rx ∧
      writeOut p v s = .ok 0#16
        { afterXfer s (busFrame s.cfg false (regAddr s.params .out p) v) with out := withPort s.out p v }) ∨
    (answerBytes (busAnswer s (busFrame s.cfg false (regAddr s.params .out p) v)) = none ∧
      writeOut p v s = .err .busError (afterXfer s (busFrame s.cfg false (regAddr s.params .out p) v))) := by
  rcases writeReg_cases (regAddr s.params .out p) v s with ⟨rx, h, hw⟩ | ⟨h, hw⟩
  · exact .inl ⟨rx, h, by simp [writeOut, hw]⟩
  · exact .inr ⟨h, by simp [writeOut, hw]⟩

/-- A write of a direction register updates the direction cache on success only (41_pin_ops.md R138). -/
theorem writeDir_cases (p : Port) (v : Byte) (s : State) :
    (∃ rx, answerBytes (busAnswer s (busFrame s.cfg false (regAddr s.params .dir p) v)) = some rx ∧
      writeDir p v s = .ok 0#16
        { afterXfer s (busFrame s.cfg false (regAddr s.params .dir p) v) with dir := withPort s.dir p v }) ∨
    (answerBytes (busAnswer s (busFrame s.cfg false (regAddr s.params .dir p) v)) = none ∧
      writeDir p v s = .err .busError (afterXfer s (busFrame s.cfg false (regAddr s.params .dir p) v))) := by
  rcases writeReg_cases (regAddr s.params .dir p) v s with ⟨rx, h, hw⟩ | ⟨h, hw⟩
  · exact .inl ⟨rx, h, by simp [writeDir, hw]⟩
  · exact .inr ⟨h, by simp [writeDir, hw]⟩

/-- All that `set_pin` can do (41_pin_ops.md R131): its guard's error with nothing changed, or one write of the byte
with the one bit changed, with the cache updated on success only. -/
theorem setPinOp_cases (port pin : BitVec 4) (level : Bool) (s : State) :
    (∃ e, cmdGuard s port (some pin) none = .error e ∧ setPinOp port pin level s = .err e s) ∨
    (∃ p, cmdGuard s port (some pin) none = .ok p ∧
      setPinOp port pin level s = writeOut p (withPin (perPort s.out p) pin level) s) := by
  rcases h : cmdGuard s port (some pin) none with e | p
  · exact .inl ⟨e, rfl, by simp [setPinOp, h]⟩
  · exact .inr ⟨p, rfl, by simp [setPinOp, h]⟩

/-- All that a wait can do (60_exceptions.md R220, R212): end by ABORT, or end not earlier than asked. -/
theorem waitThen_cases (d : Word) (k : Half) (go : State → State) (s : State) :
    (s.params.allowAbort = true ∧ (s.waitScript.head Config.freeWait).abort = true ∧
      waitThen d k go s = endCommand .aborted k
        { s with
          now := s.now + (s.waitScript.head Config.freeWait).cut
          waitScript := s.waitScript.rest }) ∨
    ((s.params.allowAbort && (s.waitScript.head Config.freeWait).abort) = false ∧
      waitThen d k go s = go
        { s with
          now := s.now + d.toNat + (s.waitScript.head Config.freeWait).slack
          trace := s.trace ++ [.wait d s.now (s.now + d.toNat + (s.waitScript.head Config.freeWait).slack)]
          waitScript := s.waitScript.rest }) := by
  unfold waitThen
  rcases s.params.allowAbort with _ | _ <;> rcases (s.waitScript.head Config.freeWait).abort with _ | _ <;> simp

/-- A coordinate resolves to an entry of the table within its dimensions, or it is a ValidationError (43_matrix_map.md
R170). -/
theorem resolveCoord_cases (cfg : Cfg) (row col : BitVec 8) :
    (∃ port pin, row.toNat < cfg.numRows ∧ col.toNat < cfg.numCols ∧
      mapEntry cfg row.toNat col.toNat = some (port, pin) ∧ resolveCoord cfg row col = .ok (port, pin)) ∨
    resolveCoord cfg row col = .error .validationError := by
  unfold resolveCoord
  split
  · exact .inr rfl
  · next h =>
    push Not at h
    rcases hm : mapEntry cfg row.toNat col.toNat with _ | ⟨port, pin⟩
    · exact .inr rfl
    · exact .inl ⟨port, pin, h.1, h.2, rfl, rfl⟩

/-- Closing leaves the session closed and no handle held, whatever it was (44_matrix_session.md R186), given that a
closed session holds none. -/
theorem closeIfOpen_cases (s : State) :
    (s.life = .opened ∧ closeIfOpen s = closeHandle s) ∨ (s.life = .closed ∧ closeIfOpen s = s) := by
  unfold closeIfOpen
  rcases s.life with _ | _ <;> simp

@[simp] theorem closeIfOpen_life (s : State) : (closeIfOpen s).life = .closed := by
  rcases closeIfOpen_cases s with ⟨h, h'⟩ | ⟨h, h'⟩ <;> simp [h', h]

/-- All that a construction can do (70_reset_and_hazards.md R240): refuse the table, fail to open, or open and go on
with the initial register writes. -/
theorem construct_cases (cfg : Cfg) (s : State) :
    (tableOk cfg = false ∧ construct cfg s = failReset .validationError s) ∨
    (tableOk cfg = true ∧ (s.handleScript.head Config.freeHandle).ok = false ∧
      construct cfg s = failReset .busError (openFailed cfg (worldMove s))) ∨
    (tableOk cfg = true ∧ (s.handleScript.head Config.freeHandle).ok = true ∧
      construct cfg s = finishReset (initState (openHandle cfg (worldMove s)))) := by
  unfold construct
  rcases tableOk cfg with _ | _ <;> rcases (s.handleScript.head Config.freeHandle).ok with _ | _ <;> simp

/-- The end of a construction (R240): all initial writes succeeded, or the first failing one closes the handle. -/
theorem finishReset_cases (s : State) :
    (∃ v s', sendInitFrames s.params.initFrames s = .ok v s' ∧ finishReset s = { s' with resp := ⟨.ok, 0#16⟩ }) ∨
    (∃ e s', sendInitFrames s.params.initFrames s = .err e s' ∧
      finishReset s = failReset e (closeHandle (worldMove s'))) := by
  rcases h : sendInitFrames s.params.initFrames s with ⟨v, s'⟩ | ⟨e, s'⟩
  · exact .inl ⟨v, s', rfl, by simp [finishReset, h]⟩
  · exact .inr ⟨e, s', rfl, by simp [finishReset, h]⟩

/-- The initial register writes of a reset are transfers one after the other, each after a move of the outside world,
up to the first that fails (R240): what every transfer and every such move does, transitively, they do. -/
theorem sendInitFrames_relation (R : State → State → Prop) (hr : ∀ s, R s s)
    (ht : ∀ s t u, R s t → R t u → R s u)
    (hw : ∀ s, R s (worldMove s)) (hx : ∀ s tx, R s (afterXfer s tx)) (fs : List InitFrame) (s : State) :
    (∃ v t, sendInitFrames fs s = .ok v t ∧ R s t) ∨
      (∃ t, sendInitFrames fs s = .err .busError t ∧ R s t) := by
  induction fs generalizing s with
  | nil => exact .inl ⟨_, _, rfl, hr s⟩
  | cons f rest ih =>
    unfold sendInitFrames
    have hwx : ∀ tx, R s (afterXfer (worldMove s) tx) := fun tx => ht _ _ _ (hw s) (hx _ tx)
    rcases writeReg_cases (regAddr s.params f.kind f.port) f.value (worldMove s) with ⟨rx, _, h⟩ | ⟨_, h⟩ <;> rw [h]
    · rcases ih (afterXfer (worldMove s) (busFrame s.cfg false (regAddr s.params f.kind f.port) f.value)) with
        ⟨v, t, h, hR⟩ | ⟨t, h, hR⟩
      · exact .inl ⟨v, t, h, ht _ _ _ (hwx _) hR⟩
      · exact .inr ⟨t, h, ht _ _ _ (hwx _) hR⟩
    · exact .inr ⟨_, rfl, hwx _⟩

/-- The fields of an opcode (30_encoding.md R81, R82). -/
theorem opcode_fields :
    ∀ (h : BitVec 3) (r : Bool),
      (opcode h r).extractLsb' 4 4 = 4#4 ∧ (opcode h r).extractLsb' 1 3 = h ∧ (opcode h r).getLsbD 0 = r := by
  decide

end Sys2Proof.Machine
end

