-- ==== Sys2Proof/Laws/Exec.lean ====
section
/-! SUPPORT. What a micro-step of an instruction can do, said once: every next state of `exec` has one of the shapes
below. An invariant or a whole-machine rule is then a short case analysis. -/

namespace Sys2Proof.Machine

/-- The commands that write the direction cache (10_state.md R35). -/
def writesDir : Instr → Bool
  | .configurePinMode _ _ _ => true
  | _ => false

/-- The commands that write the output cache (10_state.md R35). -/
def writesOut : Instr → Bool
  | .setPin _ _ _ => true
  | .togglePin _ _ => true
  | .setPort _ _ => true
  | .pulsePin _ _ _ _ => true
  | .press _ _ _ => true
  | .pressSeq _ _ _ => true
  | _ => false

/-- The next states of the micro-step of the instruction `i` from `s`. -/
inductive Shape (i : Instr) (s : State) : State → Prop
  /-- A command that takes several steps is accepted. -/
  | latched (n : Nat) (hp : s.phase = .idle) (hm : multiStep i = true) :
      Shape i s { s with cmd := some i, phase := .assert, idx := n }
  /-- The command ends without a transfer and without a wait. -/
  | quiet (e : Status) (v : Half) (n : Nat) (hb : e ≠ .busError) (ha : e ≠ .aborted) (hn : e ≠ .ok → n = s.idx) :
      Shape i s (endCommand e v { s with idx := n })
  /-- CLEANUP releases the handle. -/
  | cleaned (hi : i = .cleanup) (ho : s.life = .opened) : Shape i s (endCommand .ok 0#16 (closeHandle s))
  /-- The command ends with a successful transfer. -/
  | sent (r : Bool) (reg v : Byte) (rx : Frame) (val : Half) (out dir : PerPort) (ho : s.life = .opened)
      (hr : reg ∈ regAddrs s.params) (hv : r = true → v = s.params.readFill ∧ out = s.out ∧ dir = s.dir)
      (hd : writesDir i = false → dir = s.dir) (hw : writesOut i = false → out = s.out)
      (ha : answerBytes (busAnswer s (busFrame s.cfg r reg v)) = some rx) :
      Shape i s (endCommand .ok val { afterXfer s (busFrame s.cfg r reg v) with out := out, dir := dir })
  /-- The command goes on after a successful transfer: HOLD after ASSERT, GAP after RELEASE. -/
  | sentOn (reg v : Byte) (rx : Frame) (out : PerPort) (ph : Phase) (hw : writesOut i = true) (ho : s.life = .opened)
      (hr : reg ∈ regAddrs s.params) (ha : answerBytes (busAnswer s (busFrame s.cfg false reg v)) = some rx)
      (hp : (s.phase = .assert ∧ ph = .hold) ∨ (s.phase = .release ∧ ph = .gap)) :
      Shape i s { afterXfer s (busFrame s.cfg false reg v) with out := out, phase := ph }
  /-- A transfer fails and the command ends with BusError. -/
  | failed (r : Bool) (reg v : Byte) (k : Half) (ho : s.life = .opened) (hr : reg ∈ regAddrs s.params)
      (hv : r = true → v = s.params.readFill) (ha : answerBytes (busAnswer s (busFrame s.cfg r reg v)) = none) :
      Shape i s (endCommand .busError k (afterXfer s (busFrame s.cfg r reg v)))
  /-- A wait ends: RELEASE after HOLD, the next ASSERT after GAP. -/
  | waited (d : Word) (slack n : Nat) (ph : Phase)
      (hp : (s.phase = .hold ∧ ph = .release ∧ n = s.idx) ∨ (s.phase = .gap ∧ ph = .assert ∧ n = s.idx + 1)) :
      Shape i s { s with
        now := s.now + d.toNat + slack
        trace := s.trace ++ [.wait d s.now (s.now + d.toNat + slack)]
        waitScript := s.waitScript.rest, phase := ph, idx := n }
  /-- ABORT cuts a wait short. -/
  | cut (k : Half) (n : Nat) (hp : s.phase = .hold ∨ s.phase = .gap) (hl : s.params.allowAbort = true) :
      Shape i s (endCommand .aborted k { s with now := s.now + n, waitScript := s.waitScript.rest })

theorem regAddr_mem (params : Params) (k : RegKind) (p : Port) : regAddr params k p ∈ regAddrs params := by
  cases k <;> cases p <;> simp [regAddrs]

/-- An error of the guard is neither BusError nor Aborted nor OK. -/
theorem cmdGuard_error_kind {s : State} {port : BitVec 4} {pin : Option (BitVec 4)} {value : Option Half} {e : Status}
    (h : cmdGuard s port pin value = .error e) : e ≠ .busError ∧ e ≠ .aborted := by
  rcases cmdGuard_error s port pin value e h with ⟨_, rfl⟩ | ⟨_, rfl, _⟩ <;> simp

/-- A guard that passes says the session is open. -/
theorem cmdGuard_opened {s : State} {port : BitVec 4} {pin : Option (BitVec 4)} {value : Option Half} {p : Port}
    (h : cmdGuard s port pin value = .ok p) : s.life = .opened := ((cmdGuard_ok_iff ..).mp h).1

theorem shape_quiet {i : Instr} {s : State} {e : Status} (v : Half) (hb : e ≠ .busError) (ha : e ≠ .aborted) :
    Shape i s (endCommand e v s) := Shape.quiet e v s.idx hb ha fun _ => rfl

/-- A write of an output register that ends the command. -/
theorem shape_writeOut {i : Instr} {s : State}
    (hi : writesOut i = true) (p : Port) (v : Byte) (val : Half) (k : Half) (ho : s.life = .opened) :
    Shape i s (orRaise k (endCommand .ok val) (writeOut p v s)) := by
  rcases writeOut_cases p v s with ⟨rx, ha, hw⟩ | ⟨ha, hw⟩ <;> rw [hw]
  · exact Shape.sent false _ v rx val _ s.dir ho (regAddr_mem ..) (by simp) (fun _ => rfl) (by simp [hi]) ha
  · exact Shape.failed false _ v k ho (regAddr_mem ..) (by simp) ha

/-- `set_pin` as the end of a command. -/
theorem shape_setPin_end {i : Instr} {s : State}
    (hi : writesOut i = true) (port pin : BitVec 4) (level : Bool) (val k : Half) :
    Shape i s (orRaise k (endCommand .ok val) (setPinOp port pin level s)) := by
  rcases setPinOp_cases port pin level s with ⟨e, hg, h⟩ | ⟨p, hg, h⟩ <;> rw [h]
  · exact shape_quiet k (cmdGuard_error_kind hg).1 (cmdGuard_error_kind hg).2
  · exact shape_writeOut hi p _ val k (cmdGuard_opened hg)

/-- `set_pin` as a step after which the command goes on. -/
theorem shape_setPin_on {i : Instr} {s : State}
    (hi : writesOut i = true) (port pin : BitVec 4) (level : Bool) (k : Half) (ph : Phase)
    (hp : (s.phase = .assert ∧ ph = .hold) ∨ (s.phase = .release ∧ ph = .gap)) :
    Shape i s (orRaise k (fun u => { u with phase := ph }) (setPinOp port pin level s)) := by
  rcases setPinOp_cases port pin level s with ⟨e, hg, h⟩ | ⟨p, hg, h⟩ <;> rw [h]
  · exact shape_quiet k (cmdGuard_error_kind hg).1 (cmdGuard_error_kind hg).2
  · rcases writeOut_cases p (withPin (perPort s.out p) pin level) s with ⟨rx, ha, hw⟩ | ⟨ha, hw⟩ <;> rw [hw]
    · exact Shape.sentOn _ _ rx _ ph hi (cmdGuard_opened hg) (regAddr_mem ..) ha hp
    · exact Shape.failed false _ _ k (cmdGuard_opened hg) (regAddr_mem ..) (by simp) ha

/-- A register read that ends the command. -/
theorem shape_readReg {i : Instr} {s : State} (reg : Byte) (ho : s.life = .opened) (hr : reg ∈ regAddrs s.params) :
    Shape i s (conclude (readReg reg s)) := by
  rcases h : answerBytes (busAnswer s (busFrame s.cfg true reg s.params.readFill)) with _ | rx
  · rw [readReg_fail reg s h]; exact Shape.failed true reg _ _ ho hr (fun _ => rfl) h
  · rw [readReg_ok reg s rx h]; exact Shape.sent true reg _ rx _ s.out s.dir ho hr (fun _ => ⟨rfl, rfl, rfl⟩) (fun _ => rfl) (fun _ => rfl) h

/-- A register write that ends the command. -/
theorem shape_writeReg {i : Instr} {s : State} (reg v : Byte) (ho : s.life = .opened) (hr : reg ∈ regAddrs s.params) :
    Shape i s (conclude (writeReg reg v s)) := by
  rcases writeReg_cases reg v s with ⟨rx, h, hw⟩ | ⟨h, hw⟩ <;> rw [hw]
  · exact Shape.sent false reg v rx _ s.out s.dir ho hr (by simp) (fun _ => rfl) (fun _ => rfl) h
  · exact Shape.failed false reg v _ ho hr (by simp) h

/-- A wait that goes on with the phase `ph` and the index `n`. -/
theorem shape_wait {i : Instr} {s : State} (d : Word) (k : Half) (go : State → State) (ph : Phase) (n : Nat)
    (hp : (s.phase = .hold ∧ ph = .release ∧ n = s.idx) ∨ (s.phase = .gap ∧ ph = .assert ∧ n = s.idx + 1))
    (hg : ∀ u : State, u.idx = s.idx → go u = { u with phase := ph, idx := n }) :
    Shape i s (waitThen d k go s) := by
  rcases waitThen_cases d k go s with ⟨hl, _, h⟩ | ⟨_, h⟩ <;> rw [h]
  · exact Shape.cut k _ (hp.imp (·.1) (·.1)) hl
  · rw [hg _ (by rfl)]; exact Shape.waited d _ n ph hp

/-- The HOLD step. -/
theorem shape_hold {i : Instr} {s : State} (d : Word) (k : Half) (hp : s.phase = .hold) : Shape i s (pulseHold d k s) :=
  shape_wait d k _ .release s.idx (.inl ⟨hp, rfl, rfl⟩) fun u hu => by rw [← hu]

/-- The errors of a lookup are ValidationErrors. -/
theorem resolveCoord_error {cfg : Cfg} {row col : BitVec 8} {e : Status} (h : resolveCoord cfg row col = .error e) :
    e = .validationError := by
  rcases resolveCoord_cases cfg row col with ⟨_, _, _, _, _, h'⟩ | h' <;> rw [h'] at h <;> cases h
  rfl

/-- The ASSERT step of a press. -/
theorem shape_pressAssert {i : Instr} {s : State}
    (hi : writesOut i = true) (row col : BitVec 8) (k : Half) (hp : s.phase = .assert) :
    Shape i s (pressAssert row col k s) := by
  unfold pressAssert
  split
  · exact shape_quiet k (by simp) (by simp)
  · rcases h : resolveCoord s.cfg row col with e | ⟨port, pin⟩
    · cases resolveCoord_error h; exact shape_quiet k (by simp) (by simp)
    · exact shape_setPin_on hi port pin true k .hold (.inl ⟨hp, rfl⟩)

/-- `set_pin` at the end of a press of a sequence. -/
theorem shape_setPin_after {i : Instr} {s : State}
    (hi : writesOut i = true) (port pin : BitVec 4) (level : Bool) (k : Half) (n : Nat)
    (hp : s.phase = .release) :
    Shape i s (orRaise k (afterPress n) (setPinOp port pin level s)) := by
  by_cases hn : s.idx + 1 < n
  · have : orRaise k (afterPress n) (setPinOp port pin level s) =
        orRaise k (fun u => { u with phase := .gap }) (setPinOp port pin level s) := by
      rcases setPinOp_cases port pin level s with ⟨e, _, h⟩ | ⟨p, _, h⟩ <;> rw [h]
      · rfl
      · rcases writeOut_cases p (withPin (perPort s.out p) pin level) s with ⟨rx, _, hw⟩ | ⟨_, hw⟩ <;> rw [hw]
        · simp [afterPress, hn]
        · rfl
    rw [this]
    exact shape_setPin_on hi port pin level k .gap (.inr ⟨hp, rfl⟩)
  · have : orRaise k (afterPress n) (setPinOp port pin level s) =
        orRaise k (endCommand .ok (countValue (s.idx + 1))) (setPinOp port pin level s) := by
      rcases setPinOp_cases port pin level s with ⟨e, _, h⟩ | ⟨p, _, h⟩ <;> rw [h]
      · rfl
      · rcases writeOut_cases p (withPin (perPort s.out p) pin level) s with ⟨rx, _, hw⟩ | ⟨_, hw⟩ <;> rw [hw]
        · simp [afterPress, hn]
        · rfl
    rw [this]
    exact shape_setPin_end hi port pin level _ k

/-- A frame as an instruction: refused by the closed test or the RegisterMap, or the access. -/
theorem shape_frameOp {i : Instr} {s : State} (reg : Byte) (access : State → Done Half)
    (h : s.life = .opened → reg ∈ regAddrs s.params → Shape i s (conclude (access s))) :
    Shape i s (conclude (frameOp reg access s)) := by
  unfold frameOp
  split
  · exact shape_quiet 0#16 (by simp) (by simp)
  · next hl =>
    split
    · next hr => exact h (by rcases hl' : s.life with _ | _ <;> simp_all) hr
    · exact shape_quiet 0#16 (by simp) (by simp)

/-- Every next state of an instruction's micro-step has one of the shapes. -/
theorem exec_shape {i : Instr} {s t : State} (h : exec i s = .next t) : Shape i s t := by
  cases i with
  | regWrite a reg v => cases h; exact shape_frameOp reg _ (shape_writeReg reg v)
  | regRead a reg v => cases h; exact shape_frameOp reg _ (shape_readReg reg)
  | setPin port pin level =>
    cases h
    have : conclude (setPinOp port pin level s) = orRaise 0#16 (endCommand .ok 0#16) (setPinOp port pin level s) := by
      rcases setPinOp_cases port pin level s with ⟨e, _, h⟩ | ⟨p, _, h⟩ <;> rw [h]
      · rfl
      · rcases writeOut_cases p (withPin (perPort s.out p) pin level) s with ⟨rx, _, hw⟩ | ⟨_, hw⟩ <;> rw [hw] <;> rfl
    rw [this]
    exact shape_setPin_end rfl port pin level _ _
  | togglePin port pin =>
    cases h
    unfold togglePinOp
    rcases hg : cmdGuard s port (some pin) none with e | p
    · exact shape_quiet 0#16 (cmdGuard_error_kind hg).1 (cmdGuard_error_kind hg).2
    · simp only [setPinOp, hg]
      rcases writeOut_cases p (withPin (perPort s.out p) pin (!pinBit (perPort s.out p) pin)) s with
        ⟨rx, ha, hw⟩ | ⟨ha, hw⟩ <;> rw [hw]
      · exact Shape.sent false _ _ rx _ _ s.dir (cmdGuard_opened hg) (regAddr_mem ..) (by simp) (fun _ => rfl) (by simp [writesOut]) ha
      · exact Shape.failed false _ _ _ (cmdGuard_opened hg) (regAddr_mem ..) (by simp) ha
  | setPort port value =>
    cases h
    unfold setPortOp
    rcases hg : cmdGuard s port none (some value) with e | p
    · exact shape_quiet 0#16 (cmdGuard_error_kind hg).1 (cmdGuard_error_kind hg).2
    · dsimp only
      rcases writeOut_cases p (value.setWidth 8) s with ⟨rx, ha, hw⟩ | ⟨ha, hw⟩ <;> rw [hw]
      · exact Shape.sent false _ _ rx _ _ s.dir (cmdGuard_opened hg) (regAddr_mem ..) (by simp) (fun _ => rfl) (by simp [writesOut]) ha
      · exact Shape.failed false _ _ _ (cmdGuard_opened hg) (regAddr_mem ..) (by simp) ha
  | getPortState port =>
    cases h
    unfold getPortStateOp
    rcases hg : cmdGuard s port none none with e | p
    · exact shape_quiet 0#16 (cmdGuard_error_kind hg).1 (cmdGuard_error_kind hg).2
    · exact shape_quiet _ (by simp) (by simp)
  | configurePinMode port pin isOutput =>
    cases h
    unfold configurePinModeOp
    rcases hg : cmdGuard s port (some pin) none with e | p
    · exact shape_quiet 0#16 (cmdGuard_error_kind hg).1 (cmdGuard_error_kind hg).2
    · dsimp only
      rcases writeDir_cases p (withPin (perPort s.dir p) pin (directionBit s.params isOutput)) s with
        ⟨rx, ha, hw⟩ | ⟨ha, hw⟩ <;> rw [hw]
      · exact Shape.sent false _ _ rx _ s.out _ (cmdGuard_opened hg) (regAddr_mem ..) (by simp) (by simp [writesDir]) (fun _ => rfl) ha
      · exact Shape.failed false _ _ _ (cmdGuard_opened hg) (regAddr_mem ..) (by simp) ha
  | readPortInput port =>
    cases h
    unfold readPortInputOp
    rcases hg : cmdGuard s port none none with e | p
    · exact shape_quiet 0#16 (cmdGuard_error_kind hg).1 (cmdGuard_error_kind hg).2
    · exact shape_readReg _ (cmdGuard_opened hg) (regAddr_mem ..)
  | pulsePin port pin active d =>
    simp only [exec, execPulsePin] at h
    split at h <;> cases h
    · next hp => exact Shape.latched s.idx hp rfl
    · next hp => exact shape_setPin_on rfl port pin active _ .hold (.inl ⟨hp, rfl⟩)
    · next hp => exact shape_hold d _ hp
    · exact shape_setPin_end rfl port pin _ _ _
  | resolve row col =>
    cases h
    unfold resolveOp
    rcases hr : resolveCoord s.cfg row col with e | ⟨port, pin⟩
    · cases resolveCoord_error hr; exact shape_quiet _ (by simp) (by simp)
    · exact shape_quiet _ (by simp) (by simp)
  | press row col d =>
    simp only [exec, execPress] at h
    split at h <;> cases h
    · next hp => exact Shape.latched s.idx hp rfl
    · next hp => exact shape_pressAssert rfl row col _ hp
    · next hp => exact shape_hold d _ hp
    · unfold pressRelease
      rcases hr : resolveCoord s.cfg row col with e | ⟨port, pin⟩
      · cases resolveCoord_error hr; exact shape_quiet _ (by simp) (by simp)
      · exact shape_setPin_end rfl port pin _ _ _
  | pressSeq coords d ivl =>
    simp only [exec, execPressSeq] at h
    split at h
    · next hp =>
      split at h <;> cases h
      · exact Shape.quiet .ok _ 0 (by simp) (by simp) (by simp)
      · exact Shape.latched 0 hp rfl
    · next hp =>
      split at h <;> cases h
      exact shape_pressAssert rfl _ _ _ hp
    · next hp => cases h; exact shape_hold d _ hp
    · next hp =>
      split at h <;> cases h
      next c _ =>
      unfold pressRelease
      rcases hr : resolveCoord s.cfg c.row c.col with e | ⟨port, pin⟩
      · cases resolveCoord_error hr; exact shape_quiet _ (by simp) (by simp)
      · exact shape_setPin_after rfl port pin _ _ _ hp
    · next hp =>
      cases h
      exact shape_wait ivl _ nextCoord .assert (s.idx + 1) (.inr ⟨hp, rfl, rfl⟩) fun u hu => by
        unfold nextCoord; rw [hu]
  | cleanup =>
    cases h
    rcases closeIfOpen_cases s with ⟨ho, h⟩ | ⟨_, h⟩ <;> rw [h]
    · exact Shape.cleaned rfl ho
    · exact shape_quiet _ (by simp) (by simp)
  | reserved0 => cases h; exact shape_quiet _ (by simp) (by simp)
  | reservedC => cases h; exact shape_quiet _ (by simp) (by simp)
  | reservedD => cases h; exact shape_quiet _ (by simp) (by simp)
  | reservedE => cases h; exact shape_quiet _ (by simp) (by simp)
  | reservedF => cases h; exact shape_quiet _ (by simp) (by simp)

/-- A transfer of the block does what `transferred` says (40_bus_transaction.md R110, 10_state.md R31). -/
theorem transferred_afterXfer (s : State) (r : Bool) (reg v : Byte) :
    transferred ⟨opcode s.cfg.hwAddr r, reg, v⟩ s (afterXfer s ⟨opcode s.cfg.hwAddr r, reg, v⟩) := by
  obtain ⟨h1, h2, h3⟩ := opcode_fields s.cfg.hwAddr r
  refine ⟨rfl, by simp, ?_, ?_, ?_, ?_⟩
  · intro a ha
    simp only [afterXfer_chip, chipAfter]
    split
    · exact Memory.read_write_other _ _ _ _ ha
    · rfl
  · intro h
    simp only [afterXfer_chip, chipAfter]
    simp [h]
  · intro rx h hb
    simp only [afterXfer_chip, chipAfter, addressed, hb, h]
    simp [h1, h2, answerTaken]
  · intro h hb
    simp only [afterXfer_chip, chipAfter, addressed, h]
    rcases hx : busAnswer s ⟨opcode s.cfg.hwAddr r, reg, v⟩ with _ | _ | l <;> simp [hx, answerBytes] at hb
    cases l <;> simp [h1, h2, answerTaken]

end Sys2Proof.Machine
end

