-- ==== Sys2Proof/Laws/PerInstr.lean ====
section
/-! SUPPORT. The family EncodedLength: the encoding of a well-formed command has the length its word 0 names, so the
command port takes exactly its words (30_encoding.md R89); a frame has none. -/

namespace Sys2Proof.Laws.EncodedLength

/-- The words of an encoded instruction are as many as its word 0 says (30_encoding.md R89). -/
def Statement (i : Instr) : Prop :=
  i.wf = true →
    match encode i with
    | .frame _ => True
    | .words ws => ∃ w rest, ws = w :: rest ∧ ws.length = cmdLength w

theorem regWrite (a : BitVec 3) (reg data : Byte) : Statement (.regWrite a reg data) := fun _ => trivial
theorem regRead (a : BitVec 3) (reg data : Byte) : Statement (.regRead a reg data) := fun _ => trivial
theorem setPin (port pin : BitVec 4) (l : Bool) : Statement (.setPin port pin l) :=
  fun _ => ⟨_, _, rfl, by simp [cmdLength]⟩
theorem togglePin (port pin : BitVec 4) : Statement (.togglePin port pin) :=
  fun _ => ⟨_, _, rfl, by simp [cmdLength]⟩
theorem setPort (port : BitVec 4) (v : Half) : Statement (.setPort port v) :=
  fun _ => ⟨_, _, rfl, by simp [cmdLength]⟩
theorem getPortState (port : BitVec 4) : Statement (.getPortState port) :=
  fun _ => ⟨_, _, rfl, by simp [cmdLength]⟩
theorem configurePinMode (port pin : BitVec 4) (o : Bool) : Statement (.configurePinMode port pin o) :=
  fun _ => ⟨_, _, rfl, by simp [cmdLength]⟩
theorem readPortInput (port : BitVec 4) : Statement (.readPortInput port) :=
  fun _ => ⟨_, _, rfl, by simp [cmdLength]⟩
theorem pulsePin (port pin : BitVec 4) (l : Bool) (d : Word) : Statement (.pulsePin port pin l d) :=
  fun _ => ⟨_, _, rfl, by simp [cmdLength]⟩
theorem resolve (row col : BitVec 8) : Statement (.resolve row col) :=
  fun _ => ⟨_, _, rfl, by simp [cmdLength]⟩
theorem press (row col : BitVec 8) (d : Word) : Statement (.press row col d) :=
  fun _ => ⟨_, _, rfl, by simp [cmdLength]⟩
theorem pressSeq (coords : List Coord) (d ivl : Word) : Statement (.pressSeq coords d ivl) := by
  intro h
  have hl : coords.length < 65536 := by simpa [Instr.wf] using h
  refine ⟨_, _, rfl, ?_⟩
  simp [cmdLength]
  omega
theorem cleanup : Statement .cleanup := fun _ => ⟨_, _, rfl, by simp [cmdLength]⟩
theorem reserved0 : Statement .reserved0 := fun _ => ⟨_, _, rfl, by simp [cmdLength]⟩
theorem reservedC : Statement .reservedC := fun _ => ⟨_, _, rfl, by simp [cmdLength]⟩
theorem reservedD : Statement .reservedD := fun _ => ⟨_, _, rfl, by simp [cmdLength]⟩
theorem reservedE : Statement .reservedE := fun _ => ⟨_, _, rfl, by simp [cmdLength]⟩
theorem reservedF : Statement .reservedF := fun _ => ⟨_, _, rfl, by simp [cmdLength]⟩

end Sys2Proof.Laws.EncodedLength
end

