-- ==== Sys2Proof/Laws/Pulse.lean ====
section
/-! SUPPORT. What each micro-step of a pulse, a press and a sequence in progress can do, said once per position. -/

namespace Sys2Proof.Machine

/-- The frame of a pin change (41_pin_ops.md R131). -/
abbrev pinFrame (s : State) (p : Port) (pin : BitVec 4) (level : Bool) : Frame :=
  busFrame s.cfg false (regAddr s.params .out p) (withPin (perPort s.out p) pin level)

/-- The state after a successful pin change with which a command goes on (42_pulse_engine.md R161). -/
abbrev pinSent (s : State) (p : Port) (pin : BitVec 4) (level : Bool) (ph : Phase) : State :=
  { afterXfer s (pinFrame s p pin level) with out := withPort s.out p (withPin (perPort s.out p) pin level), phase := ph }

/-- `set_pin` as a step after which the command goes on: the command ended, or the transfer succeeded. -/
theorem setPin_on {port pin active k ph s t}
    (h : orRaise k (fun u => { u with phase := ph }) (setPinOp port pin active s) = t) :
    t.phase = .idle ∨ ∃ p rx, answerBytes (busAnswer s (pinFrame s p pin active)) = some rx ∧
     cmdGuard s port (some pin) none = .ok p ∧ t = pinSent s p pin active ph := by
  subst h
  rcases setPinOp_cases port pin active s with ⟨e, hg, h⟩ | ⟨p, hg, h⟩ <;> rw [h]
  · exact .inl rfl
  · rcases writeOut_cases p (withPin (perPort s.out p) pin active) s with ⟨rx, ha, hw⟩ | ⟨_, hw⟩ <;> rw [hw]
    · exact .inr ⟨p, rx, ha, hg, rfl⟩
    · exact .inl rfl

/-- The ASSERT step of a press ended the command, or is the pulse of the pin its coordinate names. -/
theorem pressAssert_on {row col k s t} (h : pressAssert row col k s = t) :
    t.phase = .idle ∨ ∃ port pin, resolveCoord s.cfg row col = .ok (port, pin) ∧
      orRaise k (fun u => { u with phase := .hold }) (setPinOp port pin true s) = t := by
  subst h
  unfold pressAssert
  split
  · exact .inl rfl
  · rcases hr : resolveCoord s.cfg row col with e | ⟨a, b⟩
    · exact .inl rfl
    · exact .inr ⟨a, b, rfl, rfl⟩

/-- The ASSERT step of a command in progress (42_pulse_engine.md R161): it ended the command, or the pin was asserted
and HOLD is next. -/
theorem assert_next {i s t} (hi : BlockInv s) (hp : s.phase = .assert) (hc : s.cmd = some i) (h : exec i s = .next t) :
   t.phase = .idle ∨ ∃ port pin active p rx, answerBytes (busAnswer s (pinFrame s p pin active)) = some rx ∧
     pulseTarget s i = some (port, pin, active) ∧ cmdGuard s port (some pin) none = .ok p ∧ t = pinSent s p pin active .hold := by
  have hpos := (hi.position i hc).2
  rw [hp] at hpos
  cases i with
  | pulsePin port pin active d =>
    simp only [exec, execPulsePin, hp, Host.Outcome.next.injEq] at h
    rcases setPin_on h with h | ⟨p, rx, h1, h2, h3⟩
    · exact .inl h
    · exact .inr ⟨port, pin, active, p, rx, h1, rfl, h2, h3⟩
  | press row col d =>
    simp only [exec, execPress, hp, Host.Outcome.next.injEq] at h
    rcases pressAssert_on h with h | ⟨port, pin, hr, h⟩
    · exact .inl h
    rcases setPin_on h with h | ⟨p, rx, h1, h2, h3⟩
    · exact .inl h
    · exact .inr ⟨port, pin, true, p, rx, h1, by simp only [pulseTarget, hr], h2, h3⟩
  | pressSeq cs d ivl =>
    simp only [exec, execPressSeq, hp] at h
    rcases hcs : cs[s.idx]? with _ | c <;> rw [hcs] at h
    · cases h
    · simp only [Host.Outcome.next.injEq] at h
      rcases pressAssert_on h with h | ⟨port, pin, hr, h⟩
      · exact .inl h
      rcases setPin_on h with h | ⟨p, rx, h1, h2, h3⟩
      · exact .inl h
      · exact .inr ⟨port, pin, true, p, rx, h1, by simp only [pulseTarget, hr, hcs], h2, h3⟩
  | _ => cases hpos

/-- The HOLD step of a command in progress: ABORT ended the command, or the wait is over and RELEASE is next. -/
theorem hold_next {i s t} (hi : BlockInv s) (hp : s.phase = .hold) (hc : s.cmd = some i) (h : exec i s = .next t) :
   t.phase = .idle ∨ ∃ d n, d.toNat ≤ n ∧ t = { s with
        now := s.now + n
        trace := s.trace ++ [.wait d s.now (s.now + n)]
        waitScript := s.waitScript.rest, phase := .release } ∧ ((∃ port pin active, i = .pulsePin port pin active d) ∨ (∃ row col, i = .press row col d) ∨
      ∃ coords ivl, i = .pressSeq coords d ivl) := by
  have hpos := (hi.position i hc).2
  rw [hp] at hpos
  have key : ∀ d k, (pulseHold d k s).phase = .idle ∨ ∃ n, d.toNat ≤ n ∧ pulseHold d k s = { s with
        now := s.now + n
        trace := s.trace ++ [.wait d s.now (s.now + n)]
        waitScript := s.waitScript.rest, phase := .release } := by
    intro d k
    unfold pulseHold
    rcases waitThen_cases d k (fun s' => { s' with phase := .release }) s with ⟨_, _, h⟩ | ⟨_, h⟩ <;> rw [h]
    · exact .inl rfl
    · exact .inr ⟨_, Nat.le_add_right _ (s.waitScript.head Config.freeWait).slack, by simp only [Nat.add_assoc]⟩
  cases i with
  | pulsePin port pin active d =>
    simp only [exec, execPulsePin, hp, Host.Outcome.next.injEq] at h
    subst h
    rcases key d 0#16 with h | ⟨n, h1, h2⟩
    · exact .inl h
    · exact .inr ⟨d, n, h1, h2, .inl ⟨_, _, _, rfl⟩⟩
  | press row col d =>
    simp only [exec, execPress, hp, Host.Outcome.next.injEq] at h
    subst h
    rcases key d 0#16 with h | ⟨n, h1, h2⟩
    · exact .inl h
    · exact .inr ⟨d, n, h1, h2, .inr (.inl ⟨_, _, rfl⟩)⟩
  | pressSeq cs d ivl =>
    simp only [exec, execPressSeq, hp, Host.Outcome.next.injEq] at h
    subst h
    rcases key d (countValue s.idx) with h | ⟨n, h1, h2⟩
    · exact .inl h
    · exact .inr ⟨d, n, h1, h2, .inr (.inr ⟨_, _, rfl⟩)⟩
  | _ => cases hpos

/-- The RELEASE step of a press is that of the pulse of its pin. -/
theorem pressRelease_of {row col port pin} (k : Half) (go) (s : State)
    (h : resolveCoord s.cfg row col = .ok (port, pin)) :
  pressRelease row col k go s = orRaise k go (setPinOp port pin false s) := by
  unfold pressRelease pulseRelease; rw [h]; rfl

/-- After a press of a sequence the command goes on only before the last coordinate (44_matrix_session.md R183). -/
theorem after_on {port pin active k n s t}
    (h : orRaise k (afterPress n) (setPinOp port pin active s) = t) (hx : t.phase ≠ .idle) :
   s.idx + 1 < n ∧ orRaise k (fun u => { u with phase := .gap }) (setPinOp port pin active s) = t := by
  subst h
  rcases setPinOp_cases port pin active s with ⟨e, hg, h⟩ | ⟨p, hg, h⟩ <;> rw [h] at hx ⊢
  · exact absurd rfl hx
  · rcases writeOut_cases p (withPin (perPort s.out p) pin active) s with ⟨rx, ha, hw⟩ | ⟨_, hw⟩ <;> rw [hw] at hx ⊢
    · simp only [orRaise_ok, afterPress] at hx ⊢
      split at hx
      · next h => exact ⟨h, by rw [if_pos h]⟩
      · exact absurd rfl hx
    · exact absurd rfl hx

/-- The RELEASE step of a command in progress: it ended the command, or a sequence goes on to GAP. -/
theorem release_next {i s t} (hi : BlockInv s) (hp : s.phase = .release) (hc : s.cmd = some i)
    (h : exec i s = .next t) :
   t.phase = .idle ∨ ∃ cs d ivl port pin p rx, i = .pressSeq cs d ivl ∧ s.idx + 1 < cs.length ∧
     pulseTarget s i = some (port, pin, true) ∧ answerBytes (busAnswer s (pinFrame s p pin false)) = some rx ∧
     cmdGuard s port (some pin) none = .ok p ∧ t = pinSent s p pin false .gap := by
  have hpos := (hi.position i hc).2
  rw [hp] at hpos
  by_cases ht : t.phase = .idle
  · exact .inl ht
  right
  cases i with
  | pulsePin port pin active d =>
    simp only [exec, execPulsePin, hp, Host.Outcome.next.injEq] at h
    exfalso; apply ht; subst h; unfold pulseRelease
    rcases setPinOp port pin (!active) s with ⟨_, _⟩ | ⟨_, _⟩ <;> rfl
  | press row col d =>
    simp only [exec, execPress, hp, Host.Outcome.next.injEq] at h
    exfalso; apply ht; subst h; unfold pressRelease pulseRelease
    rcases resolveCoord s.cfg row col with _ | ⟨a, b⟩
    · rfl
    · dsimp only
      rcases setPinOp a b (!true) s with ⟨_, _⟩ | ⟨_, _⟩ <;> rfl
  | pressSeq cs d ivl =>
    simp only [exec, execPressSeq, hp] at h
    rcases hcs : cs[s.idx]? with _ | c <;> rw [hcs] at h
    · cases h
    · simp only [Host.Outcome.next.injEq] at h
      rcases hr : resolveCoord s.cfg c.row c.col with e | ⟨port, pin⟩
      · exfalso; apply ht; subst h; unfold pressRelease; rw [hr]; rfl
      · rw [pressRelease_of _ _ _ hr] at h
        obtain ⟨hlt, h⟩ := after_on h ht
        rcases setPin_on h with h | ⟨p, rx, h1, h2, h3⟩
        · exact absurd h ht
        · exact ⟨cs, d, ivl, port, pin, p, rx, rfl, hlt, by simp only [pulseTarget, hr, hcs], h1, h2, h3⟩
  | _ => cases hpos

/-- The GAP step: ABORT ended the sequence, or the next coordinate is asserted next. -/
theorem gap_next {i s t} (hi : BlockInv s) (hp : s.phase = .gap) (hc : s.cmd = some i) (h : exec i s = .next t) :
   t.phase = .idle ∨ ∃ cs d ivl n, i = .pressSeq cs d ivl ∧ ivl.toNat ≤ n ∧ t = { s with
        now := s.now + n
        trace := s.trace ++ [.wait ivl s.now (s.now + n)]
        waitScript := s.waitScript.rest, phase := .assert, idx := s.idx + 1 } := by
  have hpos := (hi.position i hc).2
  rw [hp] at hpos
  cases i with
  | pressSeq cs d ivl =>
    simp only [exec, execPressSeq, hp, Host.Outcome.next.injEq] at h
    subst h
    rcases waitThen_cases ivl (countValue (s.idx+1)) nextCoord s with ⟨_, _, h⟩ | ⟨_, h⟩ <;> rw [h]
    · exact .inl rfl
    · exact .inr ⟨cs, d, ivl, _, rfl, Nat.le_add_right _ (s.waitScript.head Config.freeWait).slack,
        by simp only [nextCoord, Nat.add_assoc]⟩
  | _ => cases hpos

end Sys2Proof.Machine
end

