-- ==== Sys2Proof/Laws/Step.lean ====
section
/-! SUPPORT. What a micro-step of the machine can do, said once; how the idle port takes an encoded instruction; runs. -/

namespace Sys2Proof.Machine

/-- A step that answers a next state was the world's move alone, a reset, the first micro-step of the instruction the
port took, or the next micro-step of the command in progress. -/
theorem step_cases (s t : State) (h : step s = .next t) :
    (t = worldMove s ∧ s.phase = .idle) ∨
    (∃ cfg rest, s.phase = .idle ∧ s.host = .reset cfg :: rest ∧
      t = performReset cfg { worldMove s with host := rest }) ∨
    (∃ i rest, s.phase = .idle ∧ (∀ cfg r, s.host ≠ .reset cfg :: r) ∧ fetch s.host = .instr i rest ∧
      exec i { worldMove s with host := rest } = .next t) ∨
    (∃ i, s.phase ≠ .idle ∧ s.cmd = some i ∧ exec i (worldMove s) = .next t) := by
  have h1 : (worldMove s).phase = s.phase := rfl
  have h2 : (worldMove s).host = s.host := rfl
  have h3 : (worldMove s).cmd = s.cmd := rfl
  by_cases hp : s.phase = .idle
  · have hs : step s = stepIdle (worldMove s) := by unfold step stepEngine; rw [h1, hp]
    rw [hs] at h
    unfold stepIdle at h
    rw [h2] at h
    split at h
    · cases h; exact .inl ⟨rfl, hp⟩
    · cases h; exact .inl ⟨rfl, hp⟩
    · next cfg rest hf =>
      cases h
      refine .inr (.inl ⟨cfg, rest, hp, ?_, rfl⟩)
      rcases hh : s.host with _ | ⟨_ | _ | _, r⟩ <;> rw [hh] at hf <;> simp only [fetch] at hf
      · cases hf
      · repeat' split at hf
        all_goals cases hf
      · split at hf <;> cases hf
      · cases hf; rfl
    · next i rest hf =>
      refine .inr (.inr (.inl ⟨i, rest, hp, ?_, hf, h⟩))
      intro cfg r hr; rw [hr] at hf; simp [fetch] at hf
    · cases h
  · refine .inr (.inr (.inr ?_))
    have : step s = stepCommand (worldMove s) := by
      unfold step stepEngine; rw [h1]; cases hq : s.phase <;> first | rfl | exact absurd hq hp
    rw [this] at h
    unfold stepCommand at h
    rw [h3] at h
    rcases hc : s.cmd with _ | i <;> rw [hc] at h
    · cases h
    · exact ⟨i, hp, rfl, h⟩

/-- The words at the front of the host's requests. -/
theorem leadingWords_map (ws : List Word) (rest : List HostItem) :
    ∃ more, leadingWords (ws.map .word ++ rest) = ws ++ more ∧ leadingWords rest = more := by
  induction ws with
  | nil => exact ⟨_, rfl, rfl⟩
  | cons w ws ih => obtain ⟨m, h, h'⟩ := ih; exact ⟨m, by simp [leadingWords, h], h'⟩

/-- The port takes an encoded instruction with all its words and leaves the requests behind it (30_encoding.md R89). -/
theorem fetch_code (c : Code) (i : Instr) (rest : List HostItem) (h : decode c = .ok (i, [])) :
    fetch (codeItems c ++ rest) = .instr i rest := by
  cases c with
  | frame f =>
    simp only [codeItems, List.cons_append, List.nil_append, fetch]
    simp only [decode] at h
    rcases hf : decodeFrame f with e | j <;> rw [hf] at h <;> cases h
    rfl
  | words ws =>
    cases ws with
    | nil => simp [decode, decodeWords] at h
    | cons w ext =>
      simp only [decode, decodeWords] at h
      split at h
      · cases h
      · next hl =>
        simp only [Except.ok.injEq, Prod.mk.injEq] at h
        have hlen : ext.length + 1 = cmdLength w := by
          have := h.2; rw [List.drop_eq_nil_iff] at this
          have : 1 ≤ cmdLength w := by unfold cmdLength; split <;> omega
          omega
        obtain ⟨more, hm, _⟩ := leadingWords_map (w :: ext) rest
        have hd : decodeWords (leadingWords ((w :: ext).map HostItem.word ++ rest)) = .ok (i, more) := by
          rw [hm]
          refine (decodeWords_full w ext more hlen).trans ?_
          rw [← h.1]; congr 3; rw [List.take_of_length_le]; omega
        simp only [codeItems, List.map_cons, List.cons_append, fetch] at hd ⊢
        rw [hd]
        simp only [Fetched.instr.injEq, true_and]
        rw [← hlen]; simp

/-- A run begins with its first step. -/
theorem run_step (k : Nat) (s t : State) (h : step s = .next t) : core.run (k+1) s = core.run k t := by
  have h' : core.step s = .next t := h
  simp only [Host.Core.run, h']

/-- A run of `k + 1` steps that answers a next state made a first step. -/
theorem run_inv (k : Nat) (s t : State) (h : core.run (k+1) s = .next t) :
    ∃ s1, step s = .next s1 ∧ core.run k s1 = .next t := by
  rcases hs : step s with s1 | f | r
  · exact ⟨s1, rfl, by rw [run_step k s s1 hs] at h; exact h⟩
  · have h' : core.step s = .fault f := hs
    simp only [Host.Core.run, h'] at h; cases h
  · have h' : core.step s = .refused r := hs
    simp only [Host.Core.run, h'] at h; cases h

end Sys2Proof.Machine
end

