-- ==== Sys2Proof/Tests/Slice0.lean ====
section
/-! SUPPORT. Tests: what the well-formedness checks refuse, words written out from the spec's encodings, single
micro-steps whose expected results are the rows of 95_test_vectors.md. -/

namespace Sys2Proof.Tests

open Machine

/-! ## Small states -/

/-- A completed transfer of three ticks. -/
def okReply : BusReply := ⟨3, .ok ⟨0x00#8, 0x00#8, 0x00#8⟩⟩

/-- A failed transfer whose write landed. -/
def failReply : BusReply := ⟨3, .fail true⟩

/-- The state after reset with an empty trace, the given output caches and the given answers of the bus; waits end
one tick late, the world stands still, the handle opens. -/
def lab (out : PerPort) (bus : List BusReply) : State :=
  { State.reset with
    out := out, trace := []
    busScript := ⟨bus, 0⟩
    waitScript := ⟨[⟨1, false, 0⟩, ⟨1, false, 0⟩], 0⟩
    worldScript := ⟨[⟨0, []⟩, ⟨0, []⟩, ⟨0, []⟩, ⟨0, []⟩], 0⟩
    handleScript := ⟨[⟨true, 0⟩, ⟨true, 0⟩], 0⟩ }

/-- The same after CLEANUP. -/
def shut : State := { lab ⟨0x00#8, 0x00#8⟩ [] with life := .closed, handle := none }

/-- A command in progress at a position. -/
def at' (i : Instr) (phase : Phase) (idx : Nat) (s : State) : State :=
  { s with cmd := some i, phase := phase, idx := idx }

/-- The state an outcome holds. -/
def after : Result → Option State
  | .next t => some t
  | _ => none

/-- RESP after an outcome. -/
def answer (r : Result) : Option Resp := (after r).map (·.resp)

/-- The output caches after an outcome. -/
def outs (r : Result) : Option PerPort := (after r).map (·.out)

/-- The position after an outcome. -/
def position (r : Result) : Option (Phase × Nat) := (after r).map fun t => (t.phase, t.idx)

/-- The frames of a trace, with whether each completed. -/
def framesOf : List Event → List (Frame × Bool)
  | [] => []
  | .xfer tx rx _ _ :: es => (tx, rx.isSome) :: framesOf es
  | _ :: es => framesOf es

/-- The frames on the bus. -/
def wire (r : Result) : Option (List (Frame × Bool)) := (after r).map fun t => framesOf t.trace

/-! ## Well-formedness: each check refuses an ill-formed term -/

theorem test_wf_refuses_65536_coordinates :
    (Instr.pressSeq (List.replicate 65536 ⟨0#8, 0#8⟩) 0#32 0#32).wf = false := by
  rw [Instr.wf, List.length_replicate]; decide

theorem test_wf_accepts_65535_coordinates :
    (Instr.pressSeq (List.replicate 65535 ⟨0#8, 0#8⟩) 0#32 0#32).wf = true := by
  rw [Instr.wf, List.length_replicate]; decide

theorem test_params_wf_refuses_equal_addresses :
    Config.paramsP0.wf = true ∧
    { Config.paramsP0 with addrOut := ⟨0x01#8, 0x15#8⟩ }.wf = false ∧
    { Config.paramsP0 with addrIn := ⟨0x12#8, 0x12#8⟩ }.wf = false ∧
    { Config.paramsP0 with tickNum := 0 }.wf = false ∧
    { Config.paramsP0 with tickDen := 0 }.wf = false := by decide

/-- 70_reset_and_hazards.md R242; 95_test_vectors.md part 2.12 and S9. -/
theorem test_table_check_refuses :
    tableOk Config.cfgT = true ∧
    tableOk { Config.cfgT with map := Config.tableT.take 5 } = false ∧
    tableOk { Config.cfgT with map := ⟨0, 0, 0#4, 8#4⟩ :: Config.tableT.drop 1 } = false ∧
    tableOk { Config.cfgT with map := ⟨0, 0, 2#4, 0#4⟩ :: Config.tableT.drop 1 } = false ∧
    tableOk { Config.cfgT with map := ⟨0, 0, 0#4, 1#4⟩ :: Config.tableT.drop 1 } = false ∧
    tableOk { Config.cfgT with map := ⟨2, 0, 0#4, 7#4⟩ :: Config.tableT } = false ∧
    tableOk { Config.cfgT with map := ⟨0, 0, 0#4, 7#4⟩ :: Config.tableT } = false ∧
    tableOk { Config.cfgT with numRows := 0, map := [] } = true := by decide

/-! ## Decoding: words written out bit by bit from 30_encoding.md R81, R87, R88 -/

/-- 0100 001 0 | 00010100 | 10100101: a write, hardware address 1, register 0x14, data 0xA5. -/
theorem test_decode_regWrite :
    decodeTableWord 24 0b0100_001_0_00010100_10100101 = some (.regWrite 1#3 0x14#8 0xA5#8) := by decide

/-- 0100 101 1 | 00010011 | 00000000: a read, hardware address 5, register 0x13. -/
theorem test_decode_regRead :
    decodeTableWord 24 0b0100_101_1_00010011_00000000 = some (.regRead 5#3 0x13#8 0x00#8) := by decide

theorem test_decode_bad_prefix : decodeTableWord 24 0b0101_000_0_00010100_00000000 = none := by decide

/-- op 0001, port 0001, pin 0110, lvl 1, unused bits set. -/
theorem test_decode_setPin :
    decodeTableWord 32 0b0001_0001_0110_1_111_1111111111111111 = some (.setPin 1#4 6#4 true) := by decide

theorem test_decode_togglePin :
    decodeTableWord 32 0b0010_0000_0011_0_000_0000000000000000 = some (.togglePin 0#4 3#4) := by decide

theorem test_decode_setPort :
    decodeTableWord 32 0b0011_0001_0000_0_000_0000000010100101 = some (.setPort 1#4 0xA5#16) := by decide

theorem test_decode_getPortState :
    decodeTableWord 32 0b0100_0001_0000_0_000_0000000000000000 = some (.getPortState 1#4) := by decide

theorem test_decode_configurePinMode :
    decodeTableWord 32 0b0101_0000_0111_1_000_0000000000000000 = some (.configurePinMode 0#4 7#4 true) := by decide

theorem test_decode_readPortInput :
    decodeTableWord 32 0b0110_0001_0000_0_000_0000000000000000 = some (.readPortInput 1#4) := by decide

/-- Word 0, then the duration 100 in the bits above it. -/
theorem test_decode_pulsePin :
    decodeTableWord 64 (100 * 2 ^ 32 + 0b0111_0001_0010_0_000_0000000000000000) =
      some (.pulsePin 1#4 2#4 false 100#32) := by decide

theorem test_decode_resolve :
    decodeTableWord 32 0b1000_0000_0000_0_000_00000001_00000010 = some (.resolve 1#8 2#8) := by decide

theorem test_decode_press :
    decodeTableWord 64 (50 * 2 ^ 32 + 0b1001_0000_0000_0_000_00000001_00000010) =
      some (.press 1#8 2#8 50#32) := by decide

/-- n = 2, duration 100, interval 300, coordinates (0,0) and (0,1); the ignored bits of the last word are set. -/
theorem test_decode_pressSeq :
    decodeTableWord 160
      (0xABCD0001 * 2 ^ 128 + 300 * 2 ^ 64 + 100 * 2 ^ 32 + 0b1010_0000_0000_0_000_0000000000000010) =
      some (.pressSeq [⟨0#8, 0#8⟩, ⟨0#8, 1#8⟩] 100#32 300#32) := by decide

theorem test_decode_cleanup :
    decodeTableWord 32 0b1011_0000_0000_0_000_0000000000000000 = some .cleanup := by decide

theorem test_decode_reserved :
    [0b0000, 0b1100, 0b1101, 0b1110, 0b1111].map (fun op => decodeTableWord 32 (op * 2 ^ 28 + 0x1234567)) =
      [some .reserved0, some .reservedC, some .reservedD, some .reservedE, some .reservedF] := by decide

/-- 30_encoding.md R95, R96. -/
theorem test_short_forms :
    encode (Instr.clearPin 1#4 6#4) = .words [0x11600000#32] ∧
    encode (Instr.pulsePinHigh 0#4 0#4 100#32) = .words [0x70080000#32, 0x64#32] ∧
    Instr.recovery.map encode = [.words [0x30000000#32], .words [0x31000000#32], .words [0xB0000000#32]] := by decide

/-! ## Single micro-steps: the rows of 95_test_vectors.md part 2 -/

/-- 2.1: REG_WRITE(OUT, B, 0x40) with hardware address 5. -/
theorem test_regWrite_frame :
    wire (exec (.regWrite 0#3 0x15#8 0x40#8)
      { lab ⟨0x00#8, 0x00#8⟩ [okReply] with cfg := { Config.cfgT with hwAddr := 5#3 } }) =
      some [(⟨0x4A#8, 0x15#8, 0x40#8⟩, true)] := by decide

/-- 2.1: the result of REG_READ is the third byte. -/
theorem test_regRead_result :
    answer (exec (.regRead 0#3 0x12#8 0x77#8) (lab ⟨0x00#8, 0x00#8⟩ [⟨0, .ok ⟨0x11#8, 0x22#8, 0x3C#8⟩⟩])) =
      some ⟨.ok, 0x3C#16⟩ ∧
    wire (exec (.regRead 0#3 0x12#8 0x77#8) (lab ⟨0x00#8, 0x00#8⟩ [okReply])) =
      some [(⟨0x41#8, 0x12#8, 0x00#8⟩, true)] := by decide

/-- 20_memory.md R56: a register outside the RegisterMap. -/
theorem test_regWrite_outside_map :
    answer (exec (.regWrite 0#3 0x0A#8 0x01#8) (lab ⟨0x00#8, 0x00#8⟩ [])) = some ⟨.fatalError, 0#16⟩ := by decide

/-- 2.2: `set_pin(A, 7, high)` from 01,00; `set_pin(A, 0, low)` from 81,00. -/
theorem test_setPin_sets_and_clears :
    outs (exec (.setPin 0#4 7#4 true) (lab ⟨0x01#8, 0x00#8⟩ [okReply])) = some ⟨0x81#8, 0x00#8⟩ ∧
    wire (exec (.setPin 0#4 0#4 false) (lab ⟨0x81#8, 0x00#8⟩ [okReply])) =
      some [(⟨0x40#8, 0x14#8, 0x80#8⟩, true)] := by decide

/-- 2.2: the bus failure, and the operand tests. -/
theorem test_setPin_errors :
    outs (exec (.setPin 0#4 0#4 true) (lab ⟨0x00#8, 0x00#8⟩ [failReply])) = some ⟨0x00#8, 0x00#8⟩ ∧
    answer (exec (.setPin 0#4 0#4 true) (lab ⟨0x00#8, 0x00#8⟩ [failReply])) = some ⟨.busError, 0#16⟩ ∧
    answer (exec (.setPin 0#4 8#4 true) (lab ⟨0x80#8, 0x08#8⟩ [])) = some ⟨.validationError, 0#16⟩ ∧
    answer (exec (.setPin 2#4 0#4 true) (lab ⟨0x80#8, 0x08#8⟩ [])) = some ⟨.validationError, 0#16⟩ := by decide

/-- 2.3: `toggle_pin(A, 0)` and `toggle_pin(B, 5)` from 81,00. -/
theorem test_togglePin_result :
    answer (exec (.togglePin 0#4 0#4) (lab ⟨0x81#8, 0x00#8⟩ [okReply])) = some ⟨.ok, 0#16⟩ ∧
    outs (exec (.togglePin 1#4 5#4) (lab ⟨0x81#8, 0x00#8⟩ [okReply])) = some ⟨0x81#8, 0x20#8⟩ ∧
    answer (exec (.togglePin 1#4 5#4) (lab ⟨0x81#8, 0x00#8⟩ [okReply])) = some ⟨.ok, 1#16⟩ := by decide

/-- 2.4: `set_port(B, 0xA5)`; 256 is refused and not truncated. -/
theorem test_setPort :
    wire (exec (.setPort 1#4 0xA5#16) (lab ⟨0x00#8, 0x00#8⟩ [okReply])) =
      some [(⟨0x40#8, 0x15#8, 0xA5#8⟩, true)] ∧
    answer (exec (.setPort 0#4 256#16) (lab ⟨0xFF#8, 0xA5#8⟩ [])) = some ⟨.validationError, 0#16⟩ := by decide

/-- 2.4: the cached byte, without a frame. -/
theorem test_getPortState :
    answer (exec (.getPortState 1#4) (lab ⟨0x00#8, 0xA5#8⟩ [])) = some ⟨.ok, 0xA5#16⟩ ∧
    wire (exec (.getPortState 1#4) (lab ⟨0x00#8, 0xA5#8⟩ [])) = some [] := by decide

/-- 2.5: input sets the bit with DIR_OUT_BIT = 0 and clears it with DIR_OUT_BIT = 1. -/
theorem test_configurePinMode :
    wire (exec (.configurePinMode 0#4 7#4 false) (lab ⟨0x00#8, 0x00#8⟩ [okReply])) =
      some [(⟨0x40#8, 0x00#8, 0x80#8⟩, true)] ∧
    (after (exec (.configurePinMode 0#4 7#4 false)
      { lab ⟨0x00#8, 0x00#8⟩ [okReply] with
        dir := ⟨0xFF#8, 0xFF#8⟩, params := { Config.paramsP0 with dirOutBit := true } })).map (·.dir) =
      some ⟨0x7F#8, 0xFF#8⟩ := by decide

/-- 2.6: IdealChip with PINS[B] = 0x5A. -/
theorem test_readPortInput :
    answer (exec (.readPortInput 1#4)
      { lab ⟨0x00#8, 0x00#8⟩ [okReply] with responder := .ideal, pins := ⟨0x3C#8, 0x5A#8⟩ }) =
      some ⟨.ok, 0x5A#16⟩ ∧
    wire (exec (.readPortInput 1#4) (lab ⟨0x00#8, 0x00#8⟩ [okReply])) =
      some [(⟨0x41#8, 0x13#8, 0x00#8⟩, true)] := by decide

/-- 2.7: `pulse_pin(B, 2, 0, low)` ends at the inactive level, high; `pulse_pin(A, 4, 5)` ends low. -/
theorem test_pulsePin_release :
    outs (exec (.pulsePin 1#4 2#4 false 0#32)
      (at' (.pulsePin 1#4 2#4 false 0#32) .release 0 (lab ⟨0x00#8, 0x00#8⟩ [okReply]))) = some ⟨0x00#8, 0x04#8⟩ ∧
    outs (exec (.pulsePin 0#4 4#4 true 5#32)
      (at' (.pulsePin 0#4 4#4 true 5#32) .release 0 (lab ⟨0xF0#8, 0x00#8⟩ [okReply]))) = some ⟨0xE0#8, 0x00#8⟩ := by decide

/-- 2.7: ABORT during the hold: Aborted, the pin stays asserted in the cache. -/
theorem test_pulsePin_abort :
    answer (exec (.pulsePin 0#4 0#4 true 100#32)
      { at' (.pulsePin 0#4 0#4 true 100#32) .hold 0 (lab ⟨0x01#8, 0x00#8⟩ []) with
        waitScript := ⟨[⟨0, true, 7⟩], 0⟩ }) = some ⟨.aborted, 0#16⟩ ∧
    outs (exec (.pulsePin 0#4 0#4 true 100#32)
      { at' (.pulsePin 0#4 0#4 true 100#32) .hold 0 (lab ⟨0x01#8, 0x00#8⟩ []) with
        waitScript := ⟨[⟨0, true, 7⟩], 0⟩ }) = some ⟨0x01#8, 0x00#8⟩ := by decide

/-- 2.8: (B, 6) is 0x0106; the bounds are strict. -/
theorem test_resolve :
    answer (exec (.resolve 1#8 2#8) shut) = some ⟨.ok, 0x0106#16⟩ ∧
    answer (exec (.resolve 2#8 0#8) shut) = some ⟨.validationError, 0#16⟩ ∧
    answer (exec (.resolve 0#8 3#8) shut) = some ⟨.validationError, 0#16⟩ := by decide

/-- 2.9: `press(1, 2, 50)` asserts B6; closed wins over a bad coordinate (2.11). -/
theorem test_press_assert :
    wire (exec (.press 1#8 2#8 50#32) (at' (.press 1#8 2#8 50#32) .assert 0 (lab ⟨0x00#8, 0x00#8⟩ [okReply]))) =
      some [(⟨0x40#8, 0x15#8, 0x40#8⟩, true)] ∧
    answer (exec (.press 9#8 9#8 5#32) (at' (.press 9#8 9#8 5#32) .assert 0 shut)) =
      some ⟨.sessionClosedError, 0#16⟩ := by decide

/-- The sequence of program 5. -/
def seq5 : Instr := .pressSeq [⟨0#8, 0#8⟩, ⟨5#8, 5#8⟩, ⟨0#8, 1#8⟩] 10#32 20#32

/-- Program 5: a release that is not the last goes on to the gap; the bad second coordinate reports one press. -/
theorem test_pressSeq_counts :
    position (exec seq5 (at' seq5 .release 0 (lab ⟨0x01#8, 0x00#8⟩ [okReply]))) = some (.gap, 0) ∧
    answer (exec seq5 (at' seq5 .assert 1 (lab ⟨0x00#8, 0x00#8⟩ []))) = some ⟨.validationError, 1#16⟩ := by decide

/-- Program 3: the last release of three ends the command with the count; an empty sequence answers 0 (2.11, closed). -/
theorem test_pressSeq_ends :
    answer (exec (.pressSeq [⟨0#8, 0#8⟩, ⟨1#8, 2#8⟩, ⟨0#8, 0#8⟩] 50#32 300#32)
      (at' (.pressSeq [⟨0#8, 0#8⟩, ⟨1#8, 2#8⟩, ⟨0#8, 0#8⟩] 50#32 300#32) .release 2 (lab ⟨0x01#8, 0x00#8⟩ [okReply]))) =
      some ⟨.ok, 3#16⟩ ∧
    answer (exec (.pressSeq [] 1#32 1#32) shut) = some ⟨.ok, 0#16⟩ := by decide

/-- 2.11: CLEANUP twice. -/
theorem test_cleanup :
    (after (exec .cleanup (lab ⟨0x00#8, 0x00#8⟩ []))).map (fun t => (t.life, t.handle, t.resp)) =
      some (.closed, none, ⟨.ok, 0#16⟩) ∧
    (after (exec .cleanup shut)).map (fun t => (t.life, t.trace.length)) = some (.closed, 1) := by decide

/-- 2.12: a reserved code, also on a closed session. -/
theorem test_reserved :
    [Instr.reserved0, .reservedC, .reservedD, .reservedE, .reservedF].map (fun i => answer (exec i shut)) =
      List.replicate 5 (some ⟨.fatalError, 0#16⟩) := by decide

/-! ## Reset (70_reset_and_hazards.md R240 to R243) -/

/-- What reset gives by its procedure is the state after reset: caches, LIFE, position, RESP, CFG, the handle. -/
theorem test_reset_procedure_gives_reset_state :
    let t := performReset Config.cfgT shut
    let r := State.reset
    (t.out, t.dir, t.life, t.phase) = (r.out, r.dir, r.life, r.phase) ∧
    (t.idx, t.cmd, t.resp) = (r.idx, r.cmd, r.resp) ∧
    (t.cfg, t.handle, t.trace) = (r.cfg, r.handle, r.trace) := by decide

/-- 2.12: INIT_FRAMES are sent after OPEN; when one fails the handle is closed. -/
theorem test_reset_init_frames :
    let p := { Config.paramsP0 with initFrames := [⟨.dir, .A, 0x00#8⟩, ⟨.dir, .B, 0x00#8⟩] }
    framesOf (performReset Config.cfgT { shut with params := p, busScript := ⟨[okReply, okReply], 0⟩ }).trace =
      [(⟨0x40#8, 0x00#8, 0x00#8⟩, true), (⟨0x40#8, 0x01#8, 0x00#8⟩, true)] ∧
    (performReset Config.cfgT { shut with params := p, busScript := ⟨[okReply, failReply], 0⟩ }).resp =
      ⟨.busError, 0#16⟩ ∧
    (performReset Config.cfgT { shut with params := p, busScript := ⟨[okReply, failReply], 0⟩ }).life = .closed := by
  decide

/-- S9: a table in which two coordinates share a pin: ValidationError, nothing opened. -/
theorem test_reset_refuses_table :
    let t := performReset { Config.cfgT with numRows := 1, numCols := 2, map := [⟨0, 0, 0#4, 0#4⟩, ⟨0, 1, 0#4, 0#4⟩] } shut
    (t.life, t.resp, t.trace) = (.closed, ⟨.validationError, 0#16⟩, []) := by decide

/-- 60_exceptions.md R225: an external chip reset between two writes of INIT_FRAMES undoes the first (logs 6 and 30). -/
theorem test_reset_world_moves_between_writes :
    let p := { Config.paramsP0 with initFrames := [⟨.dir, .A, 0x00#8⟩, ⟨.dir, .B, 0x00#8⟩] }
    let t := performReset Config.cfgT
      { shut with
        params := p, busScript := ⟨[okReply, okReply], 0⟩
        worldScript := ⟨[⟨0, []⟩, ⟨0, []⟩, ⟨5, [.chipReset]⟩], 0⟩ }
    (t.life, t.chip.read 0x00, t.chip.read 0x01, t.now) = (.opened, 0xFF#8, 0x00#8, 11) := by decide

/-! ## The chip's registers -/

/-- Log 6: at power-on the direction registers hold 0xFF and the other registers of the map 0x00. -/
theorem test_chip_power_on :
    (regAddrs State.reset.params).map (fun a => State.reset.chip.read a.toNat) =
      [0xFF#8, 0xFF#8, 0x00#8, 0x00#8, 0x00#8, 0x00#8, 0x00#8, 0x00#8] := by decide

/-- A register is listed exactly while it holds another value than at power-on. -/
theorem test_chip_canonical :
    Memory.write [(0x00, 0x0F#8), (0x14, 0x01#8)] 0x14 0x00#8 = [(0x00, 0x0F#8)] ∧
    Memory.write [(0x14, 0x01#8)] 0x00 0xFF#8 = [(0x14, 0x01#8)] ∧
    Memory.write [(0x14, 0x01#8)] 0x00 0x0F#8 = [(0x00, 0x0F#8), (0x14, 0x01#8)] := by decide

/-- 20_memory.md R66: IdealChip answers the one byte an unwritten register holds. -/
theorem test_ideal_reads_unwritten :
    answer (exec (.regRead 0#3 0x00#8 0x00#8) { lab ⟨0x00#8, 0x00#8⟩ [okReply] with responder := .ideal }) =
      some ⟨.ok, 0xFF#16⟩ := by decide

/-! ## The step -/

/-- A word placed for the next step is what that step runs. -/
theorem test_withFetchWord_runs :
    answer (step ((lab ⟨0x00#8, 0x00#8⟩ [okReply]).withFetchWord 32 0x10080000)) = some ⟨.ok, 0#16⟩ ∧
    outs (step ((lab ⟨0x00#8, 0x00#8⟩ [okReply]).withFetchWord 32 0x10080000)) = some ⟨0x01#8, 0x00#8⟩ := by decide

/-- The RESP words of 95_test_vectors.md. -/
theorem test_respWord :
    respWord ⟨.busError, 0#16⟩ = 0x20000000#32 ∧ respWord ⟨.validationError, 1#16⟩ = 0x10000001#32 ∧
    respWord ⟨.ok, 0x0106#16⟩ = 0x00000106#32 := by decide

/-- 0.1 s and 0.3 s are 100 and 300 ticks of 1 ms; a third of a second is rounded up. -/
theorem test_ticks :
    ticksOfSeconds Config.paramsP0 1 10 = 100 ∧ ticksOfSeconds Config.paramsP0 3 10 = 300 ∧
    ticksOfSeconds Config.paramsP0 1 3 = 334 := by decide

/-! ## Witnesses: for every statement with hypotheses, states and operands that meet them together, at the ends of
their ranges -/

/-- The longest sequence that has an encoding, and a frame. -/
theorem witness_DecodeOfEncode :
    (Instr.pressSeq (List.replicate 65535 ⟨0xFF#8, 0xFF#8⟩) 0#32 0#32).wf = true ∧
    (Instr.regRead 7#3 0xFF#8 0xFF#8).wf = true := by
  constructor
  · rw [Instr.wf, List.length_replicate]; decide
  · decide

/-- Every code; no, two and 65535 coordinates; all words present, or one missing. -/
theorem witness_EveryCommandWord :
    (∀ op ∈ List.range 16, (BitVec.ofNat 32 (op * 2 ^ 28)).toNat / 2 ^ 28 = op) ∧
    ([] : List Word).length + 1 = 1 ∧ [0#32].length + 1 = 2 ∧ ([] : List Word).length + 1 < 2 ∧
    [0#32, 0#32].length + 1 = 3 + (0xA0000000#32).toNat % 65536 ∧
    [0#32, 0#32, 0#32, 0#32].length + 1 = 3 + (0xA0000002#32).toNat % 65536 ∧
    [0#32, 0#32, 0#32].length + 1 < 3 + (0xA0000002#32).toNat % 65536 ∧
    ([] : List Word).length + 1 < 3 + (0xAFFFFFFF#32).toNat % 65536 := by decide

theorem witness_Frames :
    (0x400000#24).toNat / 2 ^ 20 = 4 ∧ (0x4FFFFF#24).toNat / 2 ^ 20 = 4 ∧
    (0x3FFFFF#24).toNat / 2 ^ 20 ≠ 4 ∧ (0x500000#24).toNat / 2 ^ 20 ≠ 4 := by decide

/-- `set_pin(A, 0, high)` with a cleanup behind it; a frame. -/
theorem witness_StepRunsTheDecodedInstruction :
    let rest : List HostItem := [.word 0xB0000000#32]
    let s := { State.reset with host := codeItems (.words [0x10080000#32]) ++ rest }
    let f := { State.reset with host := codeItems (.frame 0x4FFFFF#24) ++ rest }
    s.phase = .idle ∧ decode (.words [0x10080000#32]) = .ok (.setPin 0#4 0#4 true, []) ∧
      s.host = codeItems (.words [0x10080000#32]) ++ rest ∧
    f.phase = .idle ∧ decode (.frame 0x4FFFFF#24) = .ok (.regRead 7#3 0xFF#8 0xFF#8, []) ∧
      f.host = codeItems (.frame 0x4FFFFF#24) ++ rest := ⟨rfl, rfl, rfl, rfl, rfl, rfl⟩

theorem witness_StepContinuesTheLatchedCommand :
    let s := at' (.press 1#8 2#8 50#32) .hold 0 State.reset
    s.phase ≠ .idle ∧ s.cmd = some (.press 1#8 2#8 50#32) := by decide

/-- One host per clause of the statement about the idle port. -/
theorem witness_IdlePort :
    State.reset.phase = .idle ∧ State.reset.host = [] ∧
    [0#32, 0#32, 0#32].length + 1 < cmdLength 0xA0000002#32 ∧ ([] : List Word).length + 1 < cmdLength 0x70000000#32 ∧
    (0x3FFFFF#24).toNat / 2 ^ 20 ≠ 4 ∧ (0x500000#24).toNat / 2 ^ 20 ≠ 4 := by decide

/-- The registers of the map, and two that are not in it; open and closed. -/
theorem witness_RegWrite_RegRead :
    (lab ⟨0x00#8, 0x00#8⟩ []).life = .opened ∧ shut.life = .closed ∧
    0x00#8 ∈ regAddrs State.reset.params ∧ 0x15#8 ∈ regAddrs State.reset.params ∧
    0x16#8 ∉ regAddrs State.reset.params ∧ 0xFF#8 ∉ regAddrs State.reset.params := by decide

/-- The clauses of `guarded`: closed; port 2 and 15, pin 8 and 15, value 256 and 65535; ports A and B with pin 7 and
value 255. -/
theorem witness_guarded :
    shut.life = .closed ∧ State.reset.life = .opened ∧ 2 ≤ (2#4).toNat ∧ 2 ≤ (15#4).toNat ∧
    7 < (8#4).toNat ∧ 7 < (15#4).toNat ∧ 255 < (256#16).toNat ∧ 255 < (65535#16).toNat ∧
    0#4 = portCode .A ∧ 1#4 = portCode .B ∧ ¬7 < (7#4).toNat ∧ ¬255 < (255#16).toNat := by decide

/-- `encodedAs`: the word of `set_pin(15, 15, high)`, and of `set_port(B, 65535)`. -/
theorem witness_encodedAs :
    (0x1FF80000#32).toNat = 1 * 2 ^ 28 + 15 * 2 ^ 24 + 15 * 2 ^ 20 + 1 * 2 ^ 19 + 0 ∧
    (0x3100FFFF#32).toNat = 3 * 2 ^ 28 + 1 * 2 ^ 24 + 0 * 2 ^ 20 + 0 * 2 ^ 19 + 65535 := by decide

/-- The clauses of `registerWrite` and `registerRead`: an answer, a failure. -/
theorem witness_bus_answers :
    answerBytes (busAnswer (lab ⟨0x00#8, 0x00#8⟩ [okReply]) ⟨0x40#8, 0x14#8, 0x01#8⟩) = some ⟨0x00#8, 0x00#8, 0x00#8⟩ ∧
    answerBytes (busAnswer (lab ⟨0x00#8, 0x00#8⟩ [failReply]) ⟨0x40#8, 0x14#8, 0x01#8⟩) = none := by decide

/-- The clauses of `waits`: ABORT does not arrive, arrives. -/
theorem witness_waits :
    abortArrives (lab ⟨0x00#8, 0x00#8⟩ []) = false ∧
    abortArrives { lab ⟨0x00#8, 0x00#8⟩ [] with waitScript := ⟨[⟨0, true, 7⟩], 0⟩ } = true := by decide

/-- A set that succeeds, then a toggle that succeeds; a port write that succeeds; port 2 and pin 8. -/
theorem witness_PortLaws :
    (∃ t u, exec (.setPin (portCode .B) 7#4 true) (lab ⟨0x00#8, 0x00#8⟩ [okReply, okReply]) = .next t ∧
      t.resp.status = .ok ∧ exec (.togglePin (portCode .B) 7#4) t = .next u ∧ u.resp.status = .ok) ∧
    (∃ t, exec (.setPort (portCode .B) ((0xFF#8).setWidth 16)) (lab ⟨0x00#8, 0x00#8⟩ [okReply]) = .next t ∧
      t.resp.status = .ok) ∧
    State.reset.life = .opened ∧ 2 ≤ (2#4).toNat ∧ 7 < (8#4).toNat ∧ (7#4).toNat ≤ 7 :=
  ⟨⟨_, _, rfl, rfl, rfl, rfl⟩, ⟨_, rfl, rfl⟩, by decide⟩

theorem witness_PortCommandsAreIndependent :
    Port.A ≠ .B ∧
    ∃ t, exec (.setPin (portCode .B) 0#4 true) (lab ⟨0x00#8, 0x00#8⟩ [okReply]) = .next t ∧ t.out ≠ ⟨0x00#8, 0x00#8⟩ :=
  ⟨by decide, _, rfl, by decide⟩

theorem witness_MultiStepCommandsAreAcceptedAtIdle :
    State.reset.phase = .idle ∧ ([⟨0#8, 0#8⟩] : List Coord) ≠ [] := by decide

/-- The three positions of a pulse. -/
theorem witness_PulsePin :
    let i : Instr := .pulsePin 0#4 7#4 false 0#32
    (at' i .assert 0 State.reset).phase = .assert ∧ (at' i .hold 0 State.reset).phase = .hold ∧
    (at' i .release 0 State.reset).phase = .release := by decide

/-- The corner coordinates of table T, and the first ones outside it. -/
theorem witness_coordinates :
    tableOk State.reset.cfg = true ∧ mapsTo State.reset.cfg 0#8 0#8 0#4 0#4 ∧ mapsTo State.reset.cfg 1#8 2#8 1#4 6#4 ∧
    outsideMatrix State.reset.cfg 2#8 0#8 ∧ outsideMatrix State.reset.cfg 0#8 3#8 ∧
    ¬outsideMatrix State.reset.cfg 1#8 2#8 := by
  refine ⟨by decide, ⟨⟨0, 0, 0#4, 0#4⟩, by decide⟩, ⟨⟨1, 2, 1#4, 6#4⟩, by decide⟩, ?_, ?_, ?_⟩ <;>
    simp [outsideMatrix, State.reset, Config.cfgT]

/-- The positions of PRESS: closed; outside; mapped to (B, 6). -/
theorem witness_Press :
    let i : Instr := .press 1#8 2#8 50#32
    (at' i .assert 0 shut).phase = .assert ∧ (at' i .assert 0 shut).life = .closed ∧
    (at' i .assert 0 State.reset).life = .opened ∧ (at' i .assert 0 State.reset).phase = .assert ∧
    (at' i .hold 0 State.reset).phase = .hold ∧ (at' i .release 0 State.reset).phase = .release ∧
    tableOk (at' i .release 0 shut).cfg = true ∧ State.reset.phase = .idle := by decide

/-- The first and the last index of a sequence, at its positions. -/
theorem witness_PressSequence :
    let coords : List Coord := [⟨0#8, 0#8⟩, ⟨1#8, 2#8⟩]
    let i : Instr := .pressSeq coords 10#32 20#32
    coords[(at' i .assert 0 State.reset).idx]? = some ⟨0#8, 0#8⟩ ∧
    coords[(at' i .release 1 State.reset).idx]? = some ⟨1#8, 2#8⟩ ∧
    (at' i .release 0 State.reset).idx + 1 < coords.length ∧ ¬(at' i .release 1 State.reset).idx + 1 < coords.length ∧
    (at' i .gap 0 State.reset).phase = .gap ∧ (at' i .assert 1 shut).life = .closed := by decide

theorem witness_EmptySequence : State.reset.phase = .idle := by decide

/-- A pulse about to assert, with two transfers that succeed and a wait that is not cut short. -/
def pulseStart : State := at' (.pulsePin 1#4 7#4 false 5#32) .assert 0 (lab ⟨0x00#8, 0x80#8⟩ [okReply, okReply])

theorem witness_PulseHoldsAtLeastItsDuration :
    pulseStart.phase = .assert ∧ pulseStart.cmd = some (.pulsePin 1#4 7#4 false 5#32) ∧
    ∃ s1 s2 s3, step pulseStart = .next s1 ∧ s1.phase = .hold ∧ step s1 = .next s2 ∧ s2.phase = .release ∧
      step s2 = .next s3 := ⟨rfl, rfl, _, _, _, rfl, rfl, rfl, rfl, rfl⟩

/-- A pulse about to release. -/
def pulseEnd (r : BusReply) : State := at' (.pulsePin 1#4 7#4 true 5#32) .release 0 (lab ⟨0x00#8, 0x80#8⟩ [r])

theorem pulseEnd_inv (r : BusReply) : BlockInv (pulseEnd r) where
  idle_iff := by constructor <;> intro h <;> cases h
  position := by intro i h; cases h; exact ⟨rfl, rfl⟩
  handle := rfl
  table := by show tableOk Config.cfgT = true; decide
  chip := rfl
  asserted := by intro i h _; cases h; exact ⟨rfl, 1#4, 7#4, true, .B, rfl, rfl, by decide, by show pinBit 0x80#8 7#4 = true; decide⟩
  gapOpen := by intro h; cases h

theorem witness_FailedRelease :
    BlockInv (pulseEnd failReply) ∧ (pulseEnd failReply).phase = .release ∧
    (pulseEnd failReply).cmd = some (.pulsePin 1#4 7#4 true 5#32) ∧
    pulseTarget (pulseEnd failReply) (.pulsePin 1#4 7#4 true 5#32) = some (portCode .B, 7#4, true) ∧
    answerBytes (busAnswer (pulseEnd failReply)
      ⟨opcode (pulseEnd failReply).cfg.hwAddr false, regAddr (pulseEnd failReply).params .out .B,
        bitChanged (perPort (pulseEnd failReply).out .B) 7#4 (!true)⟩) = none :=
  ⟨pulseEnd_inv _, rfl, rfl, rfl, rfl⟩

/-- Both answers the statement allows occur. -/
theorem witness_TheReleaseGuardNeverFails :
    BlockInv (pulseEnd okReply) ∧ (pulseEnd okReply).phase = .release ∧
    (pulseEnd okReply).cmd = some (.pulsePin 1#4 7#4 true 5#32) ∧
    (∃ t, exec (.pulsePin 1#4 7#4 true 5#32) (pulseEnd okReply) = .next t ∧
      t.trace = (pulseEnd okReply).trace ++ [.xfer ⟨0x40#8, 0x15#8, 0x00#8⟩ (some ⟨0x00#8, 0x00#8, 0x00#8⟩) 0 3,
        .resp .ok 0#16 3 3]) ∧
    (∃ t, exec (.pulsePin 1#4 7#4 true 5#32) (pulseEnd failReply) = .next t ∧
      t.trace = (pulseEnd failReply).trace ++ [.xfer ⟨0x40#8, 0x15#8, 0x00#8⟩ none 0 3, .resp .busError 0#16 3 3]) :=
  ⟨pulseEnd_inv _, rfl, rfl, ⟨_, rfl, by decide⟩, ⟨_, rfl, by decide⟩⟩

/-- A sequence of one coordinate about to assert. -/
def seqStart : State := at' (.pressSeq [⟨1#8, 2#8⟩] 5#32 9#32) .assert 0 (lab ⟨0x00#8, 0x00#8⟩ [okReply, okReply])

theorem seqStart_inv : BlockInv seqStart where
  idle_iff := by constructor <;> intro h <;> cases h
  position := by intro i h; cases h; exact ⟨by decide, by decide⟩
  handle := rfl
  table := by decide
  chip := rfl
  asserted := by intro i _ h; rcases h with h | h <;> cases h
  gapOpen := by intro h; cases h

theorem witness_SuccessfulSequence :
    BlockInv seqStart ∧ seqStart.phase = .assert ∧ seqStart.idx = 0 ∧
    seqStart.cmd = some (.pressSeq [⟨1#8, 2#8⟩] 5#32 9#32) ∧
    (∃ t, core.run 3 seqStart = .next t ∧ t.phase = .idle ∧ t.resp.status = .ok) ∧
    ∀ j u, j ≤ 2 → core.run j seqStart = .next u → u.phase ≠ .idle := by
  refine ⟨seqStart_inv, rfl, rfl, rfl, ⟨_, rfl, rfl, rfl⟩, ?_⟩
  intro j u hj h
  match j, hj with
  | 0, _ => cases (show core.run 0 seqStart = .next _ from rfl).symm.trans h; exact nofun
  | 1, _ => cases (show core.run 1 seqStart = .next _ from rfl).symm.trans h; exact nofun
  | 2, _ => cases (show core.run 2 seqStart = .next _ from rfl).symm.trans h; exact nofun

theorem witness_EveryCommandEnds : BlockInv seqStart ∧ seqStart.phase ≠ .idle := ⟨seqStart_inv, nofun⟩

theorem witness_AcceptedTable :
    tableOk Config.cfgT = true ∧ ¬outsideMatrix Config.cfgT 1#8 2#8 ∧ Config.cfgT.numRows * Config.cfgT.numCols ≤ 16 :=
  ⟨by decide, by simp [outsideMatrix, Config.cfgT], by decide⟩

theorem witness_ClosedSession :
    shut.life = .closed ∧ (at' seq5 .assert 2 shut).life = .closed ∧ (at' seq5 .assert 2 shut).phase = .assert ∧
    (at' seq5 .assert 2 shut).idx < 3 := by decide

/-- A closed session that answers OK. -/
theorem witness_ClosedSessionAnswersOk :
    shut.life = .closed ∧ ∃ t, exec (.pressSeq [] 1#32 1#32) shut = .next t ∧
      t.trace = shut.trace ++ [.resp .ok 0#16 0 0] := ⟨rfl, _, rfl, by decide⟩

/-- A validation error at pin 8. -/
theorem witness_ValidationError :
    ∃ t, exec (.togglePin 1#4 8#4) (lab ⟨0x00#8, 0x00#8⟩ []) = .next t ∧
      t.trace = (lab ⟨0x00#8, 0x00#8⟩ []).trace ++ [.resp .validationError 0#16 0 0] := ⟨_, rfl, by decide⟩

/-- A bus error; its one failed frame stands on the trace. -/
theorem witness_BusError_NoRetry :
    ∃ t, exec (.setPin 1#4 7#4 true) (lab ⟨0x00#8, 0x00#8⟩ [failReply]) = .next t ∧
      t.trace = (lab ⟨0x00#8, 0x00#8⟩ [failReply]).trace ++
        [.xfer ⟨0x40#8, 0x15#8, 0x80#8⟩ none 0 3, .resp .busError 0#16 3 3] := ⟨_, rfl, by decide⟩

/-- ABORT in the gap of a sequence: one press is complete. -/
theorem witness_Abort :
    let s := { at' seq5 .gap 0 (lab ⟨0x00#8, 0x00#8⟩ []) with waitScript := ⟨[⟨0, true, 7⟩], 0⟩ }
    ∃ t, exec seq5 s = .next t ∧ t.trace = s.trace ++ [.resp .aborted 1#16 7 7] := ⟨_, rfl, by decide⟩

/-- A state after reset with a request to run, for the statements about every step. -/
theorem witness_EveryStep :
    BlockInv seqStart ∧ BlockInv (pulseEnd failReply) ∧ (∃ t, step seqStart = .next t) ∧
    (∃ t, step (pulseEnd failReply) = .next t) ∧ ∃ t, step (State.reset.withFetchWord 32 0xB0000000) = .next t :=
  ⟨seqStart_inv, pulseEnd_inv _, ⟨_, rfl⟩, ⟨_, rfl⟩, ⟨_, rfl⟩⟩

/-- A step that sends a frame: `read_port_input(B)`, whose third byte is the fill byte. -/
theorem witness_OnlyOwnFramesAreSent :
    ∃ t, step ((lab ⟨0x00#8, 0x00#8⟩ [okReply]).withFetchWord 32 0x61000000) = .next t ∧
      t.trace = [.xfer ⟨0x41#8, 0x13#8, 0x00#8⟩ (some ⟨0x00#8, 0x00#8, 0x00#8⟩) 0 3, .resp .ok 0#16 3 3] :=
  ⟨_, rfl, by decide⟩

/-- A step that is no reset: idle with a command, and in the middle of one. -/
theorem witness_TablesAreConstant :
    (∃ t, step (State.reset.withFetchWord 32 0xB0000000) = .next t) ∧
    (∀ cfg rest, (State.reset.withFetchWord 32 0xB0000000).host ≠ .reset cfg :: rest) ∧
    (∃ t, step seqStart = .next t) ∧ seqStart.phase ≠ .idle :=
  ⟨⟨_, rfl⟩, nofun, ⟨_, rfl⟩, nofun⟩

theorem witness_OnlyCleanupClosesTheSession :
    (∃ t, exec .cleanup State.reset = .next t ∧ t.life = .closed) ∧
    ∃ t, exec (.getPortState 0#4) State.reset = .next t ∧ t.life = .opened := ⟨⟨_, rfl, rfl⟩, ⟨_, rfl, rfl⟩⟩

theorem witness_Caches :
    (∃ t, exec (.configurePinMode 0#4 0#4 false) (lab ⟨0x00#8, 0x00#8⟩ [okReply]) = .next t ∧ t.dir ≠ ⟨0x00#8, 0x00#8⟩) ∧
    (∃ t, exec .reservedF State.reset = .next t) ∧ (∃ t, exec (.readPortInput 1#4) (lab ⟨0x00#8, 0x00#8⟩ [okReply]) = .next t) ∧
    (∃ t, exec (.resolve 0#8 0#8) State.reset = .next t) ∧
    ∃ t, exec (.regWrite 0#3 0x14#8 0xFF#8) (lab ⟨0x00#8, 0x00#8⟩ [okReply]) = .next t :=
  ⟨⟨_, rfl, by decide⟩, ⟨_, rfl⟩, ⟨_, rfl⟩, ⟨_, rfl⟩, ⟨_, rfl⟩⟩

theorem witness_ChipContentsAreHidden : State.reset.responder = .free := rfl

/-- IdealChip with each IN register, and a register that is neither. -/
theorem witness_IdealChip :
    let s := { State.reset with responder := .ideal }
    s.responder = .ideal ∧ s.life = .opened ∧ 0x14#8 ∈ regAddrs s.params ∧
    0x14#8 ≠ regAddr s.params .inp .A ∧ 0x14#8 ≠ regAddr s.params .inp .B ∧
    0x12#8 = regAddr s.params .inp .A ∧ 0x13#8 = regAddr s.params .inp .B ∧ 0x13#8 ≠ regAddr s.params .inp .A := by
  decide

/-- A reset that succeeds, from an open and from a closed session. -/
theorem witness_SuccessfulReset :
    tableOk Config.cfgT = true ∧ (lab ⟨0x00#8, 0x00#8⟩ []).params.initFrames = [] ∧
    ((closeIfOpen (lab ⟨0x00#8, 0x00#8⟩ [])).handleScript.head Config.freeHandle).ok = true ∧
    ((closeIfOpen shut).handleScript.head Config.freeHandle).ok = true := by decide

theorem witness_RefusedTable : tableOk { Config.cfgT with map := [] } = false := by decide

theorem witness_ResetEnds :
    (shut.life = .closed → shut.handle = none) ∧ (State.reset.life = .closed → State.reset.handle = none) := by decide

/-- The handle opens; a table that passes the check. -/
theorem witness_BeforeAnyReset :
    ((⟨[⟨true, 0⟩], 0⟩ : Script HandleReply).head Config.freeHandle).ok = true ∧ tableOk Config.cfgT = true := by decide

theorem witness_Ticks : 0 < 3 ∧ 0 < Config.paramsP0.tickNum ∧ 1 * Config.paramsP0.tickDen ≤ 334 * (3 * Config.paramsP0.tickNum) := by
  decide

end Sys2Proof.Tests
end

section
/-! The steps of a command in progress (42_pulse_engine.md R161, 44_matrix_session.md R183): the outside world's move
keeps the invariant, and a micro-step ends the command or leads to its next position, where the invariant holds and
fewer steps are left. -/

namespace Sys2Proof.Machine

/-! ## The outside world's move (00_scope.md R18) -/

theorem now_le_now_worldMove (s : State) : s.now ≤ (worldMove s).now := Nat.le_add_right _ _

/-- Of what the invariant speaks of, the outside world reaches the chip's registers only. -/
theorem worldMove_keeps_inv {s : State} (hi : BlockInv s) : BlockInv (worldMove s) :=
  { hi with chip := chipAfterActs_keeps_wf _ _ hi.chip }

/-! ## Positions -/

@[simp] theorem positionOk_hold (i : Instr) (n : Nat) : positionOk i .hold n = positionOk i .assert n := by
  cases i <;> rfl

@[simp] theorem positionOk_release (i : Instr) (n : Nat) : positionOk i .release n = positionOk i .assert n := by
  cases i <;> rfl

@[simp] theorem positionOk_pressSeq_assert (coords : List Coord) (d ivl : Word) (n : Nat) :
    positionOk (.pressSeq coords d ivl) .assert n = true ↔ n < coords.length := by
  simp [positionOk]

/-- At every position of a sequence IDX names one of its coordinates (44_matrix_session.md R183). -/
theorem idx_lt_of_positionOk {coords : List Coord} {d ivl : Word} {ph : Phase} {n : Nat}
    (h : positionOk (.pressSeq coords d ivl) ph n = true) : n < coords.length := by
  simp only [positionOk, Bool.and_eq_true, decide_eq_true_eq] at h
  obtain ⟨⟨-, hidx⟩, -⟩ := h
  exact hidx

/-- Only a sequence stands at GAP, and only before a further coordinate (44_matrix_session.md R183). -/
theorem positionOk_gap_iff (i : Instr) (n : Nat) :
    positionOk i .gap n = true ↔ ∃ coords d ivl, i = .pressSeq coords d ivl ∧ n + 1 < coords.length := by
  cases i with
  | pressSeq coords d ivl => simp [positionOk]; omega
  | _ => simp [positionOk]

/-- The micro-step of a command in progress always has a next state: its position is one of the command's. -/
theorem exec_inProgress_next {s : State} {i : Instr} (hi : BlockInv s) (hc : s.cmd = some i) (hp : s.phase ≠ .idle) :
    ∃ t, exec i s = .next t := by
  have hpos := (hi.position i hc).2
  cases i with
  | pulsePin port pin active d =>
    cases hph : s.phase <;> simp_all [exec, execPulsePin, positionOk]
  | press row col d =>
    cases hph : s.phase <;> simp_all [exec, execPress, positionOk]
  | pressSeq coords d ivl =>
    obtain ⟨c, hcoord⟩ : ∃ c, coords[s.idx]? = some c :=
      ⟨_, List.getElem?_eq_getElem (idx_lt_of_positionOk hpos)⟩
    cases hph : s.phase <;> simp_all [exec, execPressSeq]
  | _ => cases hpos

/-! ## The bit a pin change leaves in the cache (41_pin_ops.md R131) -/

theorem pinBit_withPin_same (old : Byte) (pin : BitVec 4) (bit : Bool) (h : pin.toNat ≤ 7) :
    pinBit (withPin old pin bit) pin = bit := by
  cases bit with
  | false => simp [pinBit, withPin, pinMask]
  | true => simp [pinBit, withPin, pinMask]; omega

theorem pinOutOfRange_some_eq_false_iff (pin : BitVec 4) : pinOutOfRange (some pin) = false ↔ pin.toNat ≤ 7 := by
  simp [pinOutOfRange]

/-! ## The invariant at the next position -/

/-- ASSERT to HOLD: the successful write left the active level in the cache (42_pulse_engine.md R161). -/
theorem pinSent_hold_keeps_inv {s : State} {i : Instr} {port pin : BitVec 4} {active : Bool} {p : Port}
    (hi : BlockInv s) (hp : s.phase = .assert) (hc : s.cmd = some i)
    (ht : pulseTarget s i = some (port, pin, active)) (hg : cmdGuard s port (some pin) none = .ok p) :
    BlockInv (pinSent s p pin active .hold) := by
  obtain ⟨hopen, hport, hpin, -⟩ := (cmdGuard_ok_iff ..).mp hg
  rw [pinOutOfRange_some_eq_false_iff] at hpin
  exact { hi with
    idle_iff := ⟨nofun, fun h => nomatch hc.symm.trans h⟩
    position := fun j hj => by simpa [hp] using hi.position j hj
    chip := chipAfter_keeps_wf _ _ _ _ hi.chip
    asserted := fun j hj _ => by
      cases hc.symm.trans hj
      exact ⟨hopen, port, pin, active, p, ht, hport, hpin, by simp [pinBit_withPin_same _ _ _ hpin]⟩
    gapOpen := nofun }

/-- HOLD to RELEASE: the wait changes nothing the invariant speaks of but the position. -/
theorem waited_release_keeps_inv {s : State} {i : Instr} (now : Nat) (trace : List Event) (sc : Script WaitReply)
    (hi : BlockInv s) (hp : s.phase = .hold) (hc : s.cmd = some i) :
    BlockInv { s with now := now, trace := trace, waitScript := sc, phase := .release } :=
  { hi with
    idle_iff := ⟨nofun, fun h => nomatch hc.symm.trans h⟩
    position := fun j hj => by simpa [hp] using hi.position j hj
    asserted := fun j hj _ => hi.asserted j hj (.inl hp)
    gapOpen := nofun }

/-- RELEASE to GAP: a further coordinate follows (44_matrix_session.md R183). -/
theorem pinSent_gap_keeps_inv {s : State} {coords : List Coord} {d ivl : Word} {pin : BitVec 4} {p : Port}
    (hi : BlockInv s) (hc : s.cmd = some (.pressSeq coords d ivl)) (hopen : s.life = .opened)
    (hnext : s.idx + 1 < coords.length) : BlockInv (pinSent s p pin false .gap) :=
  { hi with
    idle_iff := ⟨nofun, fun h => nomatch hc.symm.trans h⟩
    position := fun j hj => by
      cases hc.symm.trans hj
      exact ⟨(hi.position _ hc).1, (positionOk_gap_iff ..).mpr ⟨coords, d, ivl, rfl, hnext⟩⟩
    chip := chipAfter_keeps_wf _ _ _ _ hi.chip
    asserted := fun _ _ h => by rcases h with h | h <;> cases h
    gapOpen := fun _ => hopen }

/-- GAP to the ASSERT of the next coordinate. -/
theorem waited_assert_keeps_inv {s : State} {coords : List Coord} {d ivl : Word} (now : Nat) (trace : List Event)
    (sc : Script WaitReply) (hi : BlockInv s) (hc : s.cmd = some (.pressSeq coords d ivl))
    (hnext : s.idx + 1 < coords.length) :
    BlockInv { s with now := now, trace := trace, waitScript := sc, phase := .assert, idx := s.idx + 1 } :=
  { hi with
    idle_iff := ⟨nofun, fun h => nomatch hc.symm.trans h⟩
    position := fun j hj => by
      cases hc.symm.trans hj
      exact ⟨(hi.position _ hc).1, (positionOk_pressSeq_assert ..).mpr hnext⟩
    asserted := fun _ _ h => by rcases h with h | h <;> cases h
    gapOpen := nofun }

/-! ## The steps a position leaves -/

/-- The coordinates that follow the one at index `idx`. -/
def coordsFollowing (cmd : Option Instr) (idx : Nat) : Nat :=
  match cmd with
  | some (.pressSeq coords _ _) => coords.length - 1 - idx
  | _ => 0

/-- The micro-steps of the press at hand that are left at a position (42_pulse_engine.md R161). -/
def stepsOfPress : Phase → Nat
  | .idle => 0
  | .assert => 3
  | .hold => 2
  | .release => 1
  | .gap => 0

theorem stepsLeft_eq (s : State) : stepsLeft s = 4 * coordsFollowing s.cmd s.idx + stepsOfPress s.phase := by
  unfold stepsLeft
  cases s.cmd with
  | none => cases s.phase <;> rfl
  | some i => cases i <;> cases s.phase <;> rfl

@[simp] theorem stepsLeft_worldMove (s : State) : stepsLeft (worldMove s) = stepsLeft s := rfl

/-- A position other than IDLE leaves at least one step. -/
theorem stepsLeft_pos {s : State} (hi : BlockInv s) (hp : s.phase ≠ .idle) : 0 < stepsLeft s := by
  rw [stepsLeft_eq]
  cases hph : s.phase with
  | idle => exact absurd hph hp
  | assert | hold | release => simp [stepsOfPress]
  | gap =>
    obtain ⟨i, hc⟩ := Option.ne_none_iff_exists'.mp (mt hi.idle_iff.mpr hp)
    have hpos := (hi.position i hc).2
    rw [hph] at hpos
    obtain ⟨coords, d, ivl, rfl, hnext⟩ := (positionOk_gap_iff ..).mp hpos
    simp only [hc, coordsFollowing]
    omega

/-! ## A micro-step of a command in progress -/

/-- After a micro-step from `s` the command goes on in `t`: it still has a position, the invariant holds, and fewer
steps are left. -/
structure GoesOn (s t : State) : Prop where
  busy : t.phase ≠ .idle
  inv : BlockInv t
  fewer : stepsLeft t < stepsLeft s

/-- The micro-step of a command in progress ends it or goes on to the next position, with fewer steps left
(42_pulse_engine.md R161, 44_matrix_session.md R183). -/
theorem exec_ends_or_goesOn {s t : State} {i : Instr} (hi : BlockInv s) (hc : s.cmd = some i) (hp : s.phase ≠ .idle)
    (h : exec i s = .next t) : t.phase = .idle ∨ GoesOn s t := by
  cases hph : s.phase with
  | idle => exact absurd hph hp
  | assert =>
    refine (assert_next hi hph hc h).imp_right ?_
    rintro ⟨port, pin, active, p, rx, -, htarget, hguard, rfl⟩
    exact ⟨nofun, pinSent_hold_keeps_inv hi hph hc htarget hguard, by simp [stepsLeft_eq, stepsOfPress, hph]⟩
  | hold =>
    refine (hold_next hi hph hc h).imp_right ?_
    rintro ⟨d, n, -, rfl, -⟩
    exact ⟨nofun, waited_release_keeps_inv _ _ _ hi hph hc, by simp [stepsLeft_eq, stepsOfPress, hph]⟩
  | release =>
    refine (release_next hi hph hc h).imp_right ?_
    rintro ⟨coords, d, ivl, port, pin, p, rx, rfl, hnext, -, -, hguard, rfl⟩
    exact ⟨nofun, pinSent_gap_keeps_inv hi hc (cmdGuard_opened hguard) hnext,
      by simp [stepsLeft_eq, stepsOfPress, hph]⟩
  | gap =>
    refine (gap_next hi hph hc h).imp_right ?_
    rintro ⟨coords, d, ivl, n, rfl, -, rfl⟩
    have hpos := (hi.position _ hc).2
    rw [hph] at hpos
    obtain ⟨_, _, _, ⟨⟩, hnext⟩ := (positionOk_gap_iff ..).mp hpos
    refine ⟨nofun, waited_assert_keeps_inv _ _ _ hi hc hnext, ?_⟩
    simp only [stepsLeft_eq, coordsFollowing, stepsOfPress, hph, hc]
    omega

/-- At a position other than IDLE the step is the micro-step of the latched command after the outside world's move. -/
theorem step_inProgress {s : State} {i : Instr} (hp : s.phase ≠ .idle) (hc : s.cmd = some i) :
    step s = exec i (worldMove s) := by
  cases hph : s.phase with
  | idle => exact absurd hph hp
  | _ => simp [step, stepEngine, stepCommand, hph, hc]

/-- A step from a position other than IDLE ends the command or goes on with it. -/
theorem step_ends_or_goesOn {s : State} (hi : BlockInv s) (hp : s.phase ≠ .idle) :
    ∃ t, step s = .next t ∧ (t.phase = .idle ∨ GoesOn s t) := by
  obtain ⟨i, hc⟩ := Option.ne_none_iff_exists'.mp (mt hi.idle_iff.mpr hp)
  have hw : BlockInv (worldMove s) := worldMove_keeps_inv hi
  obtain ⟨t, ht⟩ := exec_inProgress_next hw hc hp
  refine ⟨t, (step_inProgress hp hc).trans ht, (exec_ends_or_goesOn hw hc hp ht).imp_right ?_⟩
  exact fun hgo => ⟨hgo.busy, hgo.inv, hgo.fewer⟩

/-- A command in progress ends, by induction on the number of steps its position leaves. -/
theorem run_reaches_idle {s : State} (hi : BlockInv s) (hp : s.phase ≠ .idle) :
    ∃ k t, 0 < k ∧ k ≤ stepsLeft s ∧ core.run k s = .next t ∧ t.phase = .idle := by
  induction hn : stepsLeft s using Nat.strong_induction_on generalizing s with
  | _ n ih =>
    subst hn
    obtain ⟨u, hstep, hidle | hgo⟩ := step_ends_or_goesOn hi hp
    · exact ⟨1, u, Nat.one_pos, stepsLeft_pos hi hp, run_step 0 s u hstep, hidle⟩
    · obtain ⟨k, t, -, hk, hrun, ht⟩ := ih _ hgo.fewer hgo.inv hgo.busy rfl
      exact ⟨k + 1, t, k.succ_pos, hk.trans_lt hgo.fewer, (run_step k s u hstep).trans hrun, ht⟩

end Sys2Proof.Machine
end

section
/-! The obligations of the family 00_scope.md. -/

namespace Sys2Proof.Machine

/-- Settles O32, by induction on the number of steps left: each step ends the command or lowers it. -/
theorem everyCommandEnds : Obligations.EveryCommandEnds :=
  fun _ hi hp => run_reaches_idle hi hp

/-- Settles O11: the move is a record update of the four fields, and it adds the drawn time to NOW. -/
theorem outsideWorldLeavesTheBlockAlone : Obligations.OutsideWorldLeavesTheBlockAlone :=
  fun s => ⟨now_le_now_worldMove s, rfl⟩

end Sys2Proof.Machine
end

section
/-! What every step keeps of the invariant (10_state.md R25, R32): a transfer, the end of a command, the acceptance of a
command, and a reset, from whose parts the step is made. -/

namespace Sys2Proof.Machine

/-! ## Commands as the decoder gives them -/

/-- The number of coordinates is the 16-bit `val` field of word 0 (30_encoding.md R87, R89). -/
theorem decodeWords_wf {ws more : List Word} {i : Instr} (h : decodeWords ws = .ok (i, more)) : i.wf = true := by
  cases ws with
  | nil => cases h
  | cons w rest =>
    simp only [decodeWords] at h
    split at h
    · cases h
    simp only [Except.ok.injEq, Prod.mk.injEq] at h
    obtain ⟨rfl, -⟩ := h
    by_cases hop : (opField w).toNat = 10
    · have hlen : cmdLength w = 3 + (valField w).toNat := by simp [cmdLength, hop]
      have hval : (valField w).toNat < 65536 := (valField w).isLt
      simp only [decodeOperands, hop, Instr.wf, decide_eq_true_eq, List.length_map, List.length_drop,
        List.length_take, hlen]
      omega
    · unfold decodeOperands
      split
      case h_11 h10 => exact absurd h10 hop
      all_goals rfl

theorem decodeFrame_wf {f : BitVec 24} {i : Instr} (h : decodeFrame f = .ok i) : i.wf = true := by
  unfold decodeFrame at h
  split at h
  · split at h <;> cases h <;> rfl
  · cases h

/-- The idle port takes well-formed instructions only. -/
theorem fetch_wf {host rest : List HostItem} {i : Instr} (h : fetch host = .instr i rest) : i.wf = true := by
  unfold fetch at h
  split at h
  · cases h
  · cases h
  · split at h <;> cases h
    exact decodeFrame_wf ‹_›
  · split at h
    · cases h
      exact decodeWords_wf ‹_›
    · split at h <;> cases h

/-! ## The invariant at IDLE -/

/-- The handle is held exactly on an open session, and is the one CFG names (10_state.md R32). -/
def HandleOk (s : State) : Prop :=
  s.handle =
    match s.life with
    | .opened => some ⟨s.cfg.busIndex, s.cfg.devIndex, s.cfg.clockHz⟩
    | .closed => none

theorem handleOk_of_closed {s : State} (hl : s.life = .closed) (hh : s.handle = none) : HandleOk s := by
  rw [HandleOk, hl]; exact hh

theorem handle_none_of_closed {s : State} (hi : BlockInv s) (hl : s.life = .closed) : s.handle = none := by
  have := hi.handle
  rwa [hl] at this

/-- At IDLE the invariant speaks of the handle, the table and the chip's registers alone. -/
theorem blockInv_of_idle {s : State} (hp : s.phase = .idle) (hc : s.cmd = none) (hh : HandleOk s)
    (ht : tableOk s.cfg = true) (hm : s.chip.wf = true) : BlockInv s where
  idle_iff := iff_of_true hp hc
  position := fun _ h => nomatch hc.symm.trans h
  handle := hh
  table := ht
  chip := hm
  asserted := fun _ h => nomatch hc.symm.trans h
  gapOpen := fun h => nomatch hp.symm.trans h

theorem afterXfer_keeps_inv {s : State} (tx : Frame) (hi : BlockInv s) : BlockInv (afterXfer s tx) :=
  { hi with chip := chipAfter_keeps_wf _ _ _ _ hi.chip }

/-- The end of a command asks nothing of the position it ends at. -/
theorem blockInv_endCommand {s : State} (e : Status) (v : Half) (hh : HandleOk s) (ht : tableOk s.cfg = true)
    (hm : s.chip.wf = true) : BlockInv (endCommand e v s) :=
  blockInv_of_idle rfl rfl hh ht hm

/-! ## A micro-step of an instruction -/

/-- A micro-step that leads to IDLE keeps the invariant. -/
theorem shape_idle_keeps_inv {i : Instr} {s t : State} (hi : BlockInv s) (h : Shape i s t) (ht : t.phase = .idle) :
    BlockInv t := by
  cases h with
  | latched n hp hm => cases ht
  | quiet e v n => exact blockInv_endCommand e v hi.handle hi.table hi.chip
  | cleaned => exact blockInv_endCommand _ _ rfl hi.table hi.chip
  | sent => exact blockInv_endCommand _ _ hi.handle hi.table (afterXfer_keeps_inv _ hi).chip
  | sentOn reg v rx out ph hw ho hr ha hp => rcases hp with ⟨-, rfl⟩ | ⟨-, rfl⟩ <;> cases ht
  | failed => exact blockInv_endCommand _ _ hi.handle hi.table (afterXfer_keeps_inv _ hi).chip
  | waited d slack n ph hp => rcases hp with ⟨-, rfl, -⟩ | ⟨-, rfl, -⟩ <;> cases ht
  | cut k n => exact blockInv_endCommand _ _ hi.handle hi.table hi.chip

/-- From IDLE a micro-step ends the command or latches it at its first position (10_state.md R25, log 2). -/
theorem exec_from_idle {s t : State} {i : Instr} (hp : s.phase = .idle) (h : exec i s = .next t) :
    t.phase = .idle ∨ ∃ n, positionOk i .assert n = true ∧ t = beginCommand i { s with idx := n } := by
  by_cases hm : multiStep i = true
  · cases i with
    | pulsePin port pin active d =>
      simp only [exec, execPulsePin, hp, Host.Outcome.next.injEq] at h
      exact .inr ⟨s.idx, rfl, h.symm⟩
    | press row col d =>
      simp only [exec, execPress, hp, Host.Outcome.next.injEq] at h
      exact .inr ⟨s.idx, rfl, h.symm⟩
    | pressSeq coords d ivl =>
      simp only [exec, execPressSeq, hp] at h
      cases coords with
      | nil => cases h; exact .inl rfl
      | cons c cs => cases h; exact .inr ⟨0, by simp, rfl⟩
    | _ => cases hm
  · refine .inl ?_
    cases exec_shape h with
    | latched n _ hm' => exact absurd hm' hm
    | sentOn _ _ _ _ _ _ _ _ _ hph => simp [hp] at hph
    | waited _ _ _ _ hph => simp [hp] at hph
    | _ => rfl

theorem beginCommand_keeps_inv {s : State} {i : Instr} (n : Nat) (hi : BlockInv s) (hw : i.wf = true)
    (hpos : positionOk i .assert n = true) : BlockInv (beginCommand i { s with idx := n }) :=
  { hi with
    idle_iff := ⟨nofun, nofun⟩
    position := fun j hj => by cases hj; exact ⟨hw, hpos⟩
    asserted := fun _ _ h => by rcases h with h | h <;> cases h
    gapOpen := nofun }

/-- The first micro-step of a well-formed instruction keeps the invariant. -/
theorem exec_from_idle_keeps_inv {s t : State} {i : Instr} (hi : BlockInv s) (hp : s.phase = .idle)
    (hw : i.wf = true) (h : exec i s = .next t) : BlockInv t := by
  obtain ht | ⟨n, hpos, rfl⟩ := exec_from_idle hp h
  · exact shape_idle_keeps_inv hi (exec_shape h) ht
  · exact beginCommand_keeps_inv n hi hw hpos

/-- A further micro-step of the latched command keeps the invariant. -/
theorem exec_inProgress_keeps_inv {s t : State} {i : Instr} (hi : BlockInv s) (hp : s.phase ≠ .idle)
    (hc : s.cmd = some i) (h : exec i s = .next t) : BlockInv t := by
  obtain ht | hgo := exec_ends_or_goesOn hi hc hp h
  · exact shape_idle_keeps_inv hi (exec_shape h) ht
  · exact hgo.inv

/-! ## Reset (70_reset_and_hazards.md R240) -/

theorem closeIfOpen_keeps_inv {s : State} (hi : BlockInv s) (hp : s.phase = .idle) : BlockInv (closeIfOpen s) := by
  rcases closeIfOpen_cases s with ⟨-, h⟩ | ⟨-, h⟩ <;> rw [h]
  · exact blockInv_of_idle hp (hi.idle_iff.mp hp) rfl hi.table hi.chip
  · exact hi

/-- A failed reset leaves the session closed: with no handle held the invariant holds. -/
theorem blockInv_failReset {s : State} (e : Status) (hh : s.handle = none) (ht : tableOk s.cfg = true)
    (hm : s.chip.wf = true) : BlockInv (failReset e s) :=
  blockInv_of_idle rfl rfl (handleOk_of_closed rfl hh) ht hm

theorem sendInitFrames_keeps_inv {s : State} (fs : List InitFrame) (hi : BlockInv s) :
    (∃ v t, sendInitFrames fs s = .ok v t ∧ BlockInv t) ∨
      (∃ t, sendInitFrames fs s = .err .busError t ∧ BlockInv t) :=
  (sendInitFrames_relation (fun s t => BlockInv s → BlockInv t) (fun _ => id) (fun _ _ _ hst htu => htu ∘ hst)
    (fun _ => worldMove_keeps_inv) (fun _ tx => afterXfer_keeps_inv tx) fs s).imp
    (fun ⟨v, t, h, ht⟩ => ⟨v, t, h, ht hi⟩) (fun ⟨t, h, ht⟩ => ⟨t, h, ht hi⟩)

theorem finishReset_keeps_inv {s : State} (hi : BlockInv s) : BlockInv (finishReset s) := by
  unfold finishReset
  rcases sendInitFrames_keeps_inv s.params.initFrames hi with ⟨v, t, h, ht⟩ | ⟨t, h, ht⟩ <;> rw [h]
  · exact { ht with }
  · exact blockInv_failReset _ rfl ht.table (worldMove_keeps_inv ht).chip

/-- A construction without a handle held keeps the invariant. -/
theorem construct_keeps_inv {s : State} (cfg : Cfg) (hi : BlockInv s) (hh : s.handle = none) :
    BlockInv (construct cfg s) := by
  have hm : (worldMove s).chip.wf = true := (worldMove_keeps_inv hi).chip
  rcases construct_cases cfg s with ⟨-, h⟩ | ⟨ht, -, h⟩ | ⟨ht, -, h⟩ <;> rw [h]
  · exact blockInv_failReset _ hh hi.table hi.chip
  · exact blockInv_failReset _ hh ht hm
  · exact finishReset_keeps_inv (blockInv_of_idle rfl rfl rfl ht hm)

theorem performReset_keeps_inv {s : State} (cfg : Cfg) (hi : BlockInv s) (hp : s.phase = .idle) :
    BlockInv (performReset cfg s) :=
  have hclosed := closeIfOpen_keeps_inv hi hp
  construct_keeps_inv cfg hclosed (handle_none_of_closed hclosed (closeIfOpen_life s))

/-- The host's requests are no part of the invariant. -/
theorem worldMove_host_keeps_inv {s : State} (rest : List HostItem) (hi : BlockInv s) :
    BlockInv { worldMove s with host := rest } :=
  { worldMove_keeps_inv hi with }

/-- Settles O46, by the cases of a step: the outside world's move alone, a reset, the first micro-step of an
instruction, the next micro-step of the command in progress. -/
theorem everyStepKeepsTheInvariant : Obligations.EveryStepKeepsTheInvariant := by
  intro s t hi h
  rcases step_cases s t h with
    ⟨rfl, -⟩ | ⟨cfg, rest, hp, -, rfl⟩ | ⟨i, rest, hp, -, hf, he⟩ | ⟨i, hp, hc, he⟩
  · exact worldMove_keeps_inv hi
  · exact performReset_keeps_inv cfg (worldMove_host_keeps_inv rest hi) hp
  · exact exec_from_idle_keeps_inv (worldMove_host_keeps_inv rest hi) hp (fetch_wf hf) he
  · exact exec_inProgress_keeps_inv (worldMove_keeps_inv hi) hp hc he

/-- Settles O45: State.reset is idle, with the table T and no chip register listed. -/
theorem resetSatisfiesTheInvariant : Obligations.ResetSatisfiesTheInvariant :=
  blockInv_of_idle rfl rfl rfl (by decide) Memory.wf_nil

/-- Settles O9. -/
theorem stepContinuesTheLatchedCommand : Obligations.StepContinuesTheLatchedCommand :=
  fun _ _ hp hc => step_inProgress hp hc

end Sys2Proof.Machine
end

section
/-! The chip's registers and the pins are hidden from the block (10_state.md R31): states that differ only in them stay
so under every operation, since the answers of transfers are draws. -/

namespace Sys2Proof.Machine

/-! ## States alike but for the chip and the pins -/

/-- `u` is `s` but for the chip's registers and the pins, and the environment's answers are draws. -/
inductive Alike (s : State) : State → Prop
  | mk (chip : Memory) (pins : PerPort) (hfree : s.responder = .free) : Alike s { s with chip := chip, pins := pins }

/-- An operation that keeps alike states alike. -/
def KeepsAlike (f : State → State) : Prop := ∀ ⦃s u : State⦄, Alike s u → Alike (f s) (f u)

/-- The same result or the same error, in alike states. -/
inductive DoneAlike {α : Type} : Done α → Done α → Prop
  | ok (a : α) {s u : State} (h : Alike s u) : DoneAlike (.ok a s) (.ok a u)
  | err (e : Status) {s u : State} (h : Alike s u) : DoneAlike (.err e s) (.err e u)

theorem Alike.out_eq {s u : State} (h : Alike s u) : u.out = s.out := by cases h; rfl
theorem Alike.dir_eq {s u : State} (h : Alike s u) : u.dir = s.dir := by cases h; rfl
theorem Alike.life_eq {s u : State} (h : Alike s u) : u.life = s.life := by cases h; rfl
theorem Alike.phase_eq {s u : State} (h : Alike s u) : u.phase = s.phase := by cases h; rfl
theorem Alike.idx_eq {s u : State} (h : Alike s u) : u.idx = s.idx := by cases h; rfl
theorem Alike.cmd_eq {s u : State} (h : Alike s u) : u.cmd = s.cmd := by cases h; rfl
theorem Alike.cfg_eq {s u : State} (h : Alike s u) : u.cfg = s.cfg := by cases h; rfl
theorem Alike.params_eq {s u : State} (h : Alike s u) : u.params = s.params := by cases h; rfl
theorem Alike.host_eq {s u : State} (h : Alike s u) : u.host = s.host := by cases h; rfl
theorem Alike.handleScript_eq {s u : State} (h : Alike s u) : u.handleScript = s.handleScript := by cases h; rfl

theorem Alike.sameForTheBlock {s u : State} (h : Alike s u) : sameForTheBlock (.next s) (.next u) := by
  cases h; rfl

/-! ## Operations on the whole state -/

theorem endCommand_keepsAlike (e : Status) (v : Half) : KeepsAlike (endCommand e v) :=
  fun _ _ ⟨chip, pins, hfree⟩ => ⟨chip, pins, hfree⟩

theorem beginCommand_keepsAlike (i : Instr) : KeepsAlike (beginCommand i) :=
  fun _ _ ⟨chip, pins, hfree⟩ => ⟨chip, pins, hfree⟩

theorem worldMove_keepsAlike : KeepsAlike worldMove := fun _ _ ⟨_, _, hfree⟩ => ⟨_, _, hfree⟩

theorem setPhase_keepsAlike (ph : Phase) : KeepsAlike fun s => { s with phase := ph } :=
  fun _ _ ⟨chip, pins, hfree⟩ => ⟨chip, pins, hfree⟩

theorem setIdx_keepsAlike (n : Nat) : KeepsAlike fun s => { s with idx := n } :=
  fun _ _ ⟨chip, pins, hfree⟩ => ⟨chip, pins, hfree⟩

theorem setOut_keepsAlike (p : Port) (v : Byte) : KeepsAlike fun s => { s with out := withPort s.out p v } :=
  fun _ _ ⟨chip, pins, hfree⟩ => ⟨chip, pins, hfree⟩

theorem setDir_keepsAlike (p : Port) (v : Byte) : KeepsAlike fun s => { s with dir := withPort s.dir p v } :=
  fun _ _ ⟨chip, pins, hfree⟩ => ⟨chip, pins, hfree⟩

theorem setResp_keepsAlike (r : Resp) : KeepsAlike fun s => { s with resp := r } :=
  fun _ _ ⟨chip, pins, hfree⟩ => ⟨chip, pins, hfree⟩

theorem nextCoord_keepsAlike : KeepsAlike nextCoord := fun _ _ ⟨chip, pins, hfree⟩ => ⟨chip, pins, hfree⟩

theorem closeHandle_keepsAlike : KeepsAlike closeHandle := fun _ _ ⟨chip, pins, hfree⟩ => ⟨chip, pins, hfree⟩

theorem failReset_keepsAlike (e : Status) : KeepsAlike (failReset e) :=
  fun _ _ ⟨chip, pins, hfree⟩ => ⟨chip, pins, hfree⟩

theorem openHandle_keepsAlike (cfg : Cfg) : KeepsAlike (openHandle cfg) :=
  fun _ _ ⟨chip, pins, hfree⟩ => ⟨chip, pins, hfree⟩

theorem openFailed_keepsAlike (cfg : Cfg) : KeepsAlike (openFailed cfg) :=
  fun _ _ ⟨chip, pins, hfree⟩ => ⟨chip, pins, hfree⟩

theorem initState_keepsAlike : KeepsAlike initState := fun _ _ ⟨chip, pins, hfree⟩ => ⟨chip, pins, hfree⟩

theorem afterPress_keepsAlike (n : Nat) : KeepsAlike (afterPress n) := by
  rintro s _ ⟨chip, pins, hfree⟩
  simp only [afterPress]
  split
  · exact ⟨chip, pins, hfree⟩
  · exact endCommand_keepsAlike _ _ ⟨chip, pins, hfree⟩

theorem closeIfOpen_keepsAlike : KeepsAlike closeIfOpen := by
  intro s u h
  simp only [closeIfOpen, h.life_eq]
  cases s.life with
  | opened => exact closeHandle_keepsAlike h
  | closed => exact h

theorem waitThen_keepsAlike (d : Word) (k : Half) {go : State → State} (hgo : KeepsAlike go) :
    KeepsAlike (waitThen d k go) := by
  rintro s _ ⟨chip, pins, hfree⟩
  simp only [waitThen]
  split
  · exact ⟨chip, pins, hfree⟩
  · exact hgo ⟨chip, pins, hfree⟩

/-! ## Operations that answer a result -/

theorem conclude_alike {d e : Done Half} (h : DoneAlike d e) : Alike (conclude d) (conclude e) := by
  cases h with
  | ok v h => exact endCommand_keepsAlike _ _ h
  | err e h => exact endCommand_keepsAlike _ _ h

theorem orRaise_alike (k : Half) {go : State → State} (hgo : KeepsAlike go) {d e : Done Half} (h : DoneAlike d e) :
    Alike (orRaise k go d) (orRaise k go e) := by
  cases h with
  | ok v h => exact hgo h
  | err e h => exact endCommand_keepsAlike _ _ h

/-- A drawn answer does not depend on the chip or the pins (40_bus_transaction.md R110). -/
theorem Alike.busAnswer_eq {s u : State} (h : Alike s u) (tx : Frame) : busAnswer u tx = busAnswer s tx := by
  obtain ⟨chip, pins, hfree⟩ := h
  simp [busAnswer, hfree]

theorem afterXfer_keepsAlike (tx : Frame) : KeepsAlike (afterXfer · tx) := by
  intro s u h
  have hans := h.busAnswer_eq tx
  obtain ⟨chip, pins, hfree⟩ := h
  simp only [afterXfer, hans]
  exact ⟨_, pins, hfree⟩

theorem busXfer_alike (tx : Frame) {s u : State} (h : Alike s u) : DoneAlike (busXfer tx s) (busXfer tx u) := by
  have hafter := afterXfer_keepsAlike tx h
  simp only [busXfer, h.busAnswer_eq tx]
  cases answerBytes (busAnswer s tx) with
  | none => exact .err _ hafter
  | some rx => exact .ok _ hafter

/-- What alike results are, for a proof that goes on with both. -/
theorem DoneAlike.elim {α : Type} {d e : Done α} (h : DoneAlike d e) :
    (∃ a s u, d = .ok a s ∧ e = .ok a u ∧ Alike s u) ∨ (∃ k s u, d = .err k s ∧ e = .err k u ∧ Alike s u) := by
  cases h with
  | ok a h => exact .inl ⟨a, _, _, rfl, rfl, h⟩
  | err k h => exact .inr ⟨k, _, _, rfl, rfl, h⟩

theorem writeReg_alike (reg v : Byte) {s u : State} (h : Alike s u) :
    DoneAlike (writeReg reg v s) (writeReg reg v u) := by
  simp only [writeReg, h.cfg_eq]
  rcases (busXfer_alike (busFrame s.cfg false reg v) h).elim with
    ⟨_, _, _, hs, hu, h⟩ | ⟨_, _, _, hs, hu, h⟩ <;> rw [hs, hu]
  · exact .ok _ h
  · exact .err _ h

theorem readReg_alike (reg : Byte) {s u : State} (h : Alike s u) :
    DoneAlike (readReg reg s) (readReg reg u) := by
  simp only [readReg, h.cfg_eq, h.params_eq]
  rcases (busXfer_alike (busFrame s.cfg true reg s.params.readFill) h).elim with
    ⟨_, _, _, hs, hu, h⟩ | ⟨_, _, _, hs, hu, h⟩ <;> rw [hs, hu]
  · exact .ok _ h
  · exact .err _ h

theorem writeOut_alike (p : Port) (v : Byte) {s u : State} (h : Alike s u) :
    DoneAlike (writeOut p v s) (writeOut p v u) := by
  simp only [writeOut, h.params_eq]
  rcases (writeReg_alike (regAddr s.params .out p) v h).elim with
    ⟨_, _, _, hs, hu, h⟩ | ⟨_, _, _, hs, hu, h⟩ <;> rw [hs, hu]
  · exact .ok _ (setOut_keepsAlike p v h)
  · exact .err _ h

theorem writeDir_alike (p : Port) (v : Byte) {s u : State} (h : Alike s u) :
    DoneAlike (writeDir p v s) (writeDir p v u) := by
  simp only [writeDir, h.params_eq]
  rcases (writeReg_alike (regAddr s.params .dir p) v h).elim with
    ⟨_, _, _, hs, hu, h⟩ | ⟨_, _, _, hs, hu, h⟩ <;> rw [hs, hu]
  · exact .ok _ (setDir_keepsAlike p v h)
  · exact .err _ h

/-- The guard reads LIFE and the operands only (41_pin_ops.md R130). -/
theorem Alike.cmdGuard_eq {s u : State} (h : Alike s u) (port : BitVec 4) (pin : Option (BitVec 4))
    (value : Option Half) :
    cmdGuard u port pin value = cmdGuard s port pin value := by
  cases h; rfl

/-- A guarded operation, from the operation behind the guard. -/
theorem guarded_alike (port : BitVec 4) (pin : Option (BitVec 4)) (value : Option Half) {f g : Port → Done Half}
    {s u : State} (h : Alike s u) (hfg : ∀ p, DoneAlike (f p) (g p)) :
    DoneAlike (match cmdGuard s port pin value with | .error e => .err e s | .ok p => f p)
      (match cmdGuard u port pin value with | .error e => .err e u | .ok p => g p) := by
  rw [h.cmdGuard_eq port pin value]
  cases cmdGuard s port pin value with
  | error e => exact .err e h
  | ok p => exact hfg p

theorem setPinOp_alike (port pin : BitVec 4) (level : Bool) {s u : State} (h : Alike s u) :
    DoneAlike (setPinOp port pin level s) (setPinOp port pin level u) := by
  simp only [setPinOp, h.out_eq]
  exact guarded_alike port _ _ h fun p => writeOut_alike p _ h

theorem togglePinOp_alike (port pin : BitVec 4) {s u : State} (h : Alike s u) :
    DoneAlike (togglePinOp port pin s) (togglePinOp port pin u) := by
  simp only [togglePinOp, h.out_eq]
  refine guarded_alike port _ _ h fun p => ?_
  rcases (setPinOp_alike port pin (!pinBit (perPort s.out p) pin) h).elim with
    ⟨_, _, _, hs, hu, h⟩ | ⟨_, _, _, hs, hu, h⟩ <;> rw [hs, hu]
  · exact .ok _ h
  · exact .err _ h

theorem setPortOp_alike (port : BitVec 4) (value : Half) {s u : State} (h : Alike s u) :
    DoneAlike (setPortOp port value s) (setPortOp port value u) :=
  guarded_alike port _ _ h fun p => writeOut_alike p _ h

theorem getPortStateOp_alike (port : BitVec 4) {s u : State} (h : Alike s u) :
    DoneAlike (getPortStateOp port s) (getPortStateOp port u) := by
  simp only [getPortStateOp, h.out_eq]
  exact guarded_alike port _ _ h fun _ => .ok _ h

theorem configurePinModeOp_alike (port pin : BitVec 4) (isOutput : Bool) {s u : State} (h : Alike s u) :
    DoneAlike (configurePinModeOp port pin isOutput s) (configurePinModeOp port pin isOutput u) := by
  simp only [configurePinModeOp, h.dir_eq, h.params_eq]
  exact guarded_alike port _ _ h fun p => writeDir_alike p _ h

theorem readPortInputOp_alike (port : BitVec 4) {s u : State} (h : Alike s u) :
    DoneAlike (readPortInputOp port s) (readPortInputOp port u) := by
  simp only [readPortInputOp, h.params_eq]
  exact guarded_alike port _ _ h fun _ => readReg_alike _ h

theorem resolveOp_alike (row col : BitVec 8) {s u : State} (h : Alike s u) :
    DoneAlike (resolveOp row col s) (resolveOp row col u) := by
  simp only [resolveOp, h.cfg_eq]
  cases resolveCoord s.cfg row col with
  | error e => exact .err _ h
  | ok target => exact .ok _ h

theorem frameOp_alike (reg : Byte) {access : State → Done Half} {s u : State} (h : Alike s u)
    (ha : DoneAlike (access s) (access u)) : DoneAlike (frameOp reg access s) (frameOp reg access u) := by
  simp only [frameOp, h.life_eq, h.params_eq]
  split
  · exact .err _ h
  · split
    · exact ha
    · exact .err _ h

/-! ## The micro-steps of pulses and presses -/

theorem pulseAssert_keepsAlike (port pin : BitVec 4) (active : Bool) (k : Half) :
    KeepsAlike (pulseAssert port pin active k) :=
  fun _ _ h => orRaise_alike k (setPhase_keepsAlike .hold) (setPinOp_alike port pin active h)

theorem pulseHold_keepsAlike (d : Word) (k : Half) : KeepsAlike (pulseHold d k) :=
  waitThen_keepsAlike d k (setPhase_keepsAlike .release)

theorem pulseRelease_keepsAlike (port pin : BitVec 4) (active : Bool) (k : Half) {go : State → State}
    (hgo : KeepsAlike go) : KeepsAlike (pulseRelease port pin active k go) :=
  fun _ _ h => orRaise_alike k hgo (setPinOp_alike port pin (!active) h)

theorem pressAssert_keepsAlike (row col : BitVec 8) (k : Half) : KeepsAlike (pressAssert row col k) := by
  intro s u h
  simp only [pressAssert, h.life_eq, h.cfg_eq]
  split
  · exact endCommand_keepsAlike _ _ h
  · cases resolveCoord s.cfg row col with
    | error e => exact endCommand_keepsAlike _ _ h
    | ok target => exact pulseAssert_keepsAlike _ _ _ k h

theorem pressRelease_keepsAlike (row col : BitVec 8) (k : Half) {go : State → State} (hgo : KeepsAlike go) :
    KeepsAlike (pressRelease row col k go) := by
  intro s u h
  simp only [pressRelease, h.cfg_eq]
  cases resolveCoord s.cfg row col with
  | error e => exact endCommand_keepsAlike _ _ h
  | ok target => exact pulseRelease_keepsAlike _ _ _ k hgo h

theorem execPulsePin_same (port pin : BitVec 4) (active : Bool) (d : Word) {s u : State} (h : Alike s u) :
    sameForTheBlock (execPulsePin port pin active d s) (execPulsePin port pin active d u) := by
  simp only [execPulsePin, h.phase_eq]
  cases s.phase
  case idle => exact (beginCommand_keepsAlike _ h).sameForTheBlock
  case assert => exact (pulseAssert_keepsAlike port pin active _ h).sameForTheBlock
  case hold => exact (pulseHold_keepsAlike d _ h).sameForTheBlock
  case release => exact (pulseRelease_keepsAlike port pin active _ (endCommand_keepsAlike _ _) h).sameForTheBlock
  case gap => rfl

theorem execPress_same (row col : BitVec 8) (d : Word) {s u : State} (h : Alike s u) :
    sameForTheBlock (execPress row col d s) (execPress row col d u) := by
  simp only [execPress, h.phase_eq]
  cases s.phase
  case idle => exact (beginCommand_keepsAlike _ h).sameForTheBlock
  case assert => exact (pressAssert_keepsAlike row col _ h).sameForTheBlock
  case hold => exact (pulseHold_keepsAlike d _ h).sameForTheBlock
  case release => exact (pressRelease_keepsAlike row col _ (endCommand_keepsAlike _ _) h).sameForTheBlock
  case gap => rfl

theorem execPressSeq_same (coords : List Coord) (d ivl : Word) {s u : State} (h : Alike s u) :
    sameForTheBlock (execPressSeq coords d ivl s) (execPressSeq coords d ivl u) := by
  simp only [execPressSeq, h.phase_eq, h.idx_eq]
  cases s.phase
  case idle =>
    have h0 := setIdx_keepsAlike 0 h
    cases coords with
    | nil => exact (endCommand_keepsAlike _ _ h0).sameForTheBlock
    | cons c cs => exact (beginCommand_keepsAlike _ h0).sameForTheBlock
  case assert =>
    cases coords[s.idx]? with
    | none => rfl
    | some c => exact (pressAssert_keepsAlike _ _ _ h).sameForTheBlock
  case hold => exact (pulseHold_keepsAlike d _ h).sameForTheBlock
  case release =>
    cases coords[s.idx]? with
    | none => rfl
    | some c => exact (pressRelease_keepsAlike _ _ _ (afterPress_keepsAlike _) h).sameForTheBlock
  case gap => exact (waitThen_keepsAlike ivl _ nextCoord_keepsAlike h).sameForTheBlock

/-- Every instruction's micro-step is the same for the block from alike states. -/
theorem exec_same (i : Instr) {s u : State} (h : Alike s u) : sameForTheBlock (exec i s) (exec i u) := by
  have reserved := (endCommand_keepsAlike .fatalError 0#16 h).sameForTheBlock
  cases i with
  | regWrite a reg v => exact (conclude_alike (frameOp_alike reg h (writeReg_alike reg v h))).sameForTheBlock
  | regRead a reg v => exact (conclude_alike (frameOp_alike reg h (readReg_alike reg h))).sameForTheBlock
  | setPin port pin level => exact (conclude_alike (setPinOp_alike port pin level h)).sameForTheBlock
  | togglePin port pin => exact (conclude_alike (togglePinOp_alike port pin h)).sameForTheBlock
  | setPort port value => exact (conclude_alike (setPortOp_alike port value h)).sameForTheBlock
  | getPortState port => exact (conclude_alike (getPortStateOp_alike port h)).sameForTheBlock
  | configurePinMode port pin o => exact (conclude_alike (configurePinModeOp_alike port pin o h)).sameForTheBlock
  | readPortInput port => exact (conclude_alike (readPortInputOp_alike port h)).sameForTheBlock
  | resolve row col => exact (conclude_alike (resolveOp_alike row col h)).sameForTheBlock
  | pulsePin port pin active d => exact execPulsePin_same port pin active d h
  | press row col d => exact execPress_same row col d h
  | pressSeq coords d ivl => exact execPressSeq_same coords d ivl h
  | cleanup => exact (endCommand_keepsAlike _ _ (closeIfOpen_keepsAlike h)).sameForTheBlock
  | reserved0 | reservedC | reservedD | reservedE | reservedF => exact reserved

/-! ## Reset and the step -/

theorem sendInitFrames_alike (fs : List InitFrame) {s u : State} (h : Alike s u) :
    DoneAlike (sendInitFrames fs s) (sendInitFrames fs u) := by
  induction fs generalizing s u with
  | nil => exact .ok _ h
  | cons f rest ih =>
    simp only [sendInitFrames, h.params_eq]
    rcases (writeReg_alike (regAddr s.params f.kind f.port) f.value (worldMove_keepsAlike h)).elim with
      ⟨_, _, _, hs, hu, h⟩ | ⟨_, _, _, hs, hu, h⟩ <;> rw [hs, hu]
    · exact ih h
    · exact .err _ h

theorem finishReset_keepsAlike : KeepsAlike finishReset := by
  intro s u h
  simp only [finishReset, h.params_eq]
  rcases (sendInitFrames_alike s.params.initFrames h).elim with
    ⟨_, _, _, hs, hu, h⟩ | ⟨e, _, _, hs, hu, h⟩ <;> rw [hs, hu]
  · exact setResp_keepsAlike _ h
  · exact failReset_keepsAlike e (closeHandle_keepsAlike (worldMove_keepsAlike h))

theorem construct_keepsAlike (cfg : Cfg) : KeepsAlike (construct cfg) := by
  intro s u h
  simp only [construct, h.handleScript_eq]
  split
  · split
    · exact finishReset_keepsAlike (initState_keepsAlike (openHandle_keepsAlike cfg (worldMove_keepsAlike h)))
    · exact failReset_keepsAlike _ (openFailed_keepsAlike cfg (worldMove_keepsAlike h))
  · exact failReset_keepsAlike _ h

theorem performReset_keepsAlike (cfg : Cfg) : KeepsAlike (performReset cfg) :=
  fun _ _ h => construct_keepsAlike cfg (closeIfOpen_keepsAlike h)

theorem setHost_keepsAlike (rest : List HostItem) : KeepsAlike fun s => { s with host := rest } :=
  fun _ _ ⟨chip, pins, hfree⟩ => ⟨chip, pins, hfree⟩

theorem stepIdle_same {s u : State} (h : Alike s u) : sameForTheBlock (stepIdle s) (stepIdle u) := by
  simp only [stepIdle, h.host_eq]
  cases fetch s.host with
  | nothing => exact h.sameForTheBlock
  | incomplete => exact h.sameForTheBlock
  | reset cfg rest => exact (performReset_keepsAlike cfg (setHost_keepsAlike rest h)).sameForTheBlock
  | instr i rest => exact exec_same i (setHost_keepsAlike rest h)
  | bad r => rfl

theorem stepCommand_same {s u : State} (h : Alike s u) : sameForTheBlock (stepCommand s) (stepCommand u) := by
  simp only [stepCommand, h.cmd_eq]
  cases s.cmd with
  | none => rfl
  | some i => exact exec_same i h

theorem stepEngine_same {s u : State} (h : Alike s u) : sameForTheBlock (stepEngine s) (stepEngine u) := by
  simp only [stepEngine, h.phase_eq]
  cases s.phase with
  | idle => exact stepIdle_same h
  | assert | hold | release | gap => exact stepCommand_same h

/-- Settles O53, from the same fact about each operation the step is made of. -/
theorem chipContentsAreHiddenFromTheBlock : Obligations.ChipContentsAreHiddenFromTheBlock :=
  fun _ chip pins hfree => stepEngine_same (worldMove_keepsAlike ⟨chip, pins, hfree⟩)

end Sys2Proof.Machine
end

section
/-! What a step leaves of time, of the trace, of the session and of the caches (10_state.md R24, R33, R35). -/

namespace Sys2Proof.Machine

/-! ## Time and the trace (10_state.md R33, 20_memory.md R63) -/

/-- From `s` to `t` time does not go back, and the trace grows by events of that time, one after the other. -/
def Grows (s t : State) : Prop :=
  s.now ≤ t.now ∧
    ∃ es, t.trace = s.trace ++ es ∧ es.Pairwise (fun e f => eventFinish e ≤ eventStart f) ∧
      ∀ e ∈ es, s.now ≤ eventStart e ∧ eventStart e ≤ eventFinish e ∧ eventFinish e ≤ t.now

/-- Time alone passes. -/
theorem grows_of_trace_eq {s t : State} (hn : s.now ≤ t.now) (ht : t.trace = s.trace) : Grows s t :=
  ⟨hn, [], by simp [ht], .nil, nofun⟩

/-- One event happens. -/
theorem grows_of_event {s t : State} (e : Event) (ht : t.trace = s.trace ++ [e]) (hs : s.now ≤ eventStart e)
    (hse : eventStart e ≤ eventFinish e) (hf : eventFinish e ≤ t.now) : Grows s t :=
  ⟨hs.trans (hse.trans hf), [e], ht, List.pairwise_singleton .., fun _ h => by
    rw [List.mem_singleton] at h; subst h; exact ⟨hs, hse, hf⟩⟩

theorem Grows.refl (s : State) : Grows s s := grows_of_trace_eq le_rfl rfl

theorem Grows.trans {s t u : State} (hst : Grows s t) (htu : Grows t u) : Grows s u := by
  obtain ⟨hn, es, htr, hpw, hes⟩ := hst
  obtain ⟨hn', fs, htr', hpw', hfs⟩ := htu
  refine ⟨hn.trans hn', es ++ fs, by rw [htr', htr, List.append_assoc], ?_, fun e he => ?_⟩
  · refine List.pairwise_append.mpr ⟨hpw, hpw', fun e he f hf => ?_⟩
    obtain ⟨-, -, hfinish⟩ := hes e he
    obtain ⟨hstart, -⟩ := hfs f hf
    exact hfinish.trans hstart
  · rcases List.mem_append.mp he with he | he
    · obtain ⟨h1, h2, h3⟩ := hes e he
      exact ⟨h1, h2, h3.trans hn'⟩
    · obtain ⟨h1, h2, h3⟩ := hfs e he
      exact ⟨hn.trans h1, h2, h3⟩

theorem worldMove_grows (s : State) : Grows s (worldMove s) := grows_of_trace_eq (now_le_now_worldMove s) rfl

theorem endCommand_grows (e : Status) (v : Half) (s : State) : Grows s (endCommand e v s) :=
  grows_of_event _ rfl le_rfl le_rfl le_rfl

theorem afterXfer_grows (s : State) (tx : Frame) : Grows s (afterXfer s tx) :=
  grows_of_event _ rfl le_rfl (Nat.le_add_right ..) le_rfl

theorem closeHandle_grows (s : State) : Grows s (closeHandle s) :=
  grows_of_event _ rfl le_rfl (Nat.le_add_right ..) le_rfl

theorem openHandle_grows (cfg : Cfg) (s : State) : Grows s (openHandle cfg s) :=
  grows_of_event _ rfl le_rfl (Nat.le_add_right ..) le_rfl

theorem openFailed_grows (cfg : Cfg) (s : State) : Grows s (openFailed cfg s) :=
  grows_of_trace_eq (Nat.le_add_right ..) rfl

theorem failReset_grows (e : Status) (s : State) : Grows s (failReset e s) := grows_of_trace_eq le_rfl rfl

theorem initState_grows (s : State) : Grows s (initState s) := grows_of_trace_eq le_rfl rfl

theorem closeIfOpen_grows (s : State) : Grows s (closeIfOpen s) := by
  rcases closeIfOpen_cases s with ⟨-, h⟩ | ⟨-, h⟩ <;> rw [h]
  · exact closeHandle_grows s
  · exact .refl s

theorem shape_grows {i : Instr} {s t : State} (h : Shape i s t) : Grows s t := by
  cases h with
  | latched n => exact grows_of_trace_eq le_rfl rfl
  | quiet e v n => exact endCommand_grows e v { s with idx := n }
  | cleaned => exact (closeHandle_grows s).trans (endCommand_grows ..)
  | sent r reg v rx val out dir =>
    exact (afterXfer_grows s _).trans (endCommand_grows _ _ { afterXfer s _ with out := out, dir := dir })
  | sentOn reg v => exact afterXfer_grows s _
  | failed r reg v k => exact (afterXfer_grows s _).trans (endCommand_grows ..)
  | waited d slack n ph =>
    exact grows_of_event _ rfl le_rfl (Nat.le_add_right_of_le (Nat.le_add_right ..)) le_rfl
  | cut k n =>
    have hcut : Grows s { s with now := s.now + n, waitScript := s.waitScript.rest } :=
      grows_of_trace_eq (Nat.le_add_right ..) rfl
    exact hcut.trans (endCommand_grows ..)

theorem sendInitFrames_grows (fs : List InitFrame) (s : State) :
    (∃ v t, sendInitFrames fs s = .ok v t ∧ Grows s t) ∨
      (∃ t, sendInitFrames fs s = .err .busError t ∧ Grows s t) :=
  sendInitFrames_relation Grows .refl (fun _ _ _ => .trans) worldMove_grows afterXfer_grows fs s

theorem finishReset_grows (s : State) : Grows s (finishReset s) := by
  unfold finishReset
  rcases sendInitFrames_grows s.params.initFrames s with ⟨v, t, h, ht⟩ | ⟨t, h, ht⟩ <;> rw [h]
  · exact ht
  · exact ht.trans ((worldMove_grows t).trans ((closeHandle_grows _).trans (failReset_grows ..)))

theorem construct_grows (cfg : Cfg) (s : State) : Grows s (construct cfg s) := by
  rcases construct_cases cfg s with ⟨-, h⟩ | ⟨-, -, h⟩ | ⟨-, -, h⟩ <;> rw [h]
  · exact failReset_grows ..
  · exact (worldMove_grows s).trans ((openFailed_grows cfg _).trans (failReset_grows ..))
  · exact (worldMove_grows s).trans ((openHandle_grows cfg _).trans ((initState_grows _).trans (finishReset_grows _)))

theorem performReset_grows (cfg : Cfg) (s : State) : Grows s (performReset cfg s) :=
  (closeIfOpen_grows s).trans (construct_grows cfg _)

/-- Settles O50: every operation a step is made of adds its events behind those before it. -/
theorem timeAndTraceOnlyGrow : Obligations.TimeAndTraceOnlyGrow := by
  intro s t h
  refine (worldMove_grows s).trans ?_
  rcases step_cases s t h with ⟨rfl, -⟩ | ⟨cfg, rest, -, -, rfl⟩ | ⟨i, rest, -, -, -, he⟩ | ⟨i, -, -, he⟩
  · exact .refl _
  · exact performReset_grows cfg { worldMove s with host := rest }
  · have hgrows := shape_grows (exec_shape he)
    exact hgrows
  · exact shape_grows (exec_shape he)

/-! ## The session (10_state.md R24) -/

/-- Settles O51, by the shapes of a micro-step: the one that writes LIFE and the handle is CLEANUP's, and it closes. -/
theorem onlyCleanupClosesTheSession : Obligations.OnlyCleanupClosesTheSession := by
  intro i s t h
  cases exec_shape h with
  | cleaned hi ho => exact ⟨fun hne => absurd hi hne, fun _ => ho⟩
  | _ => exact ⟨fun _ => ⟨rfl, rfl⟩, id⟩

/-! ## The caches (10_state.md R35) -/

theorem exec_keeps_out {i : Instr} {s t : State} (hi : writesOut i = false) (h : exec i s = .next t) :
    t.out = s.out := by
  cases exec_shape h with
  | sent r reg v rx val out dir ho hr hv hd hw => exact hw hi
  | sentOn reg v rx out ph hw => simp [hi] at hw
  | _ => rfl

theorem exec_keeps_dir {i : Instr} {s t : State} (hi : writesDir i = false) (h : exec i s = .next t) :
    t.dir = s.dir := by
  cases exec_shape h with
  | sent r reg v rx val out dir ho hr hv hd => exact hd hi
  | _ => rfl

theorem writesDir_eq_false {i : Instr} (h : ∀ port pin o, i ≠ .configurePinMode port pin o) :
    writesDir i = false := by
  cases i with
  | configurePinMode port pin o => exact absurd rfl (h port pin o)
  | _ => rfl

/-- Settles O52: which cache an instruction may write is `writesOut` and `writesDir`. -/
theorem cachesAreWrittenOnlyByTheirCommands : Obligations.CachesAreWrittenOnlyByTheirCommands := by
  intro i s t h
  have both (ho : writesOut i = false) (hd : writesDir i = false) : t.out = s.out ∧ t.dir = s.dir :=
    ⟨exec_keeps_out ho h, exec_keeps_dir hd h⟩
  refine ⟨fun hi => ?_, ?_, ?_, ?_, ?_, fun hi => exec_keeps_dir (writesDir_eq_false hi) h⟩
  · simp only [List.mem_cons, List.not_mem_nil, or_false] at hi
    rcases hi with rfl | rfl | rfl | rfl | rfl | rfl <;> exact both rfl rfl
  · rintro port (rfl | rfl) <;> exact both rfl rfl
  · rintro row col rfl
    exact both rfl rfl
  · rintro x reg data (rfl | rfl) <;> exact both rfl rfl
  · rintro port pin o rfl
    exact exec_keeps_out rfl h

end Sys2Proof.Machine
end

section
/-! An accepted table (10_state.md R28) and a reset with one (10_state.md R34, 70_reset_and_hazards.md R240). -/

namespace Sys2Proof.Machine

/-! ## The size of an accepted table -/

/-- A total table has an entry for each coordinate within its dimensions. -/
theorem exists_entry_of_tableTotal {cfg : Cfg} (h : tableTotal cfg = true) {r c : Nat} (hr : r < cfg.numRows)
    (hc : c < cfg.numCols) : ∃ e ∈ cfg.map, e.row = r ∧ e.col = c := by
  simp only [tableTotal, Bool.and_eq_true, List.all_eq_true, List.mem_range, beq_iff_eq] at h
  obtain ⟨e, he, hp⟩ := List.countP_pos_iff.mp (h.1 r hr c hc ▸ Nat.one_pos)
  simp only [Bool.and_eq_true, decide_eq_true_eq] at hp
  exact ⟨e, he, hp⟩

/-- Totality: there are at least as many entries as coordinates. -/
theorem coords_le_length_of_tableTotal {cfg : Cfg} (h : tableTotal cfg = true) :
    cfg.numRows * cfg.numCols ≤ cfg.map.length := by
  have hsub : Finset.range cfg.numRows ×ˢ Finset.range cfg.numCols ⊆
      (cfg.map.map fun e => (e.row, e.col)).toFinset := by
    rintro ⟨r, c⟩ hrc
    simp only [Finset.mem_product, Finset.mem_range] at hrc
    obtain ⟨e, he, rfl, rfl⟩ := exists_entry_of_tableTotal h hrc.1 hrc.2
    exact List.mem_toFinset.mpr (List.mem_map_of_mem he)
  calc cfg.numRows * cfg.numCols
      = (Finset.range cfg.numRows ×ˢ Finset.range cfg.numCols).card := by simp
    _ ≤ (cfg.map.map fun e => (e.row, e.col)).toFinset.card := Finset.card_le_card hsub
    _ ≤ cfg.map.length := (List.toFinset_card_le _).trans_eq (List.length_map _)

/-- The pins of the two ports, as a table names them (10_state.md R28). -/
def pinTargets : List (BitVec 4 × BitVec 4) :=
  [0#4, 1#4] ×ˢ [0#4, 1#4, 2#4, 3#4, 4#4, 5#4, 6#4, 7#4]

theorem mem_pinTargets {port pin : BitVec 4} (hport : (portOf port).isSome) (hpin : pin.toNat ≤ 7) :
    (port, pin) ∈ pinTargets := by
  revert port pin
  decide

/-- Validity and injectivity: the entries are different pins of the two ports. -/
theorem length_le_sixteen_of_tableOk {cfg : Cfg} (hv : tableValid cfg = true) (hi : tableInjective cfg = true) :
    cfg.map.length ≤ 16 := by
  have hnodup : (cfg.map.map fun e => (e.port, e.pin)).Nodup := of_decide_eq_true hi
  have hsub : (cfg.map.map fun e => (e.port, e.pin)) ⊆ pinTargets := by
    intro x hx
    obtain ⟨e, he, rfl⟩ := List.mem_map.mp hx
    simp only [tableValid, List.all_eq_true, Bool.and_eq_true, decide_eq_true_eq] at hv
    exact mem_pinTargets (hv e he).1 (hv e he).2
  simpa [pinTargets] using (hnodup.subperm hsub).length_le

/-- Settles O36: no more coordinates than entries, and no more entries than pins. -/
theorem acceptedTableHasAtMostSixteenCoordinates : Obligations.AcceptedTableHasAtMostSixteenCoordinates := by
  intro cfg h
  simp only [tableOk, Bool.and_eq_true] at h
  obtain ⟨⟨ht, hv⟩, hi⟩ := h
  exact (coords_le_length_of_tableTotal ht).trans (length_le_sixteen_of_tableOk hv hi)

/-! ## A successful reset -/

/-- Closing a held handle releases it (44_matrix_session.md R186). -/
theorem released_closeIfOpen (s : State) : released s (closeIfOpen s) := by
  rcases closeIfOpen_cases s with ⟨hl, h⟩ | ⟨hl, h⟩ <;> rw [h]
  · exact ⟨fun h => (nomatch hl.symm.trans h), fun _ => ⟨_, Nat.le_add_right .., rfl⟩⟩
  · exact ⟨fun _ => rfl, fun h => nomatch hl.symm.trans h⟩

@[simp] theorem closeIfOpen_params (s : State) : (closeIfOpen s).params = s.params := by
  rcases closeIfOpen_cases s with ⟨-, h⟩ | ⟨-, h⟩ <;> rw [h]
  rfl

theorem construct_opened {cfg : Cfg} {s : State} (ht : tableOk cfg = true)
    (ho : (s.handleScript.head Config.freeHandle).ok = true) :
    construct cfg s = finishReset (initState (openHandle cfg (worldMove s))) := by
  simp [construct, ht, ho]

/-- Without INIT_FRAMES a reset sends nothing. -/
theorem finishReset_of_no_initFrames {s : State} (h : s.params.initFrames = []) :
    finishReset s = { s with resp := ⟨.ok, 0#16⟩ } := by
  simp [finishReset, sendInitFrames, h]

theorem allOutputs_pair (params : Params) :
    (⟨allOutputs params, allOutputs params⟩ : PerPort) =
      if params.dirOutBit then ⟨0xFF#8, 0xFF#8⟩ else ⟨0x00#8, 0x00#8⟩ := by
  cases h : params.dirOutBit <;> simp [allOutputs, h]

/-- Settles O55: the state of 10_state.md R34 is that of steps 2, 3 and 5 of a reset. -/
theorem successfulResetGivesTheStatedState : Obligations.SuccessfulResetGivesTheStatedState := by
  intro cfg s ht hf
  refine ⟨closeIfOpen s, released_closeIfOpen s, fun ho => ?_⟩
  refine ⟨_, Nat.le_add_right _ ((closeIfOpen s).handleScript.head Config.freeHandle).time, ?_⟩
  have hf' : (initState (openHandle cfg (worldMove (closeIfOpen s)))).params.initFrames = [] := by simpa using hf
  rw [performReset, construct_opened ht ho, finishReset_of_no_initFrames hf', ← allOutputs_pair,
    ← closeIfOpen_params s]
  rfl

/-! ## The state before any reset (10_state.md R24, R34) -/

/-- Settles O58: the invariant is that of a closed session at IDLE, and the reset is a successful one of O55. -/
theorem beforeAnyResetTheSessionIsClosed : Obligations.BeforeAnyResetTheSessionIsClosed := by
  rintro caches resp cfg s rfl
  refine ⟨rfl, rfl, rfl, rfl, fun ht => blockInv_of_idle rfl rfl rfl ht Memory.wf_nil, ?_⟩
  rintro hs t hok rfl
  obtain ⟨u, hu, hreset⟩ := successfulResetGivesTheStatedState Config.cfgT
    { State.beforeReset caches resp cfg with handleScript := hs } resetSatisfiesTheInvariant.table rfl
  obtain rfl := hu.1 rfl
  obtain ⟨n, -, heq⟩ := hreset hok
  rw [heq]
  exact ⟨rfl, rfl, rfl, rfl, rfl, rfl, rfl, rfl, rfl, rfl⟩

end Sys2Proof.Machine
end

section
/-! What every step leaves of the parameters with the RegisterMap, and of CFG with its table (20_memory.md R67,
10_state.md R27). -/

namespace Sys2Proof.Machine

/-! ## The micro-step of an instruction -/

/-- No shape of a micro-step writes the parameters or CFG. -/
theorem exec_keeps_tables {i : Instr} {s t : State} (h : exec i s = .next t) :
    t.params = s.params ∧ t.cfg = s.cfg := by
  cases exec_shape h <;> exact ⟨rfl, rfl⟩

/-! ## Reset: CFG is replaced, the parameters are not (70_reset_and_hazards.md R240) -/

theorem sendInitFrames_keeps_params (fs : List InitFrame) (s : State) :
    (∃ v t, sendInitFrames fs s = .ok v t ∧ t.params = s.params) ∨
      (∃ t, sendInitFrames fs s = .err .busError t ∧ t.params = s.params) :=
  sendInitFrames_relation (fun s t => t.params = s.params) (fun _ => rfl) (fun _ _ _ hst htu => htu.trans hst)
    worldMove_params afterXfer_params fs s

@[simp] theorem finishReset_params (s : State) : (finishReset s).params = s.params := by
  unfold finishReset
  rcases sendInitFrames_keeps_params s.params.initFrames s with ⟨v, t, h, ht⟩ | ⟨t, h, ht⟩ <;> rw [h] <;> exact ht

@[simp] theorem construct_params (cfg : Cfg) (s : State) : (construct cfg s).params = s.params := by
  rcases construct_cases cfg s with ⟨-, h⟩ | ⟨-, -, h⟩ | ⟨-, -, h⟩ <;> simp [h]

@[simp] theorem performReset_params (cfg : Cfg) (s : State) : (performReset cfg s).params = s.params := by
  simp [performReset]

/-- Settles O49, by the cases of a step: only a reset's replaces CFG, and its own hypothesis excludes it. -/
theorem tablesAreConstant : Obligations.TablesAreConstant := by
  intro s t h
  rcases step_cases s t h with ⟨rfl, -⟩ | ⟨cfg, rest, hp, hhost, rfl⟩ | ⟨i, rest, -, -, -, he⟩ | ⟨i, -, -, he⟩
  · exact ⟨rfl, fun _ => rfl⟩
  · refine ⟨performReset_params .., ?_⟩
    rintro (hbusy | hnone)
    · exact absurd hp hbusy
    · exact absurd hhost (hnone cfg rest)
  · obtain ⟨hparams, hcfg⟩ := exec_keeps_tables he
    exact ⟨hparams, fun _ => hcfg⟩
  · obtain ⟨hparams, hcfg⟩ := exec_keeps_tables he
    exact ⟨hparams, fun _ => hcfg⟩

end Sys2Proof.Machine
end

section
/-! IdealChip as the responder (20_memory.md R66): what it answers to the block's frames, and what the two register
accesses do with it. -/

namespace Sys2Proof.Machine

/-! ## The byte IdealChip reads at a register -/

theorem idealRead_register {s : State} {reg : Byte} (hA : reg ≠ regAddr s.params .inp .A)
    (hB : reg ≠ regAddr s.params .inp .B) : idealRead s reg = s.chip.read reg.toNat := by
  simp [idealRead, hA, hB]

theorem idealRead_inA {s : State} {reg : Byte} (hA : reg = regAddr s.params .inp .A) :
    idealRead s reg = s.pins.a := by
  simp [idealRead, hA]

theorem idealRead_inB {s : State} {reg : Byte} (hB : reg = regAddr s.params .inp .B)
    (hA : reg ≠ regAddr s.params .inp .A) : idealRead s reg = s.pins.b := by
  simp only [idealRead, if_neg hA, if_pos hB]

/-! ## The answers to the block's frames -/

/-- Bit 0 of the opcode is R (30_encoding.md R82). -/
theorem opcode_bit_zero (hwAddr : BitVec 3) (r : Bool) : (opcode hwAddr r).getLsbD 0 = r :=
  (opcode_fields hwAddr r).2.2

/-- The block's frames carry the hardware address of CFG (40_bus_transaction.md R111, 20_memory.md R69). -/
@[simp] theorem addressed_busFrame (cfg : Cfg) (r : Bool) (reg v : Byte) :
    addressed cfg (busFrame cfg r reg v) = true := by
  obtain ⟨hprefix, haddr, -⟩ := opcode_fields cfg.hwAddr r
  simp [addressed, busFrame, hprefix, haddr]

/-- IdealChip completes every frame of the block; a read answers its byte at the register, a write answers zeros. -/
theorem busAnswer_ideal {s : State} (hr : s.responder = .ideal) (r : Bool) (reg v : Byte) :
    busAnswer s (busFrame s.cfg r reg v) =
      .ok ⟨0x00#8, 0x00#8, if r then idealRead s reg else 0x00#8⟩ := by
  simp only [busAnswer, hr, addressed_busFrame, if_true]
  cases r <;> simp only [idealAnswer, busFrame, opcode_bit_zero] <;> rfl

/-! ## The chip's registers after a transfer (10_state.md R31) -/

theorem read_chip_afterXfer_ideal_write {s : State} (hr : s.responder = .ideal) (reg v : Byte) :
    (afterXfer s (busFrame s.cfg false reg v)).chip.read reg.toNat = v :=
  (transferred_afterXfer s false reg v).written _ (opcode_bit_zero ..) (busAnswer_ideal hr false reg v)

theorem chip_afterXfer_read (s : State) (reg v : Byte) :
    (afterXfer s (busFrame s.cfg true reg v)).chip = s.chip :=
  (transferred_afterXfer s true reg v).readsOnly (opcode_bit_zero ..)

/-! ## The frames as instructions -/

/-- On an open session an access to a register of the RegisterMap is let through. -/
theorem frameOp_opened {s : State} {reg : Byte} (access : State → Done Half) (hl : s.life = .opened)
    (hm : reg ∈ regAddrs s.params) : frameOp reg access s = access s := by
  simp [frameOp, hl, hm]

theorem exec_regWrite_ideal {s : State} {reg : Byte} (hr : s.responder = .ideal) (hl : s.life = .opened)
    (hm : reg ∈ regAddrs s.params) (a : BitVec 3) (v : Byte) :
    exec (.regWrite a reg v) s = .next (endCommand .ok 0#16 (afterXfer s (busFrame s.cfg false reg v))) := by
  have hanswer : answerBytes (busAnswer s (busFrame s.cfg false reg v)) = some ⟨0x00#8, 0x00#8, 0x00#8⟩ := by
    rw [busAnswer_ideal hr]; rfl
  rw [exec, execRegWrite, frameOp_opened _ hl hm, writeReg_ok reg v s _ hanswer, conclude_ok]

theorem exec_regRead_ideal {s : State} {reg : Byte} (hr : s.responder = .ideal) (hl : s.life = .opened)
    (hm : reg ∈ regAddrs s.params) (a : BitVec 3) (fill : Byte) :
    exec (.regRead a reg fill) s = .next (endCommand .ok ((idealRead s reg).setWidth 16)
      (afterXfer s (busFrame s.cfg true reg s.params.readFill))) := by
  have hanswer : answerBytes (busAnswer s (busFrame s.cfg true reg s.params.readFill)) =
      some ⟨0x00#8, 0x00#8, idealRead s reg⟩ := by
    rw [busAnswer_ideal hr]; rfl
  rw [exec, execRegRead, frameOp_opened _ hl hm, readReg_ok reg s _ hanswer, conclude_ok]

/-- A read right after a write of the same register, which is no IN register, answers the byte written: the end of
the write leaves the responder, the session and the RegisterMap as they were. -/
theorem exec_regRead_after_write_ideal {s : State} {reg : Byte} (hr : s.responder = .ideal) (hl : s.life = .opened)
    (hm : reg ∈ regAddrs s.params) (hA : reg ≠ regAddr s.params .inp .A) (hB : reg ≠ regAddr s.params .inp .B)
    (a : BitVec 3) (v fill : Byte) :
    ∃ u, exec (.regRead a reg fill) (endCommand .ok 0#16 (afterXfer s (busFrame s.cfg false reg v))) = .next u ∧
      u.resp = ⟨.ok, v.setWidth 16⟩ := by
  refine ⟨_, exec_regRead_ideal ?_ ?_ ?_ a fill, ?_⟩
  · exact hr
  · exact hl
  · exact hm
  · rw [endCommand_resp, idealRead_register, endCommand_chip, read_chip_afterXfer_ideal_write hr]
    · exact hA
    · exact hB

/-- Settles O54: REG_READ answers IdealChip's byte, and the four clauses say which byte that is. -/
theorem idealChipReadsBackWhatWasWritten : Obligations.IdealChipReadsBackWhatWasWritten := by
  intro s a a' reg v fill hr hl hm
  have hread := exec_regRead_ideal hr hl hm a fill
  refine ⟨fun hA hB => ?_, fun hA hB => ?_, fun hA => ?_, fun hB hA => ?_⟩
  · obtain ⟨u, hu, hresp⟩ := exec_regRead_after_write_ideal hr hl hm hA hB a' v fill
    exact ⟨_, u, exec_regWrite_ideal hr hl hm a v, rfl, hu, hresp⟩
  · exact ⟨_, hread, by rw [endCommand_resp, idealRead_register hA hB], chip_afterXfer_read ..⟩
  · exact ⟨_, hread, by rw [endCommand_resp, idealRead_inA hA]⟩
  · exact ⟨_, hread, by rw [endCommand_resp, idealRead_inB hB hA]⟩

end Sys2Proof.Machine
end

section
/-! The frames the block sends (30_encoding.md R94): the two forms of R81 with CFG's hardware address, to the registers
of the RegisterMap. -/

namespace Sys2Proof.Machine

/-- A frame of the block whose configuration and parameters are these (30_encoding.md R94, 40_bus_transaction.md R111,
R113). -/
def OwnFrame (cfg : Cfg) (params : Params) (tx : Frame) : Prop :=
  (∃ r, tx.b0 = opcode cfg.hwAddr r) ∧ tx.b1 ∈ regAddrs params ∧ (tx.b0.getLsbD 0 = true → tx.b2 = params.readFill)

theorem ownFrame_busFrame {cfg : Cfg} {params : Params} {r : Bool} {reg v : Byte} (hr : reg ∈ regAddrs params)
    (hv : r = true → v = params.readFill) : OwnFrame cfg params (busFrame cfg r reg v) :=
  ⟨⟨r, rfl⟩, hr, fun h => hv ((opcode_bit_zero cfg.hwAddr r).symm.trans h)⟩

/-- From `s` to `t` the trace grows, and the frames sent are the block's own. -/
def SendsOwn (cfg : Cfg) (params : Params) (s t : State) : Prop :=
  ∃ es, t.trace = s.trace ++ es ∧ ∀ tx rx x y, Event.xfer tx rx x y ∈ es → OwnFrame cfg params tx

section
variable {cfg : Cfg} {params : Params} {s t u : State}

theorem sendsOwn_of_trace_eq (h : t.trace = s.trace) : SendsOwn cfg params s t := ⟨[], by simp [h], nofun⟩

theorem sendsOwn_of_event (e : Event) (h : t.trace = s.trace ++ [e]) (he : isXfer e = false) :
    SendsOwn cfg params s t :=
  ⟨[e], h, fun tx rx x y hx => by rw [← List.mem_singleton.mp hx] at he; cases he⟩

theorem SendsOwn.trans (hst : SendsOwn cfg params s t) (htu : SendsOwn cfg params t u) : SendsOwn cfg params s u := by
  obtain ⟨es, htr, hes⟩ := hst
  obtain ⟨fs, htr', hfs⟩ := htu
  exact ⟨es ++ fs, by rw [htr', htr, List.append_assoc], fun tx rx x y hx =>
    (List.mem_append.mp hx).elim (hes tx rx x y) (hfs tx rx x y)⟩

theorem endCommand_sendsOwn (e : Status) (v : Half) : SendsOwn cfg params s (endCommand e v s) :=
  sendsOwn_of_event _ rfl rfl

theorem closeIfOpen_sendsOwn : SendsOwn cfg params s (closeIfOpen s) := by
  rcases closeIfOpen_cases s with ⟨-, h⟩ | ⟨-, h⟩ <;> rw [h]
  · exact sendsOwn_of_event _ rfl rfl
  · exact sendsOwn_of_trace_eq rfl

end

theorem afterXfer_sendsOwn {s : State} {r : Bool} {reg v : Byte} (hr : reg ∈ regAddrs s.params)
    (hv : r = true → v = s.params.readFill) :
    SendsOwn s.cfg s.params s (afterXfer s (busFrame s.cfg r reg v)) :=
  ⟨_, rfl, fun tx rx x y hx => by cases List.mem_singleton.mp hx; exact ownFrame_busFrame hr hv⟩

/-- A micro-step of an instruction sends the block's own frames only. -/
theorem shape_sendsOwn {i : Instr} {s t : State} (h : Shape i s t) : SendsOwn s.cfg s.params s t := by
  cases h with
  | latched n => exact sendsOwn_of_trace_eq rfl
  | quiet e v n => exact sendsOwn_of_event _ rfl rfl
  | cleaned => exact (sendsOwn_of_event _ rfl rfl : SendsOwn _ _ s (closeHandle s)).trans (endCommand_sendsOwn ..)
  | sent r reg v rx val out dir ho hr hv =>
    exact (afterXfer_sendsOwn hr fun h => (hv h).1).trans (sendsOwn_of_event _ rfl rfl)
  | sentOn reg v rx out ph hw ho hr => exact afterXfer_sendsOwn (r := false) hr nofun
  | failed r reg v k ho hr hv => exact (afterXfer_sendsOwn hr hv).trans (endCommand_sendsOwn ..)
  | waited d slack n ph => exact sendsOwn_of_event _ rfl rfl
  | cut k n => exact sendsOwn_of_event _ rfl rfl

/-- The writes of INIT_FRAMES go to registers of the RegisterMap and leave CFG alone (70_reset_and_hazards.md R240). -/
theorem sendInitFrames_sendsOwn (fs : List InitFrame) (s : State) :
    (∃ v t, sendInitFrames fs s = .ok v t ∧ t.cfg = s.cfg ∧ SendsOwn s.cfg s.params s t) ∨
      (∃ t, sendInitFrames fs s = .err .busError t ∧ t.cfg = s.cfg ∧ SendsOwn s.cfg s.params s t) := by
  induction fs generalizing s with
  | nil => exact .inl ⟨_, _, rfl, rfl, sendsOwn_of_trace_eq rfl⟩
  | cons f rest ih =>
    have hsent := afterXfer_sendsOwn (s := worldMove s) (r := false) (v := f.value)
      (regAddr_mem s.params f.kind f.port) nofun
    unfold sendInitFrames
    rcases writeReg_cases (regAddr s.params f.kind f.port) f.value (worldMove s) with ⟨rx, -, h⟩ | ⟨-, h⟩ <;> rw [h]
    · exact (ih _).imp (fun ⟨v, t, h, hcfg, hrest⟩ => ⟨v, t, h, hcfg, hsent.trans hrest⟩)
        fun ⟨t, h, hcfg, hrest⟩ => ⟨t, h, hcfg, hsent.trans hrest⟩
    · exact .inr ⟨_, rfl, rfl, hsent⟩

/-- The end of a reset sends the block's own frames only, and leaves CFG alone. -/
theorem finishReset_sendsOwn (s : State) :
    (finishReset s).cfg = s.cfg ∧ SendsOwn s.cfg s.params s (finishReset s) := by
  unfold finishReset
  rcases sendInitFrames_sendsOwn s.params.initFrames s with ⟨v, t, h, hcfg, hsent⟩ | ⟨t, h, hcfg, hsent⟩ <;> rw [h]
  · exact ⟨hcfg, hsent⟩
  · exact ⟨hcfg, hsent.trans (sendsOwn_of_event _ rfl rfl)⟩

/-- A reset sends its frames with the hardware address of the CFG it leaves. -/
theorem construct_sendsOwn (cfg : Cfg) (s : State) : SendsOwn (construct cfg s).cfg s.params s (construct cfg s) := by
  rcases construct_cases cfg s with ⟨-, h⟩ | ⟨-, -, h⟩ | ⟨-, -, h⟩ <;> rw [h]
  · exact sendsOwn_of_trace_eq rfl
  · exact sendsOwn_of_trace_eq rfl
  · obtain ⟨hcfg, hsent⟩ := finishReset_sendsOwn (initState (openHandle cfg (worldMove s)))
    rw [hcfg]
    exact (sendsOwn_of_event _ rfl rfl).trans hsent

theorem performReset_sendsOwn (cfg : Cfg) (s : State) :
    SendsOwn (performReset cfg s).cfg s.params s (performReset cfg s) := by
  have hsent := construct_sendsOwn cfg (closeIfOpen s)
  rw [closeIfOpen_params] at hsent
  exact closeIfOpen_sendsOwn.trans hsent

theorem exec_sendsOwn {i : Instr} {s t : State} (h : exec i s = .next t) : SendsOwn t.cfg t.params s t := by
  obtain ⟨hparams, hcfg⟩ := exec_keeps_tables h
  rw [hparams, hcfg]
  exact shape_sendsOwn (exec_shape h)

/-- Settles O48, by the cases of a step: the world's move sends nothing, a reset's and an instruction's frames are the
block's own. -/
theorem onlyOwnFramesAreSent : Obligations.OnlyOwnFramesAreSent := by
  intro s t h
  change SendsOwn t.cfg t.params s t
  rcases step_cases s t h with ⟨rfl, -⟩ | ⟨cfg, rest, -, -, rfl⟩ | ⟨i, rest, -, -, -, he⟩ | ⟨i, -, -, he⟩
  · exact sendsOwn_of_trace_eq rfl
  · rw [performReset_params]
    exact performReset_sendsOwn cfg { worldMove s with host := rest }
  · have hsent := exec_sendsOwn he
    exact hsent
  · have hsent := exec_sendsOwn he
    exact hsent

end Sys2Proof.Machine
end

section
/-! The encoder and the decoder are inverse to each other (30_encoding.md R81, R86 to R90), the fields of word 0 as
numbers, and what the opcode, the RESP word and the idle port make of them. -/

namespace Sys2Proof

/-! ## Decoding an encoded instruction -/

/-- The operands are read back from the words they were written to. -/
theorem decodeOperands_encode {i : Instr} {w : Word} {ext : List Word} (h : encode i = .words (w :: ext)) :
    decodeOperands w ext = i := by
  cases i with
  | regWrite | regRead => cases h
  | pressSeq coords d ivl => cases h; simp [decodeOperands, Function.comp_def]
  | _ => cases h; simp [decodeOperands]

theorem decodeFrame_encode {i : Instr} {f : BitVec 24} (h : encode i = .frame f) : decodeFrame f = .ok i := by
  cases i with
  | regWrite a reg data => cases h; exact decodeFrame_frameBits a false reg data
  | regRead a reg data => cases h; exact decodeFrame_frameBits a true reg data
  | _ => cases h

open Laws.EncodedLength in
/-- An encoded command has the length its word 0 names (30_encoding.md R89). -/
theorem encodedLength : (i : Instr) → Statement i
  | .regWrite a reg data => regWrite a reg data
  | .regRead a reg data => regRead a reg data
  | .setPin port pin level => setPin port pin level
  | .togglePin port pin => togglePin port pin
  | .setPort port value => setPort port value
  | .getPortState port => getPortState port
  | .configurePinMode port pin isOutput => configurePinMode port pin isOutput
  | .readPortInput port => readPortInput port
  | .pulsePin port pin active duration => pulsePin port pin active duration
  | .resolve row col => resolve row col
  | .press row col duration => press row col duration
  | .pressSeq coords duration interval => pressSeq coords duration interval
  | .cleanup => cleanup
  | .reserved0 => reserved0
  | .reservedC => reservedC
  | .reservedD => reservedD
  | .reservedE => reservedE
  | .reservedF => reservedF

/-- Settles O2: the port takes as many words as were written, and reads the operands back from them. -/
theorem decodeOfEncodeIsTheInstruction : Obligations.DecodeOfEncodeIsTheInstruction := by
  intro i more hw
  have hlen := encodedLength i hw
  cases hc : encode i with
  | frame f => simp [Code.followedBy, decode, decodeFrame_encode hc, Except.map]
  | words ws =>
    rw [hc] at hlen
    obtain ⟨w, ext, rfl, hlen⟩ := hlen
    rw [← decodeOperands_encode hc]
    exact decodeWords_full w ext more hlen

/-- The words of a call decode to it, with none left over. -/
theorem decode_of_encode {i : Instr} {ws : List Word} (hw : i.wf = true) (h : encode i = .words ws) :
    decode (.words ws) = .ok (i, []) := by
  have hdec := decodeOfEncodeIsTheInstruction i [] hw
  simpa [h, Code.followedBy] using hdec

/-- Settles O1: the words of each row of the table of R97 are the encoding of its call. -/
theorem specExampleWordsDecodeToTheirCalls : Obligations.SpecExampleWordsDecodeToTheirCalls := by
  unfold Obligations.SpecExampleWordsDecodeToTheirCalls
  and_intros <;> exact decode_of_encode rfl rfl

/-! ## The fields of a word 0 as numbers (30_encoding.md R87) -/

theorem opField_toNat (w : Word) : (opField w).toNat = w.toNat / 2 ^ 28 := by
  rw [opField, BitVec.extractLsb'_toNat, Nat.shiftRight_eq_div_pow]
  omega

theorem portField_eq_ofNat (w : Word) : portField w = BitVec.ofNat 4 (w.toNat / 2 ^ 24) := by
  rw [portField, BitVec.extractLsb', Nat.shiftRight_eq_div_pow]

theorem pinField_eq_ofNat (w : Word) : pinField w = BitVec.ofNat 4 (w.toNat / 2 ^ 20) := by
  rw [pinField, BitVec.extractLsb', Nat.shiftRight_eq_div_pow]

theorem lvlField_eq_decide (w : Word) : lvlField w = decide (w.toNat / 2 ^ 19 % 2 = 1) :=
  Nat.testBit_eq_decide_div_mod_eq

theorem valField_eq_ofNat (w : Word) : valField w = BitVec.ofNat 16 w.toNat := rfl

theorem coordOf_eq_ofNat (w : Word) : coordOf w = ⟨BitVec.ofNat 8 (w.toNat / 256), BitVec.ofNat 8 w.toNat⟩ := by
  simp only [coordOf, BitVec.extractLsb', Nat.shiftRight_eq_div_pow, pow_zero, Nat.div_one]

/-- The length as R89 gives it by the code. -/
theorem cmdLength_eq (w : Word) :
    cmdLength w =
      if w.toNat / 2 ^ 28 = 7 ∨ w.toNat / 2 ^ 28 = 9 then 2
      else if w.toNat / 2 ^ 28 = 10 then 3 + w.toNat % 65536 else 1 := by
  have hval : (valField w).toNat = w.toNat % 65536 := BitVec.toNat_ofNat ..
  rw [cmdLength, opField_toNat, hval]
  split <;> simp_all

theorem decodeWords_missing {w : Word} {ext : List Word} (h : ext.length + 1 < cmdLength w) :
    decodeWords (w :: ext) = .error .missingWords := by
  simp only [decodeWords]
  rw [if_pos (by omega)]

/-- PULSE_PIN and PRESS have one extension word (30_encoding.md R89). -/
theorem exists_ext_of_code_seven_or_nine {w : Word} {ext : List Word} (h : ext.length + 1 = cmdLength w)
    (hop : w.toNat / 2 ^ 28 = 7 ∨ w.toNat / 2 ^ 28 = 9) : ∃ d, ext = [d] := by
  rw [cmdLength_eq, if_pos hop] at h
  exact List.length_eq_one_iff.mp (Nat.succ.inj h)

/-- PRESS_SEQ has at least two extension words (30_encoding.md R89). -/
theorem exists_ext_of_code_ten {w : Word} {ext : List Word} (h : ext.length + 1 = cmdLength w)
    (hop : w.toNat / 2 ^ 28 = 10) : ∃ d ivl cs, ext = d :: ivl :: cs := by
  rw [cmdLength_eq, if_neg (by omega), if_pos hop] at h
  match ext, h with
  | [], h => simp only [List.length_nil] at h; omega
  | [_], h => simp only [List.length_singleton] at h; omega
  | d :: ivl :: cs, _ => exact ⟨d, ivl, cs, rfl⟩

/-- Settles O3: the length from word 0 says which words there are, the code which operands they hold. -/
theorem everyCommandWordDecodesByItsBitFields : Obligations.EveryCommandWordDecodesByItsBitFields := by
  intro w ext more op port pin lvl val row col len
  have hlen : cmdLength w = len := cmdLength_eq w
  have hcode : (opField w).toNat = op := opField_toNat w
  have hport : portField w = port := portField_eq_ofNat w
  have hpin : pinField w = pin := pinField_eq_ofNat w
  have hlvl : lvlField w = lvl := lvlField_eq_decide w
  have hval : valField w = val := valField_eq_ofNat w
  have hcoord : coordOf = fun x => ⟨row x, col x⟩ := funext coordOf_eq_ofNat
  refine ⟨fun h => decodeWords_missing (hlen ▸ h), fun h => ?_⟩
  rw [← hlen] at h
  simp only [decodeWords_full w ext more h, Except.ok.injEq, Prod.mk.injEq, and_true]
  refine ⟨?_, ?_, ?_, ?_, ?_, ?_, ?_, fun hop => ?pulse, ?_, fun hop => ?press,
    fun hop => ?sequence, ?_, ?_, ?_, ?_, ?_⟩
  case pulse =>
    obtain ⟨d, rfl⟩ := exists_ext_of_code_seven_or_nine h (.inl hop)
    exact ⟨d, rfl, by simp [decodeOperands, hcode, hop, hport, hpin, hlvl]⟩
  case press =>
    obtain ⟨d, rfl⟩ := exists_ext_of_code_seven_or_nine h (.inr hop)
    exact ⟨d, rfl, by simp [decodeOperands, hcode, hop, hcoord]⟩
  case sequence =>
    obtain ⟨d, ivl, cs, rfl⟩ := exists_ext_of_code_ten h hop
    exact ⟨d, ivl, cs, rfl, by simp [decodeOperands, hcode, hop, hcoord]⟩
  all_goals
    intro hop
    simp only [decodeOperands, hcode, hop, hport, hpin, hlvl, hval, hcoord]

/-! ## Frames -/

/-- A bit of a field is the bit of the number at its place. -/
theorem getLsbD_extractLsb'_sub {n i k len : Nat} {x : BitVec n} (hk : k ≤ i) (hi : i < k + len) :
    (x.extractLsb' k len).getLsbD (i - k) = x.getLsbD i := by
  have hlt : i - k < len := by omega
  simp [hlt, Nat.add_sub_cancel' hk]

/-- Bits 23:20 and the four fields of R81 are all the bits of a frame. -/
theorem frameBits_fields {f : BitVec 24} (h : f.extractLsb' 20 4 = 0b0100#4) :
    frameBits (f.extractLsb' 17 3) (f.getLsbD 16) (f.extractLsb' 8 8) (f.extractLsb' 0 8) = f := by
  apply BitVec.eq_of_getLsbD_eq
  intro i hi
  rw [getLsbD_frameBits, ← h]
  split_ifs with hdata hreg hr haddr
  · exact getLsbD_extractLsb'_sub i.zero_le (by omega)
  · exact getLsbD_extractLsb'_sub (by omega) (by omega)
  · rw [hr]
  · exact getLsbD_extractLsb'_sub (by omega) (by omega)
  · exact getLsbD_extractLsb'_sub (by omega) (by omega)

/-- The test of the frame decoder on bits 23:20, as a number. -/
theorem bits_23_20_iff (f : BitVec 24) : f.extractLsb' 20 4 = 0b0100#4 ↔ f.toNat / 2 ^ 20 = 4 := by
  have hlt := f.isLt
  have hfour : (0b0100#4).toNat = 4 := rfl
  rw [← BitVec.toNat_inj, BitVec.extractLsb'_toNat, Nat.shiftRight_eq_div_pow, hfour]
  omega

/-- Settles O4: a frame whose bits 23:20 are 0100 is made of its fields. -/
theorem framesDecodeExactlyWithPrefix0100 : Obligations.FramesDecodeExactlyWithPrefix0100 := by
  intro f
  rw [ne_eq, ← bits_23_20_iff]
  refine ⟨fun h => ?_, fun h => by rw [decodeFrame, if_neg h]⟩
  have hf := frameBits_fields h
  cases hr : f.getLsbD 16 <;> rw [hr] at hf
  · exact ⟨_, hf ▸ decodeFrame_frameBits .., congrArg _ hf⟩
  · exact ⟨_, hf ▸ decodeFrame_frameBits .., congrArg _ hf⟩

namespace Machine

/-! ## Ticks, the opcode and the RESP word (30_encoding.md R82, R88, R92) -/

/-- Settles O59: the conversion is the library's ceiling division. -/
theorem ticksAreTheSecondsRoundedUp : Obligations.TicksAreTheSecondsRoundedUp := by
  intro params num den hden htick
  have hpos : 0 < den * params.tickNum := Nat.mul_pos hden htick
  have hceil : ticksOfSeconds params num den = (num * params.tickDen) ⌈/⌉ (den * params.tickNum) := rfl
  rw [hceil]
  refine ⟨?_, fun n hn => ?_⟩
  · rw [mul_comm _ (den * params.tickNum)]; exact le_smul_ceilDiv hpos
  · exact (ceilDiv_le_iff_le_smul hpos).mpr (by simpa [mul_comm] using hn)

/-- An opcode is the first eight bits of a frame of R81 (30_encoding.md R82). -/
theorem opcode_eq_append : ∀ (hwAddr : BitVec 3) (r : Bool),
    opcode hwAddr r = (0b0100#4 ++ hwAddr) ++ BitVec.ofBool r := by
  decide

/-- Settles O5: the opcode's three fields, as numbers. -/
theorem opcodeIsPrefixAddressAndReadFlag : Obligations.OpcodeIsPrefixAddressAndReadFlag := by
  intro hwAddr r
  have hfour : (0b0100#4).toNat = 4 := rfl
  rw [opcode_eq_append, toNat_append_eq, toNat_append_eq, BitVec.toNat_ofBool, hfour]
  omega

/-- Settles O6: the opcode is the first eight bits of the frame. -/
theorem sentBytesAreTheEncodedFrame : Obligations.SentBytesAreTheEncodedFrame := by
  intro cfg reg data
  simp only [busFrame, opcode_eq_append]
  exact ⟨rfl, rfl⟩

/-- The status number stands in bits 31:28, the value in bits 15:0 (30_encoding.md R92). -/
theorem toNat_respWord (e : Status) (v : Half) :
    (respWord ⟨e, v⟩).toNat = (statusCode e).toNat * 2 ^ 28 + v.toNat := by
  have h0 : (0#12).toNat = 0 := rfl
  rw [respWord, toNat_append_eq, toNat_append_eq, h0]
  dsimp only
  omega

/-- Settles O7: the number of each status stands above 28 bits. -/
theorem respWordHoldsStatusAndValue : Obligations.RespWordHoldsStatusAndValue := by
  intro v
  simp [toNat_respWord, statusCode]

/-! ## The idle port (30_encoding.md R85) -/

/-- Settles O8: the port takes exactly the items of the code. -/
theorem stepRunsTheDecodedInstruction : Obligations.StepRunsTheDecodedInstruction := by
  intro s c i rest hp hc hhost
  simp only [step, stepEngine, worldMove_phase, hp, stepIdle, worldMove_host, hhost, fetch_code c i rest hc]

/-- Settles O22: at IDLE each of the three is accepted by `beginCommand`. -/
theorem multiStepCommandsAreAcceptedAtIdle : Obligations.MultiStepCommandsAreAcceptedAtIdle := by
  intro s hp
  refine ⟨fun port pin active d => ?_, fun row col d => ?_, fun coords d ivl hne => ?_⟩
  · simp only [exec, execPulsePin, hp, beginCommand]
  · simp only [exec, execPress, hp, beginCommand]
  · simp [exec, execPressSeq, hp, beginCommand, hne]

end Machine
end Sys2Proof
end

section
/-! No transfer is retried (40_bus_transaction.md R114): what a micro-step of an instruction sends, and what it leaves
after a failure. -/

namespace Sys2Proof.Machine

/-- From `s` to `t` at most one frame is sent, and if it failed, `t` is at IDLE with BusError in RESP. -/
def NoRetry (s t : State) : Prop :=
  ∃ es, t.trace = s.trace ++ es ∧ es.countP isXfer ≤ 1 ∧
    ∀ tx x y, Event.xfer tx none x y ∈ es → t.phase = .idle ∧ t.resp.status = .busError

section
variable {s t : State} {es : List Event}

theorem xfer_notMem_of_countP_eq_zero (hes : es.countP isXfer = 0) (tx : Frame) (rx : Option Frame) (x y : Nat) :
    Event.xfer tx rx x y ∉ es := fun hx => List.countP_eq_zero.mp hes _ hx rfl

/-- No frame is sent. -/
theorem noRetry_of_no_xfer (ht : t.trace = s.trace ++ es) (hes : es.countP isXfer = 0) : NoRetry s t :=
  ⟨es, ht, hes.le.trans zero_le_one, fun tx x y hx => absurd hx (xfer_notMem_of_countP_eq_zero hes tx none x y)⟩

/-- The one frame `tx` is sent; the step answers for its failure. -/
theorem noRetry_of_xfer {tx : Frame} (ht : t.trace = (afterXfer s tx).trace ++ es) (hes : es.countP isXfer = 0)
    (hfail : answerBytes (busAnswer s tx) = none → t.phase = .idle ∧ t.resp.status = .busError) : NoRetry s t := by
  have htr : t.trace =
      s.trace ++ .xfer tx (answerBytes (busAnswer s tx)) s.now (s.now + busTime s) :: es := by
    rw [ht, afterXfer, List.append_assoc]; rfl
  refine ⟨_, htr, ?_, fun tx' x y hx => ?_⟩
  · rw [List.countP_cons_of_pos rfl, hes]
  · rcases List.mem_cons.mp hx with hx | hx
    · injection hx with _ hnone
      exact hfail hnone.symm
    · exact absurd hx (xfer_notMem_of_countP_eq_zero hes tx' none x y)

end

/-- A micro-step of an instruction sends at most one frame, and one that sees a failure ends the command. -/
theorem shape_noRetry {i : Instr} {s t : State} (h : Shape i s t) : NoRetry s t := by
  cases h with
  | latched n => exact noRetry_of_no_xfer (es := []) (by simp) rfl
  | quiet e v n => exact noRetry_of_no_xfer rfl rfl
  | cleaned => exact noRetry_of_no_xfer (List.append_assoc ..) rfl
  | sent r reg v rx val out dir ho hr hv hd hw ha =>
    exact noRetry_of_xfer (tx := busFrame s.cfg r reg v) rfl rfl fun hnone => by simp [ha] at hnone
  | sentOn reg v rx out ph hw ho hr ha =>
    exact noRetry_of_xfer (tx := busFrame s.cfg false reg v) (es := []) (by simp) rfl fun hnone => by
      simp [ha] at hnone
  | failed r reg v k => exact noRetry_of_xfer (tx := busFrame s.cfg r reg v) rfl rfl fun _ => ⟨rfl, rfl⟩
  | waited d slack n ph => exact noRetry_of_no_xfer rfl rfl
  | cut k n => exact noRetry_of_no_xfer rfl rfl

/-- Settles O44, by the shapes of a micro-step: a transfer that fails is the last thing its command does. -/
theorem noTransferIsRetried : Obligations.NoTransferIsRetried := fun _ _ _ h => shape_noRetry (exec_shape h)

end Sys2Proof.Machine
end

section
/-! The pin and port commands (41_pin_ops.md R130 to R136, R140): a one-word encoding, the guard, and one register
access whose success alone reaches a cache. -/

namespace Sys2Proof.Machine

/-! ## One-word encodings (30_encoding.md R86, R87) -/

/-- The number of an encoded word 0 fixes the word, so it decodes to the command it encodes. -/
theorem encodedAs_of_encode {op port pin : BitVec 4} {lvl : Bool} {val : Half} {i : Instr} (hw : i.wf = true)
    (h : encode i = .words [word0 op port pin lvl val]) :
    encodedAs op.toNat port.toNat pin.toNat lvl.toNat val.toNat i := by
  intro w more hnum
  obtain rfl : w = word0 op port pin lvl val := BitVec.eq_of_toNat_eq (hnum.trans (toNat_word0 ..).symm)
  have hdec := decodeOfEncodeIsTheInstruction i more hw
  rw [h] at hdec
  exact hdec

/-! ## The common guard (41_pin_ops.md R130) -/

@[simp] theorem portOf_portCode (p : Port) : portOf (portCode p) = some p := by cases p <;> rfl

theorem portOf_eq_none {port : BitVec 4} (h : 2 ≤ port.toNat) : portOf port = none := by
  revert port
  decide

/-- An outcome meets `guarded` when an error of the guard ends the command with it, and a guard that passes leads to
`act`. -/
theorem guarded_of_cmdGuard {port : BitVec 4} {pin : Option (BitVec 4)} {value : Option Half} {pinBad : Prop}
    {k : Half} {s : State} {o : Result} {act : Port → Prop}
    (hbad : pinBad ↔ pinOutOfRange pin = true ∨ valueOutOfRange value = true)
    (herr : ∀ e, cmdGuard s port pin value = .error e → o = .next (endCommand e k s))
    (hpass : ∀ p, cmdGuard s port pin value = .ok p → act p) : guarded port pinBad k s o act := by
  refine ⟨fun hl => herr _ (cmdGuard_closed s port pin value hl), fun hl hb => ?_, fun p hl hp hb => ?_⟩
  · exact herr _ (cmdGuard_bad s port pin value hl (hb.imp portOf_eq_none hbad.mp))
  · rw [hbad, not_or, Bool.not_eq_true, Bool.not_eq_true] at hb
    exact hpass p ((cmdGuard_ok_iff ..).mpr ⟨hl, hp ▸ portOf_portCode p, hb⟩)

/-- The operand test of a command with a pin and no value. -/
theorem pinTest_iff (pin : BitVec 4) :
    7 < pin.toNat ↔ pinOutOfRange (some pin) = true ∨ valueOutOfRange none = true := by
  simp [pinOutOfRange, valueOutOfRange]

/-- The operand test of a command with a value and no pin. -/
theorem valueTest_iff (value : Half) :
    255 < value.toNat ↔ pinOutOfRange none = true ∨ valueOutOfRange (some value) = true := by
  simp [pinOutOfRange, valueOutOfRange]

/-- A command with neither is refused for its port alone. -/
theorem noTest_iff : False ↔ pinOutOfRange none = true ∨ valueOutOfRange none = true := by
  simp [pinOutOfRange, valueOutOfRange]

/-! ## A register access as the end of a command (41_pin_ops.md R131, R135, R136, R138) -/

/-- An outcome is a register write when it is the one or the other end of the one transfer. -/
theorem registerWrite_of_cases {reg v : Byte} {k : Half} {good : State → State} {s : State} {o : Result}
    (h : (∃ rx, answerBytes (busAnswer s (busFrame s.cfg false reg v)) = some rx ∧
        o = .next (good (afterXfer s (busFrame s.cfg false reg v)))) ∨
      (answerBytes (busAnswer s (busFrame s.cfg false reg v)) = none ∧
        o = .next (endCommand .busError k (afterXfer s (busFrame s.cfg false reg v))))) :
    registerWrite reg v k good s o := by
  rcases h with ⟨rx, ha, ho⟩ | ⟨ha, ho⟩
  · exact ⟨_, transferred_afterXfer .., fun _ _ => ho, fun hnone => nomatch ha.symm.trans hnone⟩
  · exact ⟨_, transferred_afterXfer .., fun _ hrx => (nomatch ha.symm.trans hrx), fun _ => ho⟩

/-- A write of an output register, at success followed by `good`, is a register write that updates the output cache
first. -/
theorem registerWrite_writeOut (p : Port) (v : Byte) (k : Half) (good : State → State) (s : State) :
    registerWrite (regAddr s.params .out p) v k (fun u => good { u with out := withPort s.out p v }) s
      (.next (orRaise k good (writeOut p v s))) :=
  registerWrite_of_cases <| (writeOut_cases p v s).imp (fun ⟨rx, ha, hw⟩ => ⟨rx, ha, by rw [hw, orRaise_ok]⟩)
    fun ⟨ha, hw⟩ => ⟨ha, by rw [hw, orRaise_err]⟩

/-- The same for a direction register and its cache. -/
theorem registerWrite_writeDir (p : Port) (v : Byte) (k : Half) (good : State → State) (s : State) :
    registerWrite (regAddr s.params .dir p) v k (fun u => good { u with dir := withPort s.dir p v }) s
      (.next (orRaise k good (writeDir p v s))) :=
  registerWrite_of_cases <| (writeDir_cases p v s).imp (fun ⟨rx, ha, hw⟩ => ⟨rx, ha, by rw [hw, orRaise_ok]⟩)
    fun ⟨ha, hw⟩ => ⟨ha, by rw [hw, orRaise_err]⟩

/-- A register read that ends the command answers the third response byte. -/
theorem registerRead_readReg (reg : Byte) (s : State) : registerRead reg s (.next (conclude (readReg reg s))) := by
  refine ⟨_, transferred_afterXfer .., fun rx hrx => ?_, fun hnone => ?_⟩
  · rw [readReg_ok reg s rx hrx, BitVec.ofNat_toNat]; rfl
  · rw [readReg_fail reg s hnone]; rfl

/-- `set_pin` as a step after which the command goes on with `good` (41_pin_ops.md R131). -/
theorem pinWrite_setPinOp (port pin : BitVec 4) (level : Bool) (k : Half) (good : State → State) (s : State) :
    pinWrite port pin level k good s (.next (orRaise k good (setPinOp port pin level s))) := by
  refine guarded_of_cmdGuard (pinTest_iff pin) (fun e hg => ?_) fun p hg => ?_
  · simp [setPinOp, hg]
  · simp only [setPinOp, hg]
    exact registerWrite_writeOut p _ k good s

/-! ## What each command does behind the guard -/

/-- The six commands of the unit with the operands their guard tests (41_pin_ops.md R130). -/
inductive PortCommand : Instr → BitVec 4 → Option (BitVec 4) → Option Half → Prop
  | setPin (port pin : BitVec 4) (level : Bool) : PortCommand (.setPin port pin level) port (some pin) none
  | togglePin (port pin : BitVec 4) : PortCommand (.togglePin port pin) port (some pin) none
  | setPort (port : BitVec 4) (value : Half) : PortCommand (.setPort port value) port none (some value)
  | getPortState (port : BitVec 4) : PortCommand (.getPortState port) port none none
  | configurePinMode (port pin : BitVec 4) (isOutput : Bool) :
      PortCommand (.configurePinMode port pin isOutput) port (some pin) none
  | readPortInput (port : BitVec 4) : PortCommand (.readPortInput port) port none none

/-- The commands that O20 and O21 list are those of the unit. -/
theorem portCommand_of_mem {port pin : BitVec 4} {b : Bool} {v : Half} {i : Instr}
    (h : i ∈ [Instr.setPin port pin b, .togglePin port pin, .setPort port v, .getPortState port,
      .configurePinMode port pin b, .readPortInput port]) : ∃ pin' value, PortCommand i port pin' value := by
  simp only [List.mem_cons, List.not_mem_nil, or_false] at h
  rcases h with rfl | rfl | rfl | rfl | rfl | rfl
  · exact ⟨_, _, .setPin ..⟩
  · exact ⟨_, _, .togglePin ..⟩
  · exact ⟨_, _, .setPort ..⟩
  · exact ⟨_, _, .getPortState ..⟩
  · exact ⟨_, _, .configurePinMode ..⟩
  · exact ⟨_, _, .readPortInput ..⟩

/-- An error of the guard ends the command with it, and nothing else changes. -/
theorem PortCommand.exec_refused {i : Instr} {port : BitVec 4} {pin : Option (BitVec 4)} {value : Option Half}
    {s : State} {e : Status} (hi : PortCommand i port pin value) (hg : cmdGuard s port pin value = .error e) :
    exec i s = .next (endCommand e 0#16 s) := by
  cases hi with
  | setPin port pin level => simp [exec, execSetPin, setPinOp, hg]
  | togglePin port pin => simp [exec, execTogglePin, togglePinOp, hg]
  | setPort port value => simp [exec, execSetPort, setPortOp, hg]
  | getPortState port => simp [exec, execGetPortState, getPortStateOp, hg]
  | configurePinMode port pin o => simp [exec, execConfigurePinMode, configurePinModeOp, hg]
  | readPortInput port => simp [exec, execReadPortInput, readPortInputOp, hg]

/-- A command of the unit meets `guarded` by what it does behind the guard. -/
theorem PortCommand.guarded_exec {i : Instr} {port : BitVec 4} {pin : Option (BitVec 4)} {value : Option Half}
    {pinBad : Prop} {s : State} {act : Port → Prop} (hi : PortCommand i port pin value)
    (hbad : pinBad ↔ pinOutOfRange pin = true ∨ valueOutOfRange value = true)
    (hpass : ∀ p, cmdGuard s port pin value = .ok p → act p) : guarded port pinBad 0#16 s (exec i s) act :=
  guarded_of_cmdGuard hbad (fun _ => hi.exec_refused) hpass

section
variable {s : State} {port pin : BitVec 4} {p : Port}

/-- A register write has no result value of its own. -/
theorem conclude_writeOut (p : Port) (v : Byte) (s : State) :
    conclude (writeOut p v s) = orRaise 0#16 (endCommand .ok 0#16) (writeOut p v s) := by
  rcases writeOut_cases p v s with ⟨rx, -, hw⟩ | ⟨-, hw⟩ <;> rw [hw] <;> rfl

theorem conclude_writeDir (p : Port) (v : Byte) (s : State) :
    conclude (writeDir p v s) = orRaise 0#16 (endCommand .ok 0#16) (writeDir p v s) := by
  rcases writeDir_cases p v s with ⟨rx, -, hw⟩ | ⟨-, hw⟩ <;> rw [hw] <;> rfl

theorem conclude_setPinOp (port pin : BitVec 4) (level : Bool) (s : State) :
    conclude (setPinOp port pin level s) = orRaise 0#16 (endCommand .ok 0#16) (setPinOp port pin level s) := by
  rcases setPinOp_cases port pin level s with ⟨e, -, h⟩ | ⟨p, -, h⟩ <;> rw [h]
  · rfl
  · exact conclude_writeOut p _ s

theorem exec_setPin_passed {level : Bool} (hg : cmdGuard s port (some pin) none = .ok p) :
    exec (.setPin port pin level) s =
      .next (orRaise 0#16 (endCommand .ok 0#16) (writeOut p (withPin (perPort s.out p) pin level) s)) := by
  simp [exec, execSetPin, setPinOp, hg, conclude_writeOut]

/-- The level written is the result value (41_pin_ops.md R132). -/
theorem exec_togglePin_passed (hg : cmdGuard s port (some pin) none = .ok p) :
    exec (.togglePin port pin) s =
      .next (orRaise 0#16 (endCommand .ok ((BitVec.ofBool (!pinBit (perPort s.out p) pin)).setWidth 16))
        (writeOut p (withPin (perPort s.out p) pin (!pinBit (perPort s.out p) pin)) s)) := by
  simp only [exec, execTogglePin, togglePinOp, setPinOp, hg]
  rcases writeOut_cases p (withPin (perPort s.out p) pin (!pinBit (perPort s.out p) pin)) s with
    ⟨rx, -, hw⟩ | ⟨-, hw⟩ <;> rw [hw] <;> rfl

theorem exec_setPort_passed {value : Half} (hg : cmdGuard s port none (some value) = .ok p) :
    exec (.setPort port value) s =
      .next (orRaise 0#16 (endCommand .ok 0#16) (writeOut p (value.setWidth 8) s)) := by
  simp [exec, execSetPort, setPortOp, hg, conclude_writeOut]

theorem exec_getPortState_passed (hg : cmdGuard s port none none = .ok p) :
    exec (.getPortState port) s = .next (endCommand .ok ((perPort s.out p).setWidth 16) s) := by
  simp [exec, execGetPortState, getPortStateOp, hg]

theorem exec_configurePinMode_passed {isOutput : Bool} (hg : cmdGuard s port (some pin) none = .ok p) :
    exec (.configurePinMode port pin isOutput) s =
      .next (orRaise 0#16 (endCommand .ok 0#16)
        (writeDir p (withPin (perPort s.dir p) pin (directionBit s.params isOutput)) s)) := by
  simp [exec, execConfigurePinMode, configurePinModeOp, hg, conclude_writeDir]

theorem exec_readPortInput_passed (hg : cmdGuard s port none none = .ok p) :
    exec (.readPortInput port) s = .next (conclude (readReg (regAddr s.params .inp p) s)) := by
  simp [exec, execReadPortInput, readPortInputOp, hg]

end

/-! ## The obligations on the six commands -/

/-- Settles O14: SET_PIN is the operation `set_pin` and ends with it. -/
theorem setPinWritesTheCachedByteWithOneBit : Obligations.SetPinWritesTheCachedByteWithOneBit := by
  intro port pin level s
  refine ⟨encodedAs_of_encode (op := 1#4) (val := 0#16) rfl rfl, ?_⟩
  rw [exec, execSetPin, conclude_setPinOp]
  exact pinWrite_setPinOp port pin level 0#16 (endCommand .ok 0#16) s

theorem levelValue_eq (level : Bool) : (BitVec.ofBool level).setWidth 16 = if level then 1#16 else 0#16 := by
  cases level <;> rfl

/-- Settles O15: TOGGLE_PIN is the write of SET_PIN with the complement of the cached bit, and answers that level. -/
theorem togglePinWritesTheComplementAndAnswersIt : Obligations.TogglePinWritesTheComplementAndAnswersIt := by
  intro port pin s
  refine ⟨encodedAs_of_encode (op := 2#4) (lvl := false) (val := 0#16) rfl rfl, ?_⟩
  refine (PortCommand.togglePin port pin).guarded_exec (pinTest_iff pin) fun p hg => ?_
  rintro level rfl
  rw [exec_togglePin_passed hg, levelValue_eq]
  exact registerWrite_writeOut p _ _ (endCommand .ok _) s

/-- Settles O16: the byte SET_PORT writes does not depend on the cache. -/
theorem setPortWritesTheWholeByte : Obligations.SetPortWritesTheWholeByte := by
  intro port value s
  refine ⟨encodedAs_of_encode (op := 3#4) (pin := 0#4) (lvl := false) rfl rfl, ?_⟩
  refine (PortCommand.setPort port value).guarded_exec (valueTest_iff value) fun p hg => ?_
  rw [exec_setPort_passed hg, BitVec.ofNat_toNat]
  exact registerWrite_writeOut p _ _ (endCommand .ok 0#16) s

/-- Settles O17: behind the guard GET_PORT_STATE ends at once with the cached byte. -/
theorem getPortStateAnswersTheCacheWithoutAFrame : Obligations.GetPortStateAnswersTheCacheWithoutAFrame := by
  intro port s
  refine ⟨encodedAs_of_encode (op := 4#4) (pin := 0#4) (lvl := false) (val := 0#16) rfl rfl, ?_⟩
  refine (PortCommand.getPortState port).guarded_exec noTest_iff fun p hg => ?_
  rw [exec_getPortState_passed hg, BitVec.ofNat_toNat]
  rfl

/-- Settles O18: CONFIGURE_PIN_MODE is the write of the cached direction byte with the bit changed. -/
theorem configurePinModeWritesTheDirectionBit : Obligations.ConfigurePinModeWritesTheDirectionBit := by
  intro port pin isOutput s
  refine ⟨encodedAs_of_encode (op := 5#4) (val := 0#16) rfl rfl, ?_⟩
  refine (PortCommand.configurePinMode port pin isOutput).guarded_exec (pinTest_iff pin) fun p hg => ?_
  rintro b rfl
  rw [exec_configurePinMode_passed hg]
  exact registerWrite_writeDir p _ _ (endCommand .ok 0#16) s

/-- Settles O19: behind the guard READ_PORT_INPUT is one read of the IN register. -/
theorem readPortInputAnswersTheLiveByte : Obligations.ReadPortInputAnswersTheLiveByte := by
  intro port s
  refine ⟨encodedAs_of_encode (op := 6#4) (pin := 0#4) (lvl := false) (val := 0#16) rfl rfl, ?_⟩
  refine (PortCommand.readPortInput port).guarded_exec noTest_iff fun p hg => ?_
  rw [exec_readPortInput_passed hg]
  exact registerRead_readReg _ s

/-! ## The laws of R140 -/

/-- The guard passes on the port whose code it is given. -/
theorem cmdGuard_portCode {s : State} {p q : Port} {pin : Option (BitVec 4)} {value : Option Half}
    (h : cmdGuard s (portCode p) pin value = .ok q) : q = p := by
  obtain ⟨-, hport, -⟩ := (cmdGuard_ok_iff ..).mp h
  rw [portOf_portCode] at hport
  exact (Option.some.inj hport).symm

/-- A command of the unit that ends with OK passed its guard. -/
theorem PortCommand.passed_of_ok {i : Instr} {p : Port} {pin : Option (BitVec 4)} {value : Option Half} {s t : State}
    (hi : PortCommand i (portCode p) pin value) (h : exec i s = .next t) (hok : t.resp.status = .ok) :
    cmdGuard s (portCode p) pin value = .ok p := by
  rcases hg : cmdGuard s (portCode p) pin value with e | q
  · rw [hi.exec_refused hg] at h
    cases h
    obtain rfl : e = .ok := hok
    rcases cmdGuard_error _ _ _ _ _ hg with ⟨-, he⟩ | ⟨-, he, -⟩ <;> cases he
  · rw [cmdGuard_portCode hg]

/-- A write of an output register that ends its command with OK leaves the byte in the cache and the session as it
was. -/
theorem writeOut_ended_ok {p : Port} {v : Byte} {val : Half} {s t : State}
    (h : Host.Outcome.next (orRaise 0#16 (endCommand .ok val) (writeOut p v s)) = (.next t : Result))
    (hok : t.resp.status = .ok) : perPort t.out p = v ∧ t.resp.value = val ∧ t.life = s.life := by
  rcases writeOut_cases p v s with ⟨rx, -, hw⟩ | ⟨-, hw⟩ <;> rw [hw] at h <;> cases h
  · exact ⟨perPort_withPort_same .., rfl, rfl⟩
  · cases hok

/-- R140 (a): the toggle reads the bit that SET_PIN left in the cache. -/
theorem togglePin_after_setPin {p : Port} {pin : BitVec 4} {level : Bool} {s t u : State}
    (hset : exec (.setPin (portCode p) pin level) s = .next t) (ht : t.resp.status = .ok)
    (htoggle : exec (.togglePin (portCode p) pin) t = .next u) (hu : u.resp.status = .ok) (hpin : pin.toNat ≤ 7) :
    u.resp.value = if level then 0#16 else 1#16 := by
  rw [exec_setPin_passed ((PortCommand.setPin ..).passed_of_ok hset ht)] at hset
  rw [exec_togglePin_passed ((PortCommand.togglePin ..).passed_of_ok htoggle hu)] at htoggle
  obtain ⟨hout, -, -⟩ := writeOut_ended_ok hset ht
  obtain ⟨-, hvalue, -⟩ := writeOut_ended_ok htoggle hu
  rw [hvalue, hout, pinBit_withPin_same _ _ _ hpin, levelValue_eq]
  cases level <;> rfl

/-- R140 (b): SET_PORT leaves the session open and its byte in the cache. -/
theorem getPortState_after_setPort {p : Port} {v : Byte} {s t : State}
    (hset : exec (.setPort (portCode p) (v.setWidth 16)) s = .next t) (ht : t.resp.status = .ok) :
    exec (.getPortState (portCode p)) t = .next (endCommand .ok (v.setWidth 16) t) := by
  have hg := (PortCommand.setPort ..).passed_of_ok hset ht
  rw [exec_setPort_passed hg] at hset
  obtain ⟨hout, -, hlife⟩ := writeOut_ended_ok hset ht
  have hopen : t.life = .opened := hlife.trans (cmdGuard_opened hg)
  have hv : (v.setWidth 16).setWidth 8 = v := by simp
  rw [exec_getPortState_passed ((cmdGuard_ok_iff ..).mpr ⟨hopen, portOf_portCode p, rfl, rfl⟩), hout, hv]

/-- Settles O20: (a) and (b) by what the first command leaves in the cache, (c) by the guard. -/
theorem portLawsOfTheSource : Obligations.PortLawsOfTheSource := by
  refine ⟨fun p pin level s t u hpin hset ht htoggle hu => togglePin_after_setPin hset ht htoggle hu hpin,
    fun p v s t hset ht => ⟨_, getPortState_after_setPort hset ht, rfl, rfl⟩,
    fun port pin b v s hl => ?_⟩
  have refused {i : Instr} {pin' : Option (BitVec 4)} {value : Option Half} (hi : PortCommand i port pin' value)
      (hb : portOf port = none ∨ pinOutOfRange pin' = true ∨ valueOutOfRange value = true) :
      exec i s = .next (ended .validationError 0#16 s) := hi.exec_refused (cmdGuard_bad _ _ _ _ hl hb)
  refine ⟨fun hport i hi => ?_, fun hpin => ?_⟩
  · obtain ⟨_, _, hcmd⟩ := portCommand_of_mem hi
    exact refused hcmd (.inl (portOf_eq_none hport))
  · have hb := (pinTest_iff pin).mp hpin
    simp only [List.forall_mem_cons, List.not_mem_nil, false_imp_iff, implies_true, and_true]
    exact ⟨refused (.setPin ..) (.inr hb), refused (.togglePin ..) (.inr hb),
      refused (.configurePinMode ..) (.inr hb)⟩

end Sys2Proof.Machine
end

section
/-! Port commands are independent (41_pin_ops.md R139): each is made of operations that stay within the registers and
caches of its port and do not read the caches of the other. -/

namespace Sys2Proof.Machine

/-! ## The caches of one port -/

/-- The state with these bytes in the two caches of a port. -/
def withCaches (q : Port) (x y : Byte) (s : State) : State :=
  { s with out := withPort s.out q x, dir := withPort s.dir q y }

theorem withPort_self (x : PerPort) (q : Port) : withPort x q (perPort x q) = x := by cases q <;> rfl

theorem withPort_comm {p q : Port} (h : q ≠ p) (x : PerPort) (v w : Byte) :
    withPort (withPort x q v) p w = withPort (withPort x p w) q v := by
  cases p <;> cases q
  · exact absurd rfl h
  · rfl
  · rfl
  · exact absurd rfl h

/-- Every state is one with its own bytes in the caches of a port. -/
theorem withCaches_self (q : Port) (s : State) : withCaches q (perPort s.out q) (perPort s.dir q) s = s := by
  simp [withCaches, withPort_self]

theorem perPort_withCaches_out {p q : Port} (h : q ≠ p) (x y : Byte) (s : State) :
    perPort (withCaches q x y s).out p = perPort s.out p := perPort_withPort_other _ _ _ _ h.symm

theorem perPort_withCaches_dir {p q : Port} (h : q ≠ p) (x y : Byte) (s : State) :
    perPort (withCaches q x y s).dir p = perPort s.dir p := perPort_withPort_other _ _ _ _ h.symm

/-! ## Operations of one port -/

/-- `f` is an operation of port `p`, seen from port `q`: it leaves the caches of `q` and every register that is not
one of `p`'s as they were, sends frames to registers of `p` only, and does the same whatever the caches of `q` hold. -/
structure OfPort (p q : Port) (f : State → State) : Prop where
  params : ∀ s, (f s).params = s.params
  out : ∀ s, perPort (f s).out q = perPort s.out q
  dir : ∀ s, perPort (f s).dir q = perPort s.dir q
  chip : ∀ s a, (∀ k, a ≠ (regAddr s.params k p).toNat) → (f s).chip.read a = s.chip.read a
  trace : ∀ s, ∃ es, (f s).trace = s.trace ++ es ∧
    ∀ tx rx x y, Event.xfer tx rx x y ∈ es → ∃ k, tx.b1 = regAddr s.params k p
  blind : ∀ s x y, f (withCaches q x y s) = withCaches q x y (f s)

section
variable {p q : Port}

theorem OfPort.comp {f g : State → State} (hg : OfPort p q g) (hf : OfPort p q f) :
    OfPort p q fun s => g (f s) where
  params s := (hg.params _).trans (hf.params s)
  out s := (hg.out _).trans (hf.out s)
  dir s := (hg.dir _).trans (hf.dir s)
  chip s a ha := (hg.chip _ a (by rwa [hf.params])).trans (hf.chip s a ha)
  trace s := by
    obtain ⟨es, htr, hes⟩ := hf.trace s
    obtain ⟨fs, htr', hfs⟩ := hg.trace (f s)
    rw [hf.params] at hfs
    exact ⟨es ++ fs, by rw [htr', htr, List.append_assoc], fun tx rx x y h =>
      (List.mem_append.mp h).elim (hes tx rx x y) (hfs tx rx x y)⟩
  blind s x y := by rw [hf.blind, hg.blind]

theorem id_ofPort : OfPort p q id where
  params _ := rfl
  out _ := rfl
  dir _ := rfl
  chip _ _ _ := rfl
  trace _ := ⟨[], by simp, nofun⟩
  blind _ _ _ := rfl

theorem endCommand_ofPort (e : Status) (v : Half) : OfPort p q (endCommand e v) where
  params _ := rfl
  out _ := rfl
  dir _ := rfl
  chip _ _ _ := rfl
  trace _ := ⟨_, rfl, fun _ _ _ _ h => nomatch List.mem_singleton.mp h⟩
  blind _ _ _ := rfl

/-- The frame of an access to register `ADDR(k, p)`, with the byte that the state gives (40_bus_transaction.md R111). -/
def frameTo (p : Port) (r : Bool) (k : RegKind) (v : State → Byte) (s : State) : Frame :=
  busFrame s.cfg r (regAddr s.params k p) (v s)

theorem frameTo_withCaches {v : State → Byte} (hv : ∀ s x y, v (withCaches q x y s) = v s) (r : Bool) (k : RegKind)
    (x y : Byte) (s : State) : frameTo p r k v (withCaches q x y s) = frameTo p r k v s := by
  rw [frameTo, hv]; rfl

theorem afterXfer_ofPort (r : Bool) (k : RegKind) (v : State → Byte) (hv : ∀ s x y, v (withCaches q x y s) = v s) :
    OfPort p q fun s => afterXfer s (frameTo p r k v s) where
  params _ := rfl
  out _ := rfl
  dir _ := rfl
  chip s a ha := (transferred_afterXfer s r _ _).others a (ha k)
  trace _ := ⟨_, rfl, fun _ _ _ _ h => by cases List.mem_singleton.mp h; exact ⟨k, rfl⟩⟩
  blind s x y := by rw [frameTo_withCaches hv]; rfl

theorem setOut_ofPort (hq : q ≠ p) (v : Byte) : OfPort p q fun s => { s with out := withPort s.out p v } where
  params _ := rfl
  out s := perPort_withPort_other s.out p q v hq
  dir _ := rfl
  chip _ _ _ := rfl
  trace _ := ⟨[], by simp, nofun⟩
  blind s x y := by simp only [withCaches, withPort_comm hq]

theorem setDir_ofPort (hq : q ≠ p) (v : Byte) : OfPort p q fun s => { s with dir := withPort s.dir p v } where
  params _ := rfl
  out _ := rfl
  dir s := perPort_withPort_other s.dir p q v hq
  chip _ _ _ := rfl
  trace _ := ⟨[], by simp, nofun⟩
  blind s x y := by simp only [withCaches, withPort_comm hq]

/-! ## The commands of a port -/

/-- From `s` with any bytes in the caches of `q`, `o` is the outcome of one and the same operation of port `p`. -/
def ActsOn (p q : Port) (s : State) (o : State → Result) : Prop :=
  ∃ f, OfPort p q f ∧ ∀ x y, o (withCaches q x y s) = .next (f (withCaches q x y s))

theorem ActsOn.congr {s : State} {o o' : State → Result} (h : ActsOn p q s o)
    (ho : ∀ x y, o' (withCaches q x y s) = o (withCaches q x y s)) : ActsOn p q s o' := by
  obtain ⟨f, hf, heq⟩ := h
  exact ⟨f, hf, fun x y => (ho x y).trans (heq x y)⟩

theorem endCommand_actsOn (e : Status) (v : Half) (s : State) : ActsOn p q s fun u => .next (endCommand e v u) :=
  ⟨_, endCommand_ofPort e v, fun _ _ => rfl⟩

/-- One transfer to a register of the port, then `done` and the end with OK, or the end with BusError: the answer does
not depend on the caches, so all these states come to the same end. -/
theorem actsOn_of_ends {s : State} {o : State → Result} {done : State → State} (r : Bool) (k : RegKind)
    (v : State → Byte) (val : Frame → Half) (hv : ∀ u x y, v (withCaches q x y u) = v u) (hdone : OfPort p q done)
    (hok : ∀ u rx, answerBytes (busAnswer u (frameTo p r k v u)) = some rx →
      o u = .next (endCommand .ok (val rx) (done (afterXfer u (frameTo p r k v u)))))
    (hfail : ∀ u, answerBytes (busAnswer u (frameTo p r k v u)) = none →
      o u = .next (endCommand .busError 0#16 (afterXfer u (frameTo p r k v u)))) : ActsOn p q s o := by
  have hxfer := afterXfer_ofPort (p := p) r k v hv
  have hanswer (x y : Byte) : answerBytes (busAnswer (withCaches q x y s) (frameTo p r k v (withCaches q x y s))) =
      answerBytes (busAnswer s (frameTo p r k v s)) := by
    rw [frameTo_withCaches hv]; rfl
  rcases ha : answerBytes (busAnswer s (frameTo p r k v s)) with _ | rx
  · exact ⟨_, (endCommand_ofPort .busError 0#16).comp hxfer, fun x y => hfail _ ((hanswer x y).trans ha)⟩
  · exact ⟨_, (endCommand_ofPort .ok (val rx)).comp (hdone.comp hxfer),
      fun x y => hok _ rx ((hanswer x y).trans ha)⟩

theorem writeOut_actsOn (hq : q ≠ p) (v : Byte) (val : Half) (s : State) :
    ActsOn p q s fun u => .next (orRaise 0#16 (endCommand .ok val) (writeOut p v u)) :=
  actsOn_of_ends false .out (fun _ => v) (fun _ => val) (fun _ _ _ => rfl) (setOut_ofPort hq v)
    (fun u rx ha => by simp [writeOut, writeReg_ok _ v u rx ha, frameTo])
    (fun u ha => by simp [writeOut, writeReg_fail _ v u ha, frameTo])

theorem writeDir_actsOn (hq : q ≠ p) (v : Byte) (val : Half) (s : State) :
    ActsOn p q s fun u => .next (orRaise 0#16 (endCommand .ok val) (writeDir p v u)) :=
  actsOn_of_ends false .dir (fun _ => v) (fun _ => val) (fun _ _ _ => rfl) (setDir_ofPort hq v)
    (fun u rx ha => by simp [writeDir, writeReg_ok _ v u rx ha, frameTo])
    (fun u ha => by simp [writeDir, writeReg_fail _ v u ha, frameTo])

theorem readReg_actsOn (k : RegKind) (s : State) :
    ActsOn p q s fun u => .next (conclude (readReg (regAddr u.params k p) u)) :=
  actsOn_of_ends true k (fun u => u.params.readFill) (fun rx => rx.b2.setWidth 16) (fun _ _ _ => rfl) id_ofPort
    (fun u rx ha => by simp [readReg_ok _ u rx ha, frameTo])
    (fun u ha => by simp [readReg_fail _ u ha, frameTo])

/-- A command on port `p` acts on that port: its guard does not read the caches, and behind it the bytes it works with
come from the caches of `p`. -/
theorem PortCommand.actsOn {i : Instr} {pin : Option (BitVec 4)} {value : Option Half}
    (hi : PortCommand i (portCode p) pin value) (hq : q ≠ p) (s : State) : ActsOn p q s (exec i) := by
  rcases hg : cmdGuard s (portCode p) pin value with e | p'
  · exact (endCommand_actsOn e 0#16 s).congr fun x y => hi.exec_refused (s := withCaches q x y s) hg
  obtain rfl := cmdGuard_portCode hg
  cases hi with
  | setPin port pin level =>
    refine (writeOut_actsOn hq (withPin (perPort s.out p') pin level) 0#16 s).congr fun x y => ?_
    rw [exec_setPin_passed (s := withCaches q x y s) hg, perPort_withCaches_out hq]
  | togglePin port pin =>
    refine (writeOut_actsOn hq (withPin (perPort s.out p') pin (!pinBit (perPort s.out p') pin))
      ((BitVec.ofBool (!pinBit (perPort s.out p') pin)).setWidth 16) s).congr fun x y => ?_
    rw [exec_togglePin_passed (s := withCaches q x y s) hg, perPort_withCaches_out hq]
  | setPort port value =>
    exact (writeOut_actsOn hq (value.setWidth 8) 0#16 s).congr fun x y =>
      exec_setPort_passed (s := withCaches q x y s) hg
  | getPortState port =>
    refine (endCommand_actsOn .ok ((perPort s.out p').setWidth 16) s).congr fun x y => ?_
    rw [exec_getPortState_passed (s := withCaches q x y s) hg, perPort_withCaches_out hq]
  | configurePinMode port pin o =>
    refine (writeDir_actsOn hq (withPin (perPort s.dir p') pin (directionBit s.params o)) 0#16 s).congr
      fun x y => ?_
    rw [exec_configurePinMode_passed (s := withCaches q x y s) hg, perPort_withCaches_dir hq]
    rfl
  | readPortInput port =>
    exact (readReg_actsOn .inp s).congr fun x y => exec_readPortInput_passed (s := withCaches q x y s) hg

end

/-- Settles O21: the step is one operation of port `p`, the same one for all bytes in the caches of `q`. -/
theorem portCommandsAreIndependent : Obligations.PortCommandsAreIndependent := by
  intro p q pin b v s t i hq hi h
  obtain ⟨_, _, hcmd⟩ := portCommand_of_mem hi
  obtain ⟨f, hf, hexec⟩ := hcmd.actsOn hq s
  obtain rfl : f s = t := by
    have hself := hexec (perPort s.out q) (perPort s.dir q)
    rw [withCaches_self] at hself
    exact Host.Outcome.next.inj (hself.symm.trans h)
  obtain ⟨es, htrace, hes⟩ := hf.trace s
  exact ⟨hf.out s, hf.dir s, hf.chip s, es, htrace, hes, fun x y => (hexec x y).trans (congrArg _ (hf.blind s x y))⟩

end Sys2Proof.Machine
end

section
/-! The pulse engine (42_pulse_engine.md R160 to R165): the ASSERT, HOLD and RELEASE steps of a pulse, a press and a
press of a sequence as steps of one pulse on one target. -/

namespace Sys2Proof.Machine

/-! ## The wait (60_exceptions.md R212, R220) -/

theorem waits_waitThen (d : Word) (k : Half) (go : State → State) (s : State) :
    waits d k go s (.next (waitThen d k go s)) := by
  rcases waitThen_cases d k go s with ⟨hallow, habort, hw⟩ | ⟨hquiet, hw⟩ <;> rw [hw]
  · have harrives : abortArrives s = true := by simp [abortArrives, hallow, habort]
    exact ⟨fun h => (nomatch harrives.symm.trans h), fun _ => ⟨_, rfl⟩⟩
  · refine ⟨fun _ => ⟨_, Nat.le_add_right _ (s.waitScript.head Config.freeWait).slack, ?_⟩, fun h => ?_⟩
    · simp only [Nat.add_assoc]
    · exact nomatch hquiet.symm.trans h

/-- Settles O23: each position is one operation, a pin change or the wait, with what the command does after it. -/
theorem pulsePinRunsAssertHoldRelease : Obligations.PulsePinRunsAssertHoldRelease := by
  intro port pin active d s
  refine ⟨fun hp => ?_, fun hp => ?_, fun hp => ?_⟩ <;> simp only [exec, execPulsePin, hp]
  · exact pinWrite_setPinOp port pin active 0#16 _ s
  · exact waits_waitThen d 0#16 _ s
  · exact pinWrite_setPinOp port pin (!active) 0#16 _ s

/-! ## The target of a pulse -/

theorem portOf_eq_some_iff (port : BitVec 4) (p : Port) : portOf port = some p ↔ port = portCode p := by
  revert port
  cases p <;> decide

/-- The byte the block computes is the one R131 writes out. -/
theorem withPin_eq_bitChanged (old : Byte) (pin : BitVec 4) (bit : Bool) :
    withPin old pin bit = bitChanged old pin bit := rfl

section
variable {s u : State} {i : Instr} {port pin : BitVec 4} {active : Bool} {p : Port}

/-- The target depends on the table and on IDX alone (10_state.md R27). -/
theorem pulseTarget_congr (hcfg : u.cfg = s.cfg) (hidx : u.idx = s.idx) : pulseTarget u i = pulseTarget s i := by
  unfold pulseTarget
  rw [hcfg, hidx]

theorem pulseTarget_press_iff {row col : BitVec 8} {d : Word} :
    pulseTarget s (.press row col d) = some (port, pin, active) ↔
      resolveCoord s.cfg row col = .ok (port, pin) ∧ active = true := by
  rcases hr : resolveCoord s.cfg row col with e | ⟨a, b⟩
  · simp [pulseTarget, hr]
  · simp [pulseTarget, hr, and_assoc, eq_comm]

theorem pulseTarget_pressSeq_iff {coords : List Coord} {d ivl : Word} :
    pulseTarget s (.pressSeq coords d ivl) = some (port, pin, active) ↔
      ∃ c, coords[s.idx]? = some c ∧ resolveCoord s.cfg c.row c.col = .ok (port, pin) ∧ active = true := by
  rcases hc : coords[s.idx]? with _ | c
  · simp [pulseTarget, hc]
  · rcases hr : resolveCoord s.cfg c.row c.col with e | ⟨a, b⟩
    · simp [pulseTarget, hc, hr]
    · simp [pulseTarget, hc, hr, and_assoc, eq_comm]

/-! ## The three steps of a pulse (42_pulse_engine.md R161) -/

/-- The command pulses a pin for `d` ticks: a pulse, a press, a sequence of presses. -/
def PulsesFor (d : Word) (i : Instr) : Prop :=
  (∃ port pin active, i = .pulsePin port pin active d) ∨ (∃ row col, i = .press row col d) ∨
    ∃ coords ivl, i = .pressSeq coords d ivl

/-- An ASSERT step that does not end its command is one successful write of the target's bit. -/
theorem exec_assert_goes_on {d : Word} {t : State} (h : exec i s = .next t) (hi : PulsesFor d i)
    (hp : s.phase = .assert) (ht : t.phase ≠ .idle) :
    ∃ port pin active p, pulseTarget s i = some (port, pin, active) ∧ cmdGuard s port (some pin) none = .ok p ∧
      t = pinSent s p pin active .hold := by
  obtain ⟨port, pin, active, k, htarget, hset⟩ : ∃ port pin active k, pulseTarget s i = some (port, pin, active) ∧
      orRaise k (fun u => { u with phase := .hold }) (setPinOp port pin active s) = t := by
    rcases hi with ⟨port, pin, active, rfl⟩ | ⟨row, col, rfl⟩ | ⟨coords, ivl, rfl⟩
    · simp only [exec, execPulsePin, hp, Host.Outcome.next.injEq] at h
      exact ⟨port, pin, active, _, rfl, h⟩
    · simp only [exec, execPress, hp, Host.Outcome.next.injEq] at h
      obtain ⟨port, pin, hr, hset⟩ := (pressAssert_on h).resolve_left ht
      exact ⟨port, pin, true, _, pulseTarget_press_iff.mpr ⟨hr, rfl⟩, hset⟩
    · simp only [exec, execPressSeq, hp] at h
      rcases hc : coords[s.idx]? with _ | c <;> simp only [hc] at h
      · cases h
      · obtain ⟨port, pin, hr, hset⟩ := (pressAssert_on (Host.Outcome.next.inj h)).resolve_left ht
        exact ⟨port, pin, true, _, pulseTarget_pressSeq_iff.mpr ⟨c, hc, hr, rfl⟩, hset⟩
  obtain ⟨p, rx, -, hg, rfl⟩ := (setPin_on hset).resolve_left ht
  exact ⟨port, pin, active, p, htarget, hg, rfl⟩

/-- A HOLD step that does not end its command is a wait of at least its duration. -/
theorem exec_hold_goes_on {d : Word} {t : State} (h : exec i s = .next t) (hi : PulsesFor d i)
    (hp : s.phase = .hold) (ht : t.phase ≠ .idle) :
    ∃ n, d.toNat ≤ n ∧ t = { s with
      now := s.now + n, trace := s.trace ++ [.wait d s.now (s.now + n)]
      waitScript := s.waitScript.rest, phase := .release } := by
  obtain ⟨k, rfl⟩ : ∃ k, pulseHold d k s = t := by
    rcases hi with ⟨port, pin, active, rfl⟩ | ⟨row, col, rfl⟩ | ⟨coords, ivl, rfl⟩ <;>
      simp only [exec, execPulsePin, execPress, execPressSeq, hp, Host.Outcome.next.injEq] at h <;>
      exact ⟨_, h⟩
  obtain ⟨hends, hcut⟩ := waits_waitThen d k (fun u => { u with phase := .release }) s
  cases ha : abortArrives s with
  | false =>
    obtain ⟨n, hn, hw⟩ := hends ha
    exact ⟨n, hn, Host.Outcome.next.inj hw⟩
  | true =>
    obtain ⟨n, hw⟩ := hcut ha
    exact absurd (congrArg State.phase (Host.Outcome.next.inj hw)) ht

/-- After a successful release the command ends with OK, or a sequence goes on to GAP (44_matrix_session.md R183). -/
def EndsOkOrGap (go : State → State) : Prop :=
  ∀ u, (∃ v, go u = endCommand .ok v u) ∨ go u = { u with phase := .gap }

theorem afterPress_endsOkOrGap (n : Nat) : EndsOkOrGap (afterPress n) := by
  intro u
  unfold afterPress
  split
  · exact .inr rfl
  · exact .inl ⟨_, rfl⟩

/-- The RELEASE step of a command with a target changes the target's pin back. -/
theorem exec_release_of_target (hp : s.phase = .release) (ht : pulseTarget s i = some (port, pin, active)) :
    ∃ k go, EndsOkOrGap go ∧ exec i s = .next (orRaise k go (setPinOp port pin (!active) s)) := by
  cases i with
  | pulsePin port' pin' active' d =>
    cases ht
    exact ⟨_, _, fun _ => .inl ⟨_, rfl⟩, by simp only [exec, execPulsePin, hp]; rfl⟩
  | press row col d =>
    obtain ⟨hr, rfl⟩ := pulseTarget_press_iff.mp ht
    exact ⟨_, _, fun _ => .inl ⟨_, rfl⟩, by simp only [exec, execPress, hp, pressRelease_of _ _ _ hr]; rfl⟩
  | pressSeq coords d ivl =>
    obtain ⟨c, hc, hr, rfl⟩ := pulseTarget_pressSeq_iff.mp ht
    exact ⟨_, _, afterPress_endsOkOrGap coords.length,
      by simp only [exec, execPressSeq, hp, hc, pressRelease_of _ _ _ hr]; rfl⟩
  | _ => cases ht

/-- Behind its guard a RELEASE step sends one frame: where that fails the command ends with BusError, else it ends with
OK or goes on to GAP. -/
theorem exec_release_cases (hp : s.phase = .release) (ht : pulseTarget s i = some (port, pin, active))
    (hg : cmdGuard s port (some pin) none = .ok p) :
    (answerBytes (busAnswer s (pinFrame s p pin (!active))) = none ∧
      ∃ k, exec i s = .next (endCommand .busError k (afterXfer s (pinFrame s p pin (!active))))) ∨
    ∃ rx, answerBytes (busAnswer s (pinFrame s p pin (!active))) = some rx ∧
      (exec i s = .next (pinSent s p pin (!active) .gap) ∨
        ∃ v, exec i s = .next (endCommand .ok v (pinSent s p pin (!active) .release))) := by
  obtain ⟨k, go, hgo, hexec⟩ := exec_release_of_target hp ht
  have hset : setPinOp port pin (!active) s = writeOut p (withPin (perPort s.out p) pin (!active)) s := by
    simp only [setPinOp, hg]
  rw [hexec, hset]
  rcases writeOut_cases p (withPin (perPort s.out p) pin (!active)) s with ⟨rx, ha, hw⟩ | ⟨ha, hw⟩ <;> rw [hw]
  · refine .inr ⟨rx, ha, ?_⟩
    rw [orRaise_ok]
    rcases hgo { afterXfer s (pinFrame s p pin (!active)) with
      out := withPort s.out p (withPin (perPort s.out p) pin (!active)) } with ⟨v, hv⟩ | hv
    · exact .inr ⟨v, congrArg _ hv⟩
    · exact .inl (congrArg _ hv)
  · exact .inl ⟨ha, k, rfl⟩

/-- Behind its guard a RELEASE step puts one transfer on the trace, and after it nothing or the command's end with OK or
BusError. -/
theorem exec_release_trace {t : State} (h : exec i s = .next t) (hp : s.phase = .release)
    (ht : pulseTarget s i = some (port, pin, active)) (hg : cmdGuard s port (some pin) none = .ok p) :
    ∃ rx b rest, t.trace = s.trace ++ .xfer (pinFrame s p pin (!active)) rx s.now b :: rest ∧
      ∀ e ∈ rest, ∃ st v x, e = .resp st v x x ∧ (st = .ok ∨ st = .busError) := by
  rcases exec_release_cases hp ht hg with ⟨-, k, hexec⟩ | ⟨rx, -, hexec | ⟨v, hexec⟩⟩ <;>
    obtain rfl := Host.Outcome.next.inj (hexec.symm.trans h)
  · exact ⟨_, _, _, List.append_assoc .., by simp⟩
  · exact ⟨_, _, _, rfl, by simp⟩
  · exact ⟨_, _, _, List.append_assoc .., by simp⟩

/-! ## RELEASE under the invariant (42_pulse_engine.md R161, R162) -/

/-- The invariant holds the session open, the target in range and the target's cached bit at the active level. -/
theorem release_guard_passes (hi : BlockInv s) (hp : s.phase = .release) (hc : s.cmd = some i) :
    ∃ port pin active p, pulseTarget s i = some (port, pin, active) ∧ cmdGuard s port (some pin) none = .ok p ∧
      pinBit (perPort s.out p) pin = active := by
  obtain ⟨hopen, port, pin, active, p, ht, hport, hpin, hbit⟩ := hi.asserted i hc (.inr hp)
  exact ⟨port, pin, active, p, ht,
    (cmdGuard_ok_iff ..).mpr ⟨hopen, hport, (pinOutOfRange_some_eq_false_iff pin).mpr hpin, rfl⟩, hbit⟩

end

/-- Settles O29: the guard passes, so a failed frame is all the step does, and no cache is written. -/
theorem failedReleaseLeavesThePinAsserted : Obligations.FailedReleaseLeavesThePinAsserted := by
  intro s i p pin active tx hi hp hc ht htx hfail
  obtain rfl : tx = pinFrame s p pin (!active) := htx
  obtain ⟨_, _, _, q, ht', hg, hbit⟩ := release_guard_passes hi hp hc
  cases ht.symm.trans ht'
  obtain ⟨hopen, hport, -⟩ := (cmdGuard_ok_iff ..).mp hg
  cases (portOf_portCode p).symm.trans hport
  rcases exec_release_cases hp ht hg with ⟨-, k, hexec⟩ | ⟨rx, ha, -⟩
  · refine ⟨_, k, hexec, rfl, rfl, hopen, rfl, hbit, ?_⟩
    simp [hfail]
  · exact nomatch hfail.symm.trans ha

/-- Settles O30: the guard passes, so the only RESP event is that of the frame's outcome. -/
theorem theReleaseGuardNeverFails : Obligations.TheReleaseGuardNeverFails := by
  intro s t i es e v a b hi hp hc h htrace hmem
  obtain ⟨port, pin, active, p, ht, hg, -⟩ := release_guard_passes hi hp hc
  obtain ⟨rx, finish, rest, htrace', hrest⟩ := exec_release_trace h hp ht hg
  obtain rfl := List.append_cancel_left (htrace.symm.trans htrace')
  obtain ⟨st, _, _, heq, hst⟩ := hrest _ ((List.mem_cons.mp hmem).resolve_left nofun)
  cases heq
  exact hst

/-- A step that answers a next state inside a command is the command's micro-step after the outside world's move. -/
theorem exec_of_step {s t : State} {i : Instr} (h : step s = .next t) (hp : s.phase ≠ .idle) (hc : s.cmd = some i) :
    exec i (worldMove s) = .next t := (step_inProgress hp hc).symm.trans h

/-- Settles O28: the three steps are one write, one wait and one write on the same target, with the outside world's
moves between them, and a move only adds to the time. -/
theorem pulseHoldsAtLeastItsDuration : Obligations.PulseHoldsAtLeastItsDuration := by
  intro s s1 s2 s3 i d hp hc hi h1 hp1 h2 hp2 h3
  obtain ⟨port, pin, active, p, ht, hg, hs1⟩ :=
    exec_assert_goes_on (exec_of_step h1 (by simp [hp]) hc) hi hp (by simp [hp1])
  have hc1 : s1.cmd = some i := by rw [hs1]; exact hc
  obtain ⟨n, hn, hs2⟩ := exec_hold_goes_on (exec_of_step h2 (by simp [hp1]) hc1) hi hp1 (by simp [hp2])
  have hc2 : s2.cmd = some i := by rw [hs2]; exact hc1
  have ht2 : pulseTarget (worldMove s2) i = some (port, pin, active) := by
    rw [← ht, hs2, hs1]; exact pulseTarget_congr rfl rfl
  have hg2 : cmdGuard (worldMove s2) port (some pin) none = .ok p := by
    rw [← hg, hs2, hs1]; rfl
  obtain ⟨rx, b, rest, htr3, hrest⟩ := exec_release_trace (exec_of_step h3 (by simp [hp2]) hc2) hp2 ht2 hg2
  obtain ⟨rx1, htr1⟩ : ∃ rx1, s1.trace = s.trace ++
      [.xfer (pinFrame s p pin active) rx1 (worldMove s).now s1.now] := ⟨_, by rw [hs1]; rfl⟩
  have htr2 : s2.trace = s1.trace ++ [.wait d (worldMove s1).now s2.now] := by rw [hs2]; rfl
  have hframe : pinFrame (worldMove s2) p pin (!active) = busFrame s.cfg false (regAddr s.params .out p)
      (withPin (withPin (perPort s.out p) pin active) pin (!active)) := by
    simp [pinFrame, hs2, hs1]
  obtain ⟨-, hport, -⟩ := (cmdGuard_ok_iff ..).mp hg
  obtain rfl := (portOf_eq_some_iff ..).mp hport
  refine ⟨p, pin, active, rx1, rx, (worldMove s).now, s1.now, (worldMove s1).now, s2.now, (worldMove s2).now, b, rest,
    ht, ?_, ?_, ?_⟩
  · rw [htr3, hframe, worldMove_trace, htr2, htr1]
    simp [busFrame, withPin_eq_bitChanged]
  · have hnow2 : s2.now = (worldMove s1).now + n := by rw [hs2]
    have hmove1 := now_le_now_worldMove s1
    have hmove2 := now_le_now_worldMove s2
    omega
  · refine List.countP_eq_zero.mpr fun e he => ?_
    obtain ⟨st, v, x, rfl, -⟩ := hrest e he
    exact Bool.false_ne_true

end Sys2Proof.Machine
end

section
/-! The matrix map (43_matrix_map.md R170, R171): what the reset's check says of single entries, and the lookup of a
coordinate in an accepted table. -/

namespace Sys2Proof.Machine

/-! ## The entries of an accepted table (70_reset_and_hazards.md R242) -/

theorem tableOk_iff (cfg : Cfg) :
    tableOk cfg = true ↔ tableTotal cfg = true ∧ tableValid cfg = true ∧ tableInjective cfg = true := by
  simp only [tableOk, Bool.and_eq_true, and_assoc]

theorem entry_inside {cfg : Cfg} (h : tableTotal cfg = true) {e : MapEntry} (he : e ∈ cfg.map) :
    e.row < cfg.numRows ∧ e.col < cfg.numCols := by
  simp only [tableTotal, Bool.and_eq_true] at h
  simpa using List.all_eq_true.mp h.2 e he

/-- Two entries of a total table for one coordinate are the same entry: only one is counted there. -/
theorem entry_eq_of_coord {cfg : Cfg} (h : tableTotal cfg = true) {e e' : MapEntry} (he : e ∈ cfg.map)
    (he' : e' ∈ cfg.map) (hrow : e'.row = e.row) (hcol : e'.col = e.col) : e' = e := by
  obtain ⟨hr, hc⟩ := entry_inside h he
  simp only [tableTotal, Bool.and_eq_true, List.all_eq_true, List.mem_range, beq_iff_eq] at h
  have hcount := h.1 e.row hr e.col hc
  rw [List.countP_eq_length_filter, List.length_eq_one_iff] at hcount
  obtain ⟨a, ha⟩ := hcount
  have only {x : MapEntry} (hx : x ∈ cfg.map) (hxr : x.row = e.row) (hxc : x.col = e.col) : x = a := by
    rw [← List.mem_singleton, ← ha]
    simp [hx, hxr, hxc]
  exact (only he' hrow hcol).trans (only he rfl rfl).symm

theorem entry_valid {cfg : Cfg} (h : tableValid cfg = true) {e : MapEntry} (he : e ∈ cfg.map) :
    ∃ p, e.port = portCode p ∧ e.pin.toNat ≤ 7 := by
  have hv := List.all_eq_true.mp h e he
  simp only [Bool.and_eq_true, decide_eq_true_eq, Option.isSome_iff_exists, portOf_eq_some_iff] at hv
  obtain ⟨⟨p, hport⟩, hpin⟩ := hv
  exact ⟨p, hport, hpin⟩

theorem entry_eq_of_target {cfg : Cfg} (h : tableInjective cfg = true) {e e' : MapEntry} (he : e ∈ cfg.map)
    (he' : e' ∈ cfg.map) (hport : e'.port = e.port) (hpin : e'.pin = e.pin) : e' = e :=
  List.inj_on_of_nodup_map (of_decide_eq_true h) he' he (Prod.ext hport hpin)

/-! ## The lookup -/

theorem resolveCoord_outside {cfg : Cfg} {row col : BitVec 8} (h : outsideMatrix cfg row col) :
    resolveCoord cfg row col = .error .validationError := if_pos h

/-- The lookup finds the entry of its coordinate, whichever stands first: there is no other. -/
theorem mapEntry_of_mem {cfg : Cfg} (h : tableTotal cfg = true) {e : MapEntry} (he : e ∈ cfg.map) :
    mapEntry cfg e.row e.col = some (e.port, e.pin) := by
  rcases hf : cfg.map.find? fun x => decide (x.row = e.row) && decide (x.col = e.col) with _ | x
  · simpa using List.find?_eq_none.mp hf e he
  · have hx := List.find?_some hf
    simp only [Bool.and_eq_true, decide_eq_true_eq] at hx
    obtain rfl : x = e := entry_eq_of_coord h he (List.mem_of_find?_eq_some hf) hx.1 hx.2
    rw [mapEntry, hf, Option.map_some]

theorem resolveCoord_of_mapsTo {cfg : Cfg} (h : tableTotal cfg = true) {row col : BitVec 8} {port pin : BitVec 4}
    (hm : mapsTo cfg row col port pin) : resolveCoord cfg row col = .ok (port, pin) := by
  obtain ⟨e, he, hrow, hcol, rfl, rfl⟩ := hm
  obtain ⟨hr, hc⟩ := entry_inside h he
  have hentry := mapEntry_of_mem h he
  rw [hrow, hcol] at hentry
  rw [resolveCoord, if_neg (by omega), hentry]

theorem targetValue_eq_ofNat (port pin : BitVec 4) :
    targetValue port pin = BitVec.ofNat 16 (port.toNat * 256 + pin.toNat) := by
  revert port pin
  decide

/-! ## The obligations -/

/-- Settles O33: RESOLVE is the lookup, which the check has made total and single-valued. -/
theorem resolveAnswersTheTableEntry : Obligations.ResolveAnswersTheTableEntry := by
  intro row col s hok
  obtain ⟨htotal, -⟩ := (tableOk_iff _).mp hok
  refine ⟨?_, fun hout => ?_, fun port pin hm => ?_⟩
  · rw [← toNat_coordBits ⟨row, col⟩]
    exact encodedAs_of_encode (op := 8#4) (port := 0#4) (pin := 0#4) (lvl := false) rfl rfl
  · rw [exec, execResolve, resolveOp, resolveCoord_outside hout]
    rfl
  · rw [exec, execResolve, resolveOp, resolveCoord_of_mapsTo htotal hm, ← targetValue_eq_ofNat]
    rfl

/-- Settles O34: the entry of the coordinate names the pin, and another entry for that coordinate or for that pin is
the same entry. -/
theorem acceptedTableIsTotalValidAndInjective : Obligations.AcceptedTableIsTotalValidAndInjective := by
  intro cfg row col hok hin
  obtain ⟨htotal, hvalid, hinj⟩ := (tableOk_iff cfg).mp hok
  rw [outsideMatrix, not_or, not_le, not_le] at hin
  obtain ⟨e, he, hrow, hcol⟩ := exists_entry_of_tableTotal htotal hin.1 hin.2
  obtain ⟨p, hport, hpin⟩ := entry_valid hvalid he
  refine ⟨p, e.pin, ⟨e, he, hrow, hcol, hport, rfl⟩, hpin, ?_, ?_⟩
  · rintro port' pin' ⟨e', he', hrow', hcol', rfl, rfl⟩
    obtain rfl := entry_eq_of_coord htotal he he' (hrow'.trans hrow.symm) (hcol'.trans hcol.symm)
    exact ⟨hport, rfl⟩
  · rintro row' col' ⟨e', he', hrow', hcol', hport', hpin'⟩
    obtain rfl := entry_eq_of_target hinj he he' (hport'.trans hport.symm) hpin'
    exact ⟨BitVec.eq_of_toNat_eq (hrow'.symm.trans hrow), BitVec.eq_of_toNat_eq (hcol'.symm.trans hcol)⟩

end Sys2Proof.Machine
end

section
/-! Presses, press sequences and cleanup (44_matrix_session.md R180 to R187): each position of a press as an operation
of the pulse engine, and what a sequence still has to send and to wait for at each of its positions. -/

namespace Sys2Proof.Machine

/-! ## The operations of a press (R180) -/

section
variable {s : State} {row col : BitVec 8} {port pin : BitVec 4}

theorem pressAssert_closed (k : Half) (hl : s.life = .closed) :
    pressAssert row col k s = endCommand .sessionClosedError k s := if_pos hl

theorem pressAssert_unresolved {e : Status} (k : Half) (hl : s.life = .opened)
    (hr : resolveCoord s.cfg row col = .error e) : pressAssert row col k s = endCommand e k s := by
  simp [pressAssert, hl, hr]

/-- The closed test that a press makes before its lookup is the first test of `set_pin` too. -/
theorem pressAssert_eq_pulseAssert (k : Half) (hr : resolveCoord s.cfg row col = .ok (port, pin)) :
    pressAssert row col k s = pulseAssert port pin true k s := by
  cases hl : s.life with
  | opened => simp [pressAssert, hl, hr]
  | closed => rw [pressAssert_closed k hl, pulseAssert, setPinOp, cmdGuard_closed _ _ _ _ hl, orRaise_err]

/-- In an accepted table the lookup answers what the table says. -/
theorem resolveCoord_of_tableOk (hok : tableOk s.cfg = true) (hm : mapsTo s.cfg row col port pin) :
    resolveCoord s.cfg row col = .ok (port, pin) :=
  resolveCoord_of_mapsTo ((tableOk_iff _).mp hok).1 hm

theorem pinWrite_pressAssert (k : Half) (hok : tableOk s.cfg = true) (hm : mapsTo s.cfg row col port pin) :
    pinWrite port pin true k (fun u => { u with phase := .hold }) s (.next (pressAssert row col k s)) := by
  rw [pressAssert_eq_pulseAssert k (resolveCoord_of_tableOk hok hm)]
  exact pinWrite_setPinOp port pin true k _ s

theorem pinWrite_pressRelease (k : Half) (go : State → State) (hok : tableOk s.cfg = true)
    (hm : mapsTo s.cfg row col port pin) :
    pinWrite port pin false k go s (.next (pressRelease row col k go s)) := by
  rw [pressRelease_of k go s (resolveCoord_of_tableOk hok hm)]
  exact pinWrite_setPinOp port pin false k go s

end

/-! ## PRESS, PRESS_SEQ and CLEANUP at each position (R180, R183, R186) -/

section
variable {s : State} {row col : BitVec 8} {coords : List Coord} {c : Coord}

theorem exec_press_assert (d : Word) (hp : s.phase = .assert) :
    exec (.press row col d) s = .next (pressAssert row col 0#16 s) := by
  simp only [exec, execPress, hp]

theorem exec_press_hold (d : Word) (hp : s.phase = .hold) :
    exec (.press row col d) s = .next (pulseHold d 0#16 s) := by
  simp only [exec, execPress, hp]

theorem exec_press_release (d : Word) (hp : s.phase = .release) :
    exec (.press row col d) s = .next (pressRelease row col 0#16 (endCommand .ok 0#16) s) := by
  simp only [exec, execPress, hp]

theorem exec_pressSeq_assert (d ivl : Word) (hp : s.phase = .assert) (hcoord : coords[s.idx]? = some c) :
    exec (.pressSeq coords d ivl) s = .next (pressAssert c.row c.col (countValue s.idx) s) := by
  simp only [exec, execPressSeq, hp, hcoord]

theorem exec_pressSeq_hold (d ivl : Word) (hp : s.phase = .hold) :
    exec (.pressSeq coords d ivl) s = .next (pulseHold d (countValue s.idx) s) := by
  simp only [exec, execPressSeq, hp]

theorem exec_pressSeq_release (d ivl : Word) (hp : s.phase = .release) (hcoord : coords[s.idx]? = some c) :
    exec (.pressSeq coords d ivl) s =
      .next (pressRelease c.row c.col (countValue s.idx) (afterPress coords.length) s) := by
  simp only [exec, execPressSeq, hp, hcoord]

theorem exec_pressSeq_gap (d ivl : Word) (hp : s.phase = .gap) :
    exec (.pressSeq coords d ivl) s = .next (waitThen ivl (countValue (s.idx + 1)) nextCoord s) := by
  simp only [exec, execPressSeq, hp]

theorem exec_cleanup (s : State) : exec .cleanup s = .next (endCommand .ok 0#16 (closeIfOpen s)) := rfl

end

/-- Settles O24: each position is one operation, whose outcome the rules of `set_pin` and of the wait give. -/
theorem pressPulsesThePinOfItsCoordinate : Obligations.PressPulsesThePinOfItsCoordinate := by
  intro row col d s hok
  refine ⟨fun hp hl => ?_, fun hp hl hout => ?_, fun hp port pin hm => ?_, fun hp => ?_, fun hp port pin hm => ?_⟩
  · rw [exec_press_assert d hp, pressAssert_closed _ hl]
    rfl
  · rw [exec_press_assert d hp, pressAssert_unresolved _ hl (resolveCoord_outside hout)]
    rfl
  · rw [exec_press_assert d hp]
    exact pinWrite_pressAssert _ hok hm
  · rw [exec_press_hold d hp]
    exact waits_waitThen d 0#16 _ s
  · rw [exec_press_release d hp]
    exact pinWrite_pressRelease _ _ hok hm

/-- Settles O25: the lookup gives the pin, and behind it the two commands make the same operation at each position. -/
theorem pressIsThePulseOfItsPin : Obligations.PressIsThePulseOfItsPin := by
  intro row col port pin d s hok hm
  have hr := resolveCoord_of_tableOk hok hm
  refine ⟨fun hp => ?_, fun hp => ?_⟩
  · cases hph : s.phase with
    | idle => exact absurd hph hp
    | assert => simp only [exec, execPress, execPulsePin, hph, pressAssert_eq_pulseAssert _ hr]
    | hold => simp only [exec, execPress, execPulsePin, hph]
    | release => simp only [exec, execPress, execPulsePin, hph, pressRelease_of _ _ _ hr, pulseRelease, Bool.not_true]
    | gap => simp only [exec, execPress, execPulsePin, hph]
  · obtain ⟨hpulse, hpress, -⟩ := multiStepCommandsAreAcceptedAtIdle s hp
    exact ⟨_, _, hpress row col d, hpulse port pin true d, rfl⟩

/-! ## A sequence (R182 to R184) -/

/-- What follows a successful pin change may read IDX: the change leaves it. -/
theorem orRaise_setPinOp_congr (port pin : BitVec 4) (level : Bool) (k : Half) {go go' : State → State} {s : State}
    (h : ∀ u : State, u.idx = s.idx → go u = go' u) :
    orRaise k go (setPinOp port pin level s) = orRaise k go' (setPinOp port pin level s) := by
  rcases setPinOp_cases port pin level s with ⟨e, -, hset⟩ | ⟨p, -, hset⟩ <;> rw [hset]
  · rfl
  · rcases writeOut_cases p (withPin (perPort s.out p) pin level) s with ⟨rx, -, hw⟩ | ⟨-, hw⟩ <;> rw [hw]
    · exact h _ rfl
    · rfl

/-- After the press at index `idx` of `n` the interval follows, or the end with the count `n`. -/
theorem afterPress_eq {n : Nat} {s u : State} (hidx : u.idx = s.idx) (hn : s.idx < n) :
    afterPress n u = if s.idx + 1 < n then { u with phase := .gap } else ended .ok (BitVec.ofNat 16 n) u := by
  rw [afterPress, hidx]
  split
  · rfl
  · obtain rfl : s.idx + 1 = n := by omega
    rfl

/-- Settles O26: the positions of a press with IDX as the value of an error, and the wait between two presses. -/
theorem pressSequenceRunsItsPressesInOrder : Obligations.PressSequenceRunsItsPressesInOrder := by
  intro coords d ivl s c hok hcoord
  have hn : s.idx < coords.length := (List.getElem?_eq_some_iff.mp hcoord).1
  refine ⟨fun hp hl => ?_, fun hp hl hout => ?_, fun hp port pin hm => ?_, fun hp => ?_, fun hp port pin hm => ?_,
    fun hp => ?_⟩
  · rw [exec_pressSeq_assert d ivl hp hcoord, pressAssert_closed _ hl]
    rfl
  · rw [exec_pressSeq_assert d ivl hp hcoord, pressAssert_unresolved _ hl (resolveCoord_outside hout)]
    rfl
  · rw [exec_pressSeq_assert d ivl hp hcoord]
    exact pinWrite_pressAssert _ hok hm
  · rw [exec_pressSeq_hold d ivl hp]
    exact waits_waitThen d _ _ s
  · rw [exec_pressSeq_release d ivl hp hcoord,
      pressRelease_of _ _ s (resolveCoord_of_tableOk hok hm),
      orRaise_setPinOp_congr _ _ _ _ fun u hu => afterPress_eq hu hn]
    exact pinWrite_setPinOp port pin false _ _ s
  · rw [exec_pressSeq_gap d ivl hp]
    exact waits_waitThen ivl _ nextCoord s

/-- Settles O27: the list is tested first, and LIFE not at all. -/
theorem emptySequenceEndsAtOnce : Obligations.EmptySequenceEndsAtOnce := by
  intro d ivl s hp
  simp only [exec, execPressSeq, hp]
  rfl

/-! ## CLEANUP and the closed session (R186, R187) -/

/-- Settles O37: CLEANUP closes the handle if it is held and ends. -/
theorem cleanupReleasesTheHandleOnce : Obligations.CleanupReleasesTheHandleOnce :=
  ⟨encodedAs_of_encode (op := 11#4) (port := 0#4) (pin := 0#4) (lvl := false) (val := 0#16) rfl rfl,
    fun s => ⟨_, released_closeIfOpen s, exec_cleanup s⟩⟩

theorem closeIfOpen_of_closed {s : State} (hl : s.life = .closed) : closeIfOpen s = s := by
  rw [closeIfOpen, hl]

/-- RESOLVE does not test LIFE: it answers alike on an open and on a closed session. -/
theorem exec_resolve_of_closed (row col : BitVec 8) {s : State} (hl : s.life = .closed) :
    ∃ t u, exec (.resolve row col) s = .next t ∧ exec (.resolve row col) { s with life := .opened } = .next u ∧
      t = { u with life := .closed } := by
  refine ⟨_, _, rfl, rfl, ?_⟩
  simp only [resolveOp]
  cases resolveCoord s.cfg row col <;> simp [endCommand, hl]

/-- Settles O38: the guard of the port commands and of `set_pin`, and the first test of a press, are the closed test. -/
theorem closedSessionRefusesPinAndPortCommands : Obligations.ClosedSessionRefusesPinAndPortCommands := by
  intro s port pin b v d ivl row col coords hl
  refine ⟨fun i hi => ?_, ⟨?_, fun u t h => ?_⟩, exec_resolve_of_closed row col hl, fun hp => ⟨?_, ?_, fun hn => ?_⟩⟩
  · obtain ⟨pin', value, hcmd⟩ := portCommand_of_mem hi
    exact hcmd.exec_refused (cmdGuard_closed s port pin' value hl)
  · rw [exec_cleanup, closeIfOpen_of_closed hl]
    rfl
  · cases h
    exact closeIfOpen_life u
  · obtain ⟨hassert, -⟩ := pulsePinRunsAssertHoldRelease port pin b d s
    exact (hassert hp).1 hl
  · rw [exec_press_assert d hp, pressAssert_closed _ hl]
    rfl
  · rw [exec_pressSeq_assert d ivl hp (List.getElem?_eq_getElem hn), pressAssert_closed _ hl]
    rfl

/-! ## What a sequence still has to send and to wait for -/

@[simp] theorem coordsFollowing_none (n : Nat) : coordsFollowing none n = 0 := rfl

/-- The frames of the press at hand that are left at a position (42_pulse_engine.md R161, R165). -/
@[simp] def framesOfPress : Phase → Nat
  | .idle => 0
  | .assert => 2
  | .hold => 1
  | .release => 1
  | .gap => 0

/-- The wait of the press at hand, where it is left at a position. -/
@[simp] def waitsOfPress : Phase → Nat
  | .idle => 0
  | .assert => 1
  | .hold => 1
  | .release => 0
  | .gap => 0

/-- The frames left: each coordinate that follows takes two. -/
def framesLeft (s : State) : Nat := 2 * coordsFollowing s.cmd s.idx + framesOfPress s.phase

/-- The waits left: each coordinate that follows takes an interval and a hold. -/
def waitsLeft (s : State) : Nat := 2 * coordsFollowing s.cmd s.idx + waitsOfPress s.phase

/-- The ticks that the waits left take at least. -/
def ticksLeft (d ivl : Word) (s : State) : Nat :=
  coordsFollowing s.cmd s.idx * (ivl.toNat + d.toNat) + waitsOfPress s.phase * d.toNat

/-- From `s` to `t` the sequence has sent, waited and passed what is left at `s` and no longer at `t`. -/
def Accounts (d ivl : Word) (s t : State) : Prop :=
  ∃ es, t.trace = s.trace ++ es ∧ es.countP isXfer + framesLeft t = framesLeft s ∧
    es.countP isWait + waitsLeft t = waitsLeft s ∧ s.now + ticksLeft d ivl s ≤ t.now + ticksLeft d ivl t

section
variable {d ivl : Word} {s t u : State}

theorem Accounts.trans (hst : Accounts d ivl s t) (htu : Accounts d ivl t u) : Accounts d ivl s u := by
  obtain ⟨es, htr, hx, hw, hn⟩ := hst
  obtain ⟨es', htr', hx', hw', hn'⟩ := htu
  refine ⟨es ++ es', by rw [htr', htr, List.append_assoc], ?_, ?_, hn.trans hn'⟩
  · rw [List.countP_append]; omega
  · rw [List.countP_append]; omega

theorem worldMove_accounts (s : State) : Accounts d ivl s (worldMove s) :=
  ⟨[], (List.append_nil _).symm, Nat.zero_add _, Nat.zero_add _, Nat.add_le_add_right (now_le_now_worldMove s) _⟩

/-- A command that has ended has nothing left. -/
theorem left_of_cmd_none (hc : t.cmd = none) (hp : t.phase = .idle) :
    framesLeft t = 0 ∧ waitsLeft t = 0 ∧ ticksLeft d ivl t = 0 := by
  simp [framesLeft, waitsLeft, ticksLeft, hc, hp]

end

/-! ## A micro-step of a sequence -/

/-- The command ended in `t`, and not with OK. -/
def EndsInError (t : State) : Prop := t.phase = .idle ∧ t.resp.status ≠ .ok

theorem cmdGuard_error_ne_ok {s : State} {port : BitVec 4} {pin : Option (BitVec 4)} {value : Option Half} {e : Status}
    (h : cmdGuard s port pin value = .error e) : e ≠ .ok := by
  rcases cmdGuard_error s port pin value e h with ⟨-, rfl⟩ | ⟨-, rfl, -⟩ <;> simp

theorem setPin_errs_or_sends (port pin : BitVec 4) (level : Bool) (k : Half) (go : State → State) (s : State) :
    EndsInError (orRaise k go (setPinOp port pin level s)) ∨
      ∃ p, orRaise k go (setPinOp port pin level s) = go (pinSent s p pin level s.phase) := by
  rcases setPinOp_cases port pin level s with ⟨e, hg, hset⟩ | ⟨p, -, hset⟩ <;> rw [hset]
  · exact .inl ⟨rfl, cmdGuard_error_ne_ok hg⟩
  · rcases writeOut_cases p (withPin (perPort s.out p) pin level) s with ⟨rx, -, hw⟩ | ⟨-, hw⟩ <;> rw [hw]
    · exact .inr ⟨p, rfl⟩
    · exact .inl ⟨rfl, nofun⟩

theorem pressAssert_errs_or_sends (row col : BitVec 8) (k : Half) (s : State) :
    EndsInError (pressAssert row col k s) ∨ ∃ p pin, pressAssert row col k s = pinSent s p pin true .hold := by
  rcases resolveCoord_cases s.cfg row col with ⟨port, pin, -, -, -, hr⟩ | hr
  · rw [pressAssert_eq_pulseAssert k hr]
    exact (setPin_errs_or_sends port pin true k _ s).imp_right fun ⟨p, h⟩ => ⟨p, pin, h⟩
  · cases hl : s.life with
    | closed =>
      rw [pressAssert_closed k hl]
      exact .inl ⟨rfl, nofun⟩
    | opened =>
      rw [pressAssert_unresolved k hl hr]
      exact .inl ⟨rfl, nofun⟩

theorem pressRelease_errs_or_sends (row col : BitVec 8) (k : Half) (go : State → State) (s : State) :
    EndsInError (pressRelease row col k go s) ∨
      ∃ p pin, pressRelease row col k go s = go (pinSent s p pin false s.phase) := by
  rcases resolveCoord_cases s.cfg row col with ⟨port, pin, -, -, -, hr⟩ | hr
  · rw [pressRelease_of k go s hr]
    exact (setPin_errs_or_sends port pin false k go s).imp_right fun ⟨p, h⟩ => ⟨p, pin, h⟩
  · rw [pressRelease, hr]
    exact .inl ⟨rfl, nofun⟩

/-- The state after a wait of `n` ticks for the duration `d` (60_exceptions.md R220). -/
abbrev afterWait (s : State) (d : Word) (n : Nat) : State :=
  { s with now := s.now + n, trace := s.trace ++ [.wait d s.now (s.now + n)], waitScript := s.waitScript.rest }

theorem waitThen_errs_or_waits (d : Word) (k : Half) (go : State → State) (s : State) :
    EndsInError (waitThen d k go s) ∨ ∃ n, d.toNat ≤ n ∧ waitThen d k go s = go (afterWait s d n) := by
  rcases waitThen_cases d k go s with ⟨-, -, h⟩ | ⟨-, h⟩ <;> rw [h]
  · exact .inl ⟨rfl, nofun⟩
  · refine .inr ⟨d.toNat + (s.waitScript.head Config.freeWait).slack, Nat.le_add_right .., ?_⟩
    simp only [Nat.add_assoc]

/-- A micro-step of a sequence that brought no error: its frame or its wait is accounted for, and the sequence goes on
or has ended with the number of its coordinates. -/
structure SeqAdvances (coords : List Coord) (d ivl : Word) (s t : State) : Prop where
  accounts : Accounts d ivl s t
  next : t.cmd = s.cmd ∨ t.cmd = none ∧ t.resp.value = countValue coords.length

section
variable {coords : List Coord} {d ivl : Word} {s t : State} {p : Port} {pin : BitVec 4} {n : Nat}

/-- ASSERT to HOLD is one frame. -/
theorem pinSent_hold_advances (hp : s.phase = .assert) : SeqAdvances coords d ivl s (pinSent s p pin true .hold) where
  accounts := ⟨_, rfl, by simp [framesLeft, hp, isXfer]; omega,
    by simp [waitsLeft, hp, isWait], by simp [ticksLeft, hp]⟩
  next := .inl rfl

/-- HOLD to RELEASE is one wait of at least the duration. -/
theorem afterWait_release_advances (hp : s.phase = .hold) (hn : d.toNat ≤ n) :
    SeqAdvances coords d ivl s { afterWait s d n with phase := .release } where
  accounts := ⟨_, rfl, by simp [framesLeft, hp, isXfer],
    by simp [waitsLeft, hp, isWait]; omega, by simp [ticksLeft, hp]; omega⟩
  next := .inl rfl

/-- RELEASE to GAP, or to the end after the last coordinate, is one frame. -/
theorem afterPress_advances (hc : s.cmd = some (.pressSeq coords d ivl)) (hp : s.phase = .release)
    (hidx : s.idx < coords.length) :
    SeqAdvances coords d ivl s (afterPress coords.length (pinSent s p pin false s.phase)) := by
  rw [afterPress_eq (s := s) (u := pinSent s p pin false s.phase) rfl hidx]
  split
  · exact ⟨⟨_, rfl, by simp [framesLeft, hp, isXfer]; omega,
      by simp [waitsLeft, hp, isWait], by simp [ticksLeft, hp]⟩, .inl rfl⟩
  · next hlast =>
    have hnone : coordsFollowing s.cmd s.idx = 0 := by simp only [hc, coordsFollowing]; omega
    refine ⟨⟨_, List.append_assoc .., ?_, ?_, ?_⟩, .inr ⟨rfl, rfl⟩⟩
    · simp [framesLeft, hp, hnone, ended, List.countP_cons, isXfer]
    · simp [waitsLeft, hp, hnone, ended, isWait]
    · simp [ticksLeft, hp, hnone, ended]

/-- GAP to the next ASSERT is one wait of at least the interval, and one coordinate less follows. -/
theorem nextCoord_advances (hc : s.cmd = some (.pressSeq coords d ivl)) (hp : s.phase = .gap)
    (hnext : s.idx + 1 < coords.length) (hn : ivl.toNat ≤ n) :
    SeqAdvances coords d ivl s (nextCoord (afterWait s ivl n)) := by
  have hless : coordsFollowing s.cmd s.idx = coordsFollowing s.cmd (s.idx + 1) + 1 := by
    simp only [hc, coordsFollowing]; omega
  refine ⟨⟨_, rfl, ?_, ?_, ?_⟩, .inl rfl⟩
  · simp [framesLeft, hp, hless, isXfer]; omega
  · simp [waitsLeft, hp, hless, isWait]; omega
  · simp [ticksLeft, hp, hless, Nat.succ_mul]; omega

/-- A micro-step of a sequence in progress ends it with an error or advances it. -/
theorem exec_pressSeq_errs_or_advances (hi : BlockInv s) (hc : s.cmd = some (.pressSeq coords d ivl))
    (h : exec (.pressSeq coords d ivl) s = .next t) : EndsInError t ∨ SeqAdvances coords d ivl s t := by
  have hpos := (hi.position _ hc).2
  have hidx := idx_lt_of_positionOk hpos
  have hcoord := List.getElem?_eq_getElem hidx
  cases hp : s.phase with
  | idle => exact nomatch hc.symm.trans (hi.idle_iff.mp hp)
  | assert =>
    obtain rfl := Host.Outcome.next.inj ((exec_pressSeq_assert d ivl hp hcoord).symm.trans h)
    refine (pressAssert_errs_or_sends ..).imp_right ?_
    rintro ⟨p, pin, hsent⟩
    rw [hsent]
    exact pinSent_hold_advances hp
  | hold =>
    obtain rfl := Host.Outcome.next.inj ((exec_pressSeq_hold d ivl hp).symm.trans h)
    refine (waitThen_errs_or_waits ..).imp_right ?_
    rintro ⟨n, hn, hwaited⟩
    rw [pulseHold, hwaited]
    exact afterWait_release_advances hp hn
  | release =>
    obtain rfl := Host.Outcome.next.inj ((exec_pressSeq_release d ivl hp hcoord).symm.trans h)
    refine (pressRelease_errs_or_sends ..).imp_right ?_
    rintro ⟨p, pin, hsent⟩
    rw [hsent]
    exact afterPress_advances hc hp hidx
  | gap =>
    rw [hp] at hpos
    obtain ⟨_, _, _, ⟨⟩, hnext⟩ := (positionOk_gap_iff ..).mp hpos
    obtain rfl := Host.Outcome.next.inj ((exec_pressSeq_gap d ivl hp).symm.trans h)
    refine (waitThen_errs_or_waits ..).imp_right ?_
    rintro ⟨n, hn, hwaited⟩
    rw [hwaited]
    exact nextCoord_advances hc hp hnext hn

/-- The same of a step of the machine: the outside world's move before it sends nothing and only adds to the time. -/
theorem step_pressSeq_errs_or_advances (hi : BlockInv s) (hc : s.cmd = some (.pressSeq coords d ivl))
    (h : step s = .next t) : EndsInError t ∨ SeqAdvances coords d ivl s t := by
  have hp : s.phase ≠ .idle := fun hp => nomatch hc.symm.trans (hi.idle_iff.mp hp)
  refine (exec_pressSeq_errs_or_advances (worldMove_keeps_inv hi) hc (exec_of_step h hp hc)).imp_right fun hadv => ?_
  exact ⟨(worldMove_accounts s).trans hadv.accounts, hadv.next⟩

/-- A run of a sequence to its end with OK, by induction on the steps: each of them advances the sequence. -/
theorem run_pressSeq_accounts {k : Nat} (hi : BlockInv s) (hc : s.cmd = some (.pressSeq coords d ivl))
    (hrun : core.run (k + 1) s = .next t) (hbusy : ∀ j u, j ≤ k → core.run j s = .next u → u.phase ≠ .idle)
    (ht : t.phase = .idle) (hok : t.resp.status = .ok) :
    t.resp.value = countValue coords.length ∧ t.cmd = none ∧ Accounts d ivl s t := by
  induction k generalizing s with
  | zero =>
    obtain ⟨s1, hstep, hlast⟩ := run_inv 0 s t hrun
    obtain rfl : s1 = t := Host.Outcome.next.inj hlast
    have hnone : s1.cmd = none := (everyStepKeepsTheInvariant s s1 hi hstep).idle_iff.mp ht
    have hadv := (step_pressSeq_errs_or_advances hi hc hstep).resolve_left fun herr => herr.2 hok
    obtain hsame | ⟨-, hvalue⟩ := hadv.next
    · exact nomatch hc.symm.trans (hsame.symm.trans hnone)
    · exact ⟨hvalue, hnone, hadv.accounts⟩
  | succ k ih =>
    obtain ⟨s1, hstep, hrest⟩ := run_inv (k + 1) s t hrun
    have hi1 := everyStepKeepsTheInvariant s s1 hi hstep
    have hp1 : s1.phase ≠ .idle := hbusy 1 s1 (Nat.le_add_left ..) (run_step 0 s s1 hstep)
    have hadv := (step_pressSeq_errs_or_advances hi hc hstep).resolve_left fun herr => hp1 herr.1
    have hsame : s1.cmd = s.cmd := hadv.next.resolve_right fun hend => hp1 (hi1.idle_iff.mpr hend.1)
    obtain ⟨hvalue, hnone, haccounts⟩ := ih hi1 (hsame.trans hc) hrest fun j u hj hu =>
      hbusy (j + 1) u (Nat.succ_le_succ hj) ((run_step j s s1 hstep).trans hu)
    exact ⟨hvalue, hnone, hadv.accounts.trans haccounts⟩

end

/-- Settles O31: at ASSERT of the first coordinate all frames and waits of the sequence are left, at its end none. -/
theorem successfulSequenceSendsTwoFramesPerCoordinate :
    Obligations.SuccessfulSequenceSendsTwoFramesPerCoordinate := by
  intro k s t coords d ivl hi hp hidx hc hrun hbusy ht hok
  obtain ⟨hvalue, hnone, es, htrace, hframes, hwaits, hticks⟩ := run_pressSeq_accounts hi hc hrun hbusy ht hok
  obtain ⟨hframes', hwaits', hticks'⟩ := left_of_cmd_none (d := d) (ivl := ivl) hnone ht
  obtain ⟨m, hm⟩ : ∃ m, coords.length = m + 1 :=
    Nat.exists_eq_add_one.mpr (Nat.zero_lt_of_lt (idx_lt_of_positionOk (hi.position _ hc).2))
  have hfollowing : coordsFollowing s.cmd s.idx = m := by simp [hc, hidx, hm, coordsFollowing]
  rw [hframes', framesLeft, hfollowing, hp, framesOfPress] at hframes
  rw [hwaits', waitsLeft, hfollowing, hp, waitsOfPress] at hwaits
  rw [hticks', ticksLeft, hfollowing, hp, waitsOfPress, Nat.mul_add] at hticks
  refine ⟨hvalue, es, htrace, ?_, ?_, ?_⟩
  · omega
  · omega
  · rw [hm, Nat.succ_mul, Nat.add_sub_cancel]
    omega

end Sys2Proof.Machine
end

section
/-! The errors (60_exceptions.md R200 to R214): the RESP event of a micro-step tells how its instruction ended, a
closed session lets three commands end with OK, and no step from a state that satisfies the invariant faults. -/

namespace Sys2Proof.Machine

/-! ## The RESP event of a micro-step (00_scope.md R14) -/

/-- A RESP event that stands behind the trace of `s` in `t` is the end of the command: `t` is at IDLE and RESP holds
what the event reports. -/
def Reports (s t : State) : Prop :=
  ∀ (es : List Event) (e : Status) (v : Half) (a b : Nat), t.trace = s.trace ++ es → Event.resp e v a b ∈ es →
    t.phase = .idle ∧ t.resp = ⟨e, v⟩

section
variable {s t u : State} {es : List Event}

theorem reports_of_no_resp (ht : t.trace = s.trace ++ es) (hes : ∀ e v a b, Event.resp e v a b ∉ es) :
    Reports s t := by
  intro es' e v a b ht' hmem
  obtain rfl : es = es' := List.append_cancel_left (ht.symm.trans ht')
  exact absurd hmem (hes e v a b)

theorem reports_endCommand (status : Status) (value : Half) (hu : u.trace = s.trace ++ es)
    (hes : ∀ e v a b, Event.resp e v a b ∉ es) : Reports s (endCommand status value u) := by
  intro es' e v a b ht hmem
  rw [endCommand_trace, hu, List.append_assoc] at ht
  obtain rfl := List.append_cancel_left ht
  obtain hmem | hmem := List.mem_append.mp hmem
  · exact absurd hmem (hes e v a b)
  · obtain ⟨rfl, rfl, -⟩ := Event.resp.inj (List.mem_singleton.mp hmem)
    exact ⟨rfl, rfl⟩

end

/-- A micro-step of an instruction reports its end by one RESP event, and an instruction that goes on reports none. -/
theorem shape_reports {i : Instr} {s t : State} (h : Shape i s t) : Reports s t := by
  cases h with
  | latched n => exact reports_of_no_resp (List.append_nil _).symm (by simp)
  | quiet e v n => exact reports_endCommand e v (u := { s with idx := n }) (List.append_nil _).symm (by simp)
  | cleaned => exact reports_endCommand _ _ rfl (by simp)
  | sent r reg v rx val out dir =>
    exact reports_endCommand .ok val (u := { afterXfer s (busFrame s.cfg r reg v) with out := out, dir := dir })
      rfl (by simp)
  | sentOn reg v => exact reports_of_no_resp (afterXfer_trace ..) (by simp)
  | failed => exact reports_endCommand _ _ rfl (by simp)
  | waited => exact reports_of_no_resp rfl (by simp)
  | cut k n =>
    exact reports_endCommand .aborted k (u := { s with now := s.now + n, waitScript := s.waitScript.rest })
      (List.append_nil _).symm (by simp)

/-! ## The ends with an error (60_exceptions.md R200 to R212) -/

/-- How a micro-step from `s` ends its command with an error: by a test, with nothing changed but RESP; by its one
transfer, which failed; by ABORT in a wait. -/
inductive ErrorEnd (s : State) : Status → Half → State → Prop
  | refused (e : Status) (v : Half) (hb : e ≠ .busError) (ha : e ≠ .aborted) : ErrorEnd s e v (ended e v s)
  | failed (tx : Frame) (u : State) (v : Half) (hx : transferred tx s u)
      (hf : answerBytes (busAnswer s tx) = none) : ErrorEnd s .busError v (ended .busError v u)
  | cut (v : Half) (n : Nat) (hp : s.phase = .hold ∨ s.phase = .gap) (hl : s.params.allowAbort = true) :
      ErrorEnd s .aborted v (ended .aborted v { s with now := s.now + n, waitScript := s.waitScript.rest })

/-- A micro-step that leads to IDLE with a status other than OK is one of the three. -/
theorem shape_errorEnd {i : Instr} {s t : State} (h : Shape i s t) (ht : EndsInError t) :
    ErrorEnd s t.resp.status t.resp.value t := by
  obtain ⟨hidle, herr⟩ := ht
  cases h with
  | latched => cases hidle
  | quiet e v n hb ha hn =>
    obtain rfl := hn herr
    exact .refused e v hb ha
  | cleaned => exact absurd rfl herr
  | sent => exact absurd rfl herr
  | sentOn reg v rx out ph hw ho hr ha hp => rcases hp with ⟨-, rfl⟩ | ⟨-, rfl⟩ <;> cases hidle
  | failed r reg v k ho hr hv ha => exact .failed _ _ k (transferred_afterXfer s r reg v) ha
  | waited d slack n ph hp => rcases hp with ⟨-, rfl, -⟩ | ⟨-, rfl, -⟩ <;> cases hidle
  | cut k n hp hl => exact .cut k n hp hl

/-- A micro-step that reports an error has ended its command with it in one of the three ways. -/
theorem exec_errorEnd {i : Instr} {s t : State} {es : List Event} {e : Status} {v : Half} {a b : Nat}
    (h : exec i s = .next t) (ht : t.trace = s.trace ++ es) (hmem : Event.resp e v a b ∈ es) (he : e ≠ .ok) :
    ErrorEnd s e v t := by
  obtain ⟨hidle, hresp⟩ := shape_reports (exec_shape h) es e v a b ht hmem
  have hend := shape_errorEnd (exec_shape h) ⟨hidle, by rwa [hresp]⟩
  rwa [hresp] at hend

/-- Settles O41: neither a failed transfer nor ABORT ends a command with ValidationError, so a test did. -/
theorem validationErrorChangesNothingElse : Obligations.ValidationErrorChangesNothingElse := by
  intro i s t es v a b h ht hmem
  cases exec_errorEnd h ht hmem nofun with
  | refused => rfl

/-- Settles O42: a command ends with BusError only by its one transfer, which failed. -/
theorem busErrorLeavesTheCaches : Obligations.BusErrorLeavesTheCaches := by
  intro i s t es v a b h ht hmem
  cases exec_errorEnd h ht hmem nofun with
  | refused _ _ hb => exact absurd rfl hb
  | failed tx u _ hx hf => exact ⟨u, tx, hx, hf, rfl⟩

/-- Settles O43: a command ends with Aborted only by ABORT in a wait. -/
theorem abortOnlyCutsWaitsAndRevertsNothing : Obligations.AbortOnlyCutsWaitsAndRevertsNothing := by
  intro i s t es v a b h ht hmem
  cases exec_errorEnd h ht hmem nofun with
  | refused _ _ _ ha => exact absurd rfl ha
  | cut _ n hp hl => exact ⟨hp, hl, n, rfl⟩

/-! ## The closed session (60_exceptions.md R214) -/

/-- The command did not end in `t`, or it ended with an error. -/
def NotOk (t : State) : Prop := t.phase = .idle → t.resp.status ≠ .ok

theorem EndsInError.notOk {t : State} (h : EndsInError t) : NotOk t := fun _ => h.2

/-- A wait never ends its command with OK, when the command goes on after it. -/
theorem notOk_waitThen (d : Word) (k : Half) {go : State → State} (s : State) (hgo : ∀ u, (go u).phase ≠ .idle) :
    NotOk (waitThen d k go s) := by
  rcases waitThen_errs_or_waits d k go s with herr | ⟨n, -, hw⟩
  · exact herr.notOk
  · rw [hw]
    exact fun hidle => absurd hidle (hgo _)

theorem notOk_pulseHold (d : Word) (k : Half) (s : State) : NotOk (pulseHold d k s) :=
  notOk_waitThen d k s fun _ => nofun

section
variable {s t : State} (hl : s.life = .closed)
include hl

theorem frameOp_closed (reg : Byte) (access : State → Done Half) :
    frameOp reg access s = .err .sessionClosedError s := if_pos hl

theorem notOk_setPinOp_of_closed (port pin : BitVec 4) (level : Bool) (k : Half) (go : State → State) :
    NotOk (orRaise k go (setPinOp port pin level s)) := by
  rw [setPinOp, cmdGuard_closed s port (some pin) none hl]
  exact fun _ => nofun

theorem notOk_pressAssert_of_closed (row col : BitVec 8) (k : Half) : NotOk (pressAssert row col k s) := by
  rw [pressAssert_closed k hl]
  exact fun _ => nofun

/-- RELEASE of a press has no closed test of its own: the lookup refuses the coordinate, or `set_pin` does. -/
theorem notOk_pressRelease_of_closed (row col : BitVec 8) (k : Half) (go : State → State) :
    NotOk (pressRelease row col k go s) := by
  rcases resolveCoord_cases s.cfg row col with ⟨port, pin, -, -, -, hr⟩ | hr
  · rw [pressRelease_of k go s hr]
    exact notOk_setPinOp_of_closed hl port pin false k go
  · rw [pressRelease, hr]
    exact fun _ => nofun

theorem PortCommand.notOk_of_closed {i : Instr} {port : BitVec 4} {pin : Option (BitVec 4)} {value : Option Half}
    (hi : PortCommand i port pin value) (h : exec i s = .next t) : NotOk t := by
  obtain rfl := Host.Outcome.next.inj ((hi.exec_refused (cmdGuard_closed s port pin value hl)).symm.trans h)
  exact fun _ => nofun

/-- A command of several steps reaches no end with OK on a closed session, whatever position it stands at. -/
theorem exec_pulsePin_notOk_of_closed {port pin : BitVec 4} {active : Bool} {d : Word}
    (h : exec (.pulsePin port pin active d) s = .next t) : NotOk t := by
  simp only [exec, execPulsePin] at h
  split at h <;> cases h
  · exact nofun
  · exact notOk_setPinOp_of_closed hl port pin active _ _
  · exact notOk_pulseHold d _ s
  · exact notOk_setPinOp_of_closed hl port pin (!active) _ _

theorem exec_press_notOk_of_closed {row col : BitVec 8} {d : Word} (h : exec (.press row col d) s = .next t) :
    NotOk t := by
  simp only [exec, execPress] at h
  split at h <;> cases h
  · exact nofun
  · exact notOk_pressAssert_of_closed hl row col _
  · exact notOk_pulseHold d _ s
  · exact notOk_pressRelease_of_closed hl row col _ _

theorem exec_pressSeq_notOk_of_closed {c : Coord} {cs : List Coord} {d ivl : Word}
    (h : exec (.pressSeq (c :: cs) d ivl) s = .next t) : NotOk t := by
  simp only [exec, execPressSeq] at h
  split at h
  · cases h
    exact nofun
  · split at h <;> cases h
    exact notOk_pressAssert_of_closed hl _ _ _
  · cases h
    exact notOk_pulseHold d _ s
  · split at h <;> cases h
    exact notOk_pressRelease_of_closed hl _ _ _ _
  · cases h
    exact notOk_waitThen ivl _ s fun _ => nofun

/-- On a closed session a micro-step ends no command with OK but RESOLVE, CLEANUP and an empty sequence. -/
theorem exec_notOk_of_closed {i : Instr} (h : exec i s = .next t) :
    NotOk t ∨ i = .cleanup ∨ (∃ row col, i = .resolve row col) ∨ ∃ d ivl, i = .pressSeq [] d ivl := by
  cases i with
  | regWrite a reg v =>
    rw [exec, execRegWrite, frameOp_closed hl] at h
    cases h
    exact .inl fun _ => nofun
  | regRead a reg v =>
    rw [exec, execRegRead, frameOp_closed hl] at h
    cases h
    exact .inl fun _ => nofun
  | setPin port pin level => exact .inl ((PortCommand.setPin port pin level).notOk_of_closed hl h)
  | togglePin port pin => exact .inl ((PortCommand.togglePin port pin).notOk_of_closed hl h)
  | setPort port value => exact .inl ((PortCommand.setPort port value).notOk_of_closed hl h)
  | getPortState port => exact .inl ((PortCommand.getPortState port).notOk_of_closed hl h)
  | configurePinMode port pin o => exact .inl ((PortCommand.configurePinMode port pin o).notOk_of_closed hl h)
  | readPortInput port => exact .inl ((PortCommand.readPortInput port).notOk_of_closed hl h)
  | pulsePin port pin active d => exact .inl (exec_pulsePin_notOk_of_closed hl h)
  | resolve row col => exact .inr (.inr (.inl ⟨row, col, rfl⟩))
  | press row col d => exact .inl (exec_press_notOk_of_closed hl h)
  | pressSeq coords d ivl =>
    cases coords with
    | nil => exact .inr (.inr (.inr ⟨d, ivl, rfl⟩))
    | cons c cs => exact .inl (exec_pressSeq_notOk_of_closed hl h)
  | cleanup => exact .inr (.inl rfl)
  | _ =>
    cases h
    exact .inl fun _ => nofun

end

/-- Settles O39: a RESP event with OK is an end with OK, and the other instructions have none on a closed session. -/
theorem closedSessionAnswersOkToThreeCommandsOnly : Obligations.ClosedSessionAnswersOkToThreeCommandsOnly := by
  intro i s t es v a b hl h ht hmem
  obtain ⟨hidle, hresp⟩ := shape_reports (exec_shape h) es _ v a b ht hmem
  exact (exec_notOk_of_closed hl h).resolve_left fun hnot => hnot hidle (by rw [hresp])

/-! ## No faults (60_exceptions.md R207, 10_state.md R25) -/

/-- At IDLE every instruction has a next state: the faults of `exec` stand at the other positions. -/
theorem exec_from_idle_next (i : Instr) {s : State} (hp : s.phase = .idle) : ∃ t, exec i s = .next t := by
  cases i with
  | pulsePin port pin active d => exact ⟨_, by simp only [exec, execPulsePin, hp]; rfl⟩
  | press row col d => exact ⟨_, by simp only [exec, execPress, hp]; rfl⟩
  | pressSeq coords d ivl =>
    cases coords with
    | nil => exact ⟨_, by simp only [exec, execPressSeq, hp]; rfl⟩
    | cons c cs => exact ⟨_, by simp only [exec, execPressSeq, hp]; rfl⟩
  | _ => exact ⟨_, rfl⟩

/-- The idle port answers a next state or a refusal. -/
theorem stepIdle_ne_fault {s : State} (hp : s.phase = .idle) (f : Fault) : stepIdle s ≠ .fault f := by
  unfold stepIdle
  split
  · exact nofun
  · exact nofun
  · exact nofun
  · next i rest hf =>
    obtain ⟨t, ht⟩ := exec_from_idle_next i (s := { s with host := rest }) hp
    rw [ht]
    exact nofun
  · exact nofun

theorem step_idle {s : State} (hp : s.phase = .idle) : step s = stepIdle (worldMove s) := by
  simp [step, stepEngine, hp]

/-- Settles O47: at IDLE no instruction faults, and at every other position of the invariant the command has a next
state. -/
theorem theMachineNeverFaults : Obligations.TheMachineNeverFaults := by
  intro s f hi
  by_cases hp : s.phase = .idle
  · rw [step_idle hp]
    exact stepIdle_ne_fault (s := worldMove s) hp f
  · obtain ⟨t, hstep, -⟩ := step_ends_or_goesOn hi hp
    rw [hstep]
    exact nofun

end Sys2Proof.Machine
end

section
/-! Reset (70_reset_and_hazards.md R240 to R243): what its table check accepts, and how it ends. -/

namespace Sys2Proof.Machine

/-! ## The table check (R242) -/

/-- Where nothing is listed twice, a count of one says that one element is there and no other. -/
theorem countP_eq_one_iff_existsUnique {α : Type} {l : List α} (hl : l.Nodup) (p : α → Bool) :
    l.countP p = 1 ↔ ∃! x, x ∈ l ∧ p x = true := by
  rw [List.countP_eq_length_filter, List.length_eq_one_iff]
  refine exists_congr fun x => ?_
  rw [← List.perm_singleton, List.perm_ext_iff_of_nodup (hl.filter p) (List.nodup_singleton x)]
  simp only [List.mem_filter, List.mem_singleton]
  exact ⟨fun h => ⟨(h x).mpr rfl, fun y => (h y).mp⟩, fun ⟨hx, hu⟩ y => ⟨hu y, by rintro rfl; exact hx⟩⟩

theorem tableTotal_iff {cfg : Cfg} (hnodup : cfg.map.Nodup) :
    tableTotal cfg = true ↔
      (∀ r c, r < cfg.numRows → c < cfg.numCols → ∃! e, e ∈ cfg.map ∧ e.row = r ∧ e.col = c) ∧
        ∀ e ∈ cfg.map, e.row < cfg.numRows ∧ e.col < cfg.numCols := by
  simp only [tableTotal, Bool.and_eq_true, List.all_eq_true, List.mem_range, beq_iff_eq,
    countP_eq_one_iff_existsUnique hnodup, decide_eq_true_eq]
  exact and_congr_left' ⟨fun h r c hr => h r hr c, fun h r hr c => h r c hr⟩

theorem portOf_isSome_iff (port : BitVec 4) : (portOf port).isSome = true ↔ port = 0#4 ∨ port = 1#4 := by
  revert port
  decide

theorem tableValid_iff (cfg : Cfg) :
    tableValid cfg = true ↔ ∀ e ∈ cfg.map, (e.port = 0#4 ∨ e.port = 1#4) ∧ e.pin.toNat ≤ 7 := by
  simp only [tableValid, List.all_eq_true, Bool.and_eq_true, portOf_isSome_iff, decide_eq_true_eq]

/-- A repeated entry repeats its port and pin, so the test of injectivity refuses it too. -/
theorem tableInjective_iff (cfg : Cfg) :
    tableInjective cfg = true ↔
      cfg.map.Nodup ∧ ∀ e ∈ cfg.map, ∀ e' ∈ cfg.map, e.port = e'.port → e.pin = e'.pin → e = e' := by
  have hinj (hnodup : cfg.map.Nodup) := List.nodup_map_iff_inj_on (f := fun e => (e.port, e.pin)) hnodup
  simp only [Prod.mk.injEq, and_imp] at hinj
  rw [tableInjective, decide_eq_true_eq]
  exact ⟨fun h => ⟨h.of_map _, (hinj (h.of_map _)).mp h⟩, fun ⟨hnodup, h⟩ => (hinj hnodup).mpr h⟩

/-- Settles O35, by the three parts of the check; that no entry is listed twice comes with injectivity. -/
theorem tableCheckIsTotalityValidityInjectivity : Obligations.TableCheckIsTotalityValidityInjectivity := by
  intro cfg
  rw [tableOk_iff, tableValid_iff, tableInjective_iff]
  constructor
  · rintro ⟨htotal, hvalid, hnodup, hinj⟩
    obtain ⟨hunique, hinside⟩ := (tableTotal_iff hnodup).mp htotal
    exact ⟨hnodup, hunique, hinside, hvalid, hinj⟩
  · rintro ⟨hnodup, hunique, hinside, hvalid, hinj⟩
    exact ⟨(tableTotal_iff hnodup).mpr ⟨hunique, hinside⟩, hvalid, hnodup, hinj⟩

/-! ## A refused table (R242, R243) -/

@[simp] theorem closeIfOpen_junkScript (s : State) : (closeIfOpen s).junkScript = s.junkScript := by
  rcases closeIfOpen_cases s with ⟨-, h⟩ | ⟨-, h⟩ <;> rw [h]
  rfl

theorem construct_refused {cfg : Cfg} (s : State) (ht : tableOk cfg = false) :
    construct cfg s = failReset .validationError s := by
  simp [construct, ht]

/-- Settles O56: after the release of a held handle the reset ends with the error of the check. -/
theorem refusedTableLeavesTheSessionClosed : Obligations.RefusedTableLeavesTheSessionClosed := by
  intro cfg s ht
  rw [performReset, construct_refused _ ht, ← closeIfOpen_junkScript s]
  exact ⟨_, _, _, released_closeIfOpen s, rfl⟩

/-! ## INIT_FRAMES (R240) -/

/-- The frame of an event that is a completed transfer. -/
def completedFrame : Event → Option Frame
  | .xfer tx (some _) _ _ => some tx
  | _ => none

/-- The write frame of an entry of INIT_FRAMES. -/
def initWrite (cfg : Cfg) (params : Params) (f : InitFrame) : Frame :=
  busFrame cfg false (regAddr params f.kind f.port) f.value

/-- From `s` to `t` LIFE and CFG stay, and the events are exactly the completed write frames of `fs`, in order. -/
structure SendsInit (fs : List InitFrame) (s t : State) : Prop where
  life : t.life = s.life
  cfg : t.cfg = s.cfg
  sent : ∃ es, t.trace = s.trace ++ es ∧ es.map completedFrame = fs.map fun f => some (initWrite s.cfg s.params f)

theorem SendsInit.nil (s : State) : SendsInit [] s s := ⟨rfl, rfl, [], by simp, rfl⟩

/-- One completed write, after the outside world's move, comes before the others. -/
theorem SendsInit.cons {f : InitFrame} {fs : List InitFrame} {s t : State} {rx : Frame}
    (hrx : answerBytes (busAnswer (worldMove s) (initWrite s.cfg s.params f)) = some rx)
    (h : SendsInit fs (afterXfer (worldMove s) (initWrite s.cfg s.params f)) t) : SendsInit (f :: fs) s t := by
  obtain ⟨hlife, hcfg, es, htrace, hes⟩ := h
  refine ⟨hlife, hcfg, _ :: es, htrace.trans (List.append_assoc ..), ?_⟩
  rw [List.map_cons, List.map_cons, hrx, hes]
  rfl

/-- All that the initial writes can do: all complete, or one fails with BusError. -/
theorem sendInitFrames_cases (fs : List InitFrame) (s : State) :
    (∃ v t, sendInitFrames fs s = .ok v t ∧ SendsInit fs s t) ∨ ∃ t, sendInitFrames fs s = .err .busError t := by
  induction fs generalizing s with
  | nil => exact .inl ⟨_, _, rfl, .nil s⟩
  | cons f rest ih =>
    unfold sendInitFrames
    rcases writeReg_cases (regAddr s.params f.kind f.port) f.value (worldMove s) with ⟨rx, hrx, h⟩ | ⟨-, h⟩ <;> rw [h]
    · exact (ih _).imp_left fun ⟨v, t, h, hsent⟩ => ⟨v, t, h, hsent.cons hrx⟩
    · exact .inr ⟨_, rfl⟩

/-! ## The two ends of a reset (R240, R243) -/

theorem closeIfOpen_handle {s : State} (hh : s.life = .closed → s.handle = none) : (closeIfOpen s).handle = none := by
  rcases closeIfOpen_cases s with ⟨-, h⟩ | ⟨hl, h⟩ <;> rw [h]
  · rfl
  · exact hh hl

/-- The end of a reset whose handle was opened: all of INIT_FRAMES completed and RESP is OK, or the handle is closed
again after a BusError. -/
theorem finishReset_ends (s : State) :
    (∃ t, SendsInit s.params.initFrames s t ∧ finishReset s = { t with resp := ⟨.ok, 0#16⟩ }) ∨
      ∃ t, finishReset s = failReset .busError (closeHandle t) := by
  unfold finishReset
  rcases sendInitFrames_cases s.params.initFrames s with ⟨v, t, h, hsent⟩ | ⟨t, h⟩ <;> rw [h]
  · exact .inl ⟨t, hsent, rfl⟩
  · exact .inr ⟨_, rfl⟩

/-- Settles O57, by the cases of a construction and of its end. -/
theorem resetEndsOpenOrReportsAnError : Obligations.ResetEndsOpenOrReportsAnError := by
  intro cfg s hh
  have hnone := closeIfOpen_handle hh
  rcases construct_cases cfg (closeIfOpen s) with ⟨ht, h⟩ | ⟨ht, -, h⟩ | ⟨ht, -, h⟩ <;> rw [performReset, h]
  · exact .inr ⟨rfl, hnone, rfl, .inl ⟨rfl, ht⟩⟩
  · exact .inr ⟨rfl, hnone, rfl, .inr ⟨rfl, ht⟩⟩
  · rcases finishReset_ends (initState (openHandle cfg (worldMove (closeIfOpen s)))) with
      ⟨t, ⟨hlife, hcfg, es, htrace, hes⟩, h⟩ | ⟨t, h⟩ <;> rw [h]
    · refine .inl ⟨hlife, rfl, hcfg, ht, closeIfOpen s, _, _, es, released_closeIfOpen s,
        now_le_now_worldMove _, Nat.le_add_right .., htrace.trans (List.append_assoc ..), ?_⟩
      rw [← closeIfOpen_params s]
      exact hes
    · exact .inr ⟨rfl, rfl, rfl, .inr ⟨rfl, ht⟩⟩

end Sys2Proof.Machine
end

section
/-! The two bus frames as instructions (40_bus_transaction.md R112, R113), the requests the idle port takes no
instruction from (30_encoding.md R85, R89, R94), and the reserved codes (R93). -/

namespace Sys2Proof.Machine

/-! ## The bus frames -/

theorem frameOp_outside {s : State} {reg : Byte} (access : State → Done Half) (hl : s.life = .opened)
    (hm : reg ∉ regAddrs s.params) : frameOp reg access s = .err .fatalError s := by
  simp [frameOp, hl, hm]

/-- What both frames do: the access of a register of the RegisterMap on an open session, else the end of the command
by the first test that fails (logs 9, 10). -/
theorem frame_ends {s : State} {reg : Byte} {access : State → Done Half} {accessed : Result → Prop}
    (h : accessed (.next (conclude (access s)))) :
    let o : Result := .next (conclude (frameOp reg access s))
    (s.life = .opened → reg ∈ regAddrs s.params → accessed o) ∧
      (s.life = .closed → o = .next (ended .sessionClosedError 0#16 s)) ∧
      (s.life = .opened → reg ∉ regAddrs s.params → o = .next (ended .fatalError 0#16 s)) := by
  refine ⟨fun hl hm => ?_, fun hl => ?_, fun hl hm => ?_⟩
  · rwa [frameOp_opened access hl hm]
  · rw [frameOp_closed hl]; rfl
  · rw [frameOp_outside access hl hm]; rfl

/-- A register write that ends the command has no result value. -/
theorem registerWrite_writeReg (reg v : Byte) (s : State) :
    registerWrite reg v 0#16 (endCommand .ok 0#16) s (.next (conclude (writeReg reg v s))) :=
  registerWrite_of_cases <| (writeReg_cases reg v s).imp (fun ⟨rx, ha, hw⟩ => ⟨rx, ha, by rw [hw, conclude_ok]⟩)
    fun ⟨ha, hw⟩ => ⟨ha, by rw [hw, conclude_err]⟩

/-- Settles O12: REG_WRITE is the write of the register it names, behind the two tests of a frame. -/
theorem regWriteSendsOneFrame : Obligations.RegWriteSendsOneFrame := fun _ reg v s =>
  frame_ends (registerWrite_writeReg reg v s)

/-- Settles O13: REG_READ is the read of the register it names, behind the two tests of a frame. -/
theorem regReadAnswersTheThirdByte : Obligations.RegReadAnswersTheThirdByte := fun _ reg _ s =>
  frame_ends (registerRead_readReg reg s)

/-! ## The idle port -/

theorem leadingWords_append (ws : List Word) (rest : List HostItem) :
    leadingWords (ws.map .word ++ rest) = ws ++ leadingWords rest := by
  obtain ⟨_, h, rfl⟩ := leadingWords_map ws rest
  exact h

/-- While words of a command are missing the port waits for them at the end of the requests, and refuses any other
request in their place (log 20). -/
theorem fetch_missing {w : Word} {ext : List Word} {rest : List HostItem} (h : ext.length + 1 < cmdLength w)
    (hrest : leadingWords rest = []) :
    fetch (.word w :: (ext.map .word ++ rest)) = if rest = [] then .incomplete else .bad .requestInsideCommand := by
  have hlead : leadingWords (.word w :: (ext.map .word ++ rest)) = w :: ext := by
    rw [leadingWords, leadingWords_append, hrest, List.append_nil]
  have hlen : (w :: ext).length = (HostItem.word w :: (ext.map .word ++ rest)).length ↔ rest = [] := by
    simp
  simp only [fetch, hlead, decodeWords_missing h, hlen]

theorem fetch_notAFrame {f : BitVec 24} (rest : List HostItem) (h : f.toNat / 2 ^ 20 ≠ 4) :
    fetch (.frame f :: rest) = .bad .notAFrame := by
  simp only [fetch, (framesDecodeExactlyWithPrefix0100 f).2 h]

section
variable {s : State} (hp : s.phase = .idle)
include hp

theorem step_of_fetch_nothing (hf : fetch s.host = .nothing) : step s = .next (worldMove s) := by
  rw [step_idle hp, stepIdle, worldMove_host, hf]

theorem step_of_fetch_incomplete (hf : fetch s.host = .incomplete) : step s = .next (worldMove s) := by
  rw [step_idle hp, stepIdle, worldMove_host, hf]

theorem step_of_fetch_reset {cfg : Cfg} {rest : List HostItem} (hf : fetch s.host = .reset cfg rest) :
    step s = .next (performReset cfg { worldMove s with host := rest }) := by
  rw [step_idle hp, stepIdle, worldMove_host, hf]

theorem step_of_fetch_bad {r : Refusal} (hf : fetch s.host = .bad r) : step s = .refused r := by
  rw [step_idle hp, stepIdle, worldMove_host, hf]

end

/-- Settles O10, by what the port fetches from each of the six lists of requests. -/
theorem idlePortWaitsResetsOrStops : Obligations.IdlePortWaitsResetsOrStops := by
  intro s hp
  refine ⟨fun hhost => ?_, fun w ext h hhost => ?_, fun cfg rest hhost => ?_, fun f rest hf hhost => ?_,
    fun w ext f rest h hhost => ?_, fun w ext cfg rest h hhost => ?_⟩
  · exact step_of_fetch_nothing hp (by rw [hhost, fetch])
  · apply step_of_fetch_incomplete hp
    rw [hhost, ← List.append_nil (ext.map _), fetch_missing h rfl, if_pos rfl]
  · exact step_of_fetch_reset hp (by rw [hhost, fetch])
  · exact step_of_fetch_bad hp (by rw [hhost, fetch_notAFrame rest hf])
  · exact step_of_fetch_bad hp (by rw [hhost, fetch_missing h rfl, if_neg (List.cons_ne_nil _ _)])
  · exact step_of_fetch_bad hp (by rw [hhost, fetch_missing h rfl, if_neg (List.cons_ne_nil _ _)])

/-! ## The reserved codes (30_encoding.md R93) -/

/-- Settles O40: each of the five raises FatalError at once, whatever LIFE is. -/
theorem reservedCodesEndWithFatalError : Obligations.ReservedCodesEndWithFatalError := by
  intro s i hi
  simp only [List.mem_cons, List.not_mem_nil, or_false] at hi
  rcases hi with rfl | rfl | rfl | rfl | rfl <;> rfl

end Sys2Proof.Machine
end
